-- ==== Sys2Proof/Word.lean ====
section
/-! DEFINITION. The bit widths of the block: a byte (spec/00_scope.md, Notation), the 2-bit group that indexes the
symbol table (R73), the two fields of the command word and the word itself (R68), the micro-operation selector
(R71) and the status word (R30). -/

namespace Sys2Proof

/-- A byte: 8 bits, unsigned. -/
abbrev Byte := BitVec 8

/-- A 2-bit group of a channel byte, the index into the symbol table. -/
abbrev Group := BitVec 2

/-- The strip position field of a command word. -/
abbrev Pos := BitVec 16

/-- `COLOR24`: red in bits 23:16, green in 15:8, blue in 7:0 (R67). -/
abbrev Colour := BitVec 24

/-- `CMD48`: the command word a host presents (R68). -/
abbrev CmdWord := BitVec 48

/-- `USEL4`: the micro-operation selector (R71). -/
abbrev Usel := BitVec 4

end Sys2Proof
end

