-- ==== Sys2Proof/Config.lean ====
section
/-! DEFINITION. What one instance of the block fixes (spec/00_scope.md R4 to R11, spec/10_state.md R31), the moves
its environment can make (R12, R140, R150 to R153), and the values the spec leaves open. -/

namespace Sys2Proof

/-- The symbol table, "4 constant byte values" (R24): `t0` is `SYM[0]`, and so on. -/
structure SymTable where
  t0 : Byte
  t1 : Byte
  t2 : Byte
  t3 : Byte
  deriving DecidableEq, Repr, Inhabited

/-- The parameters of one instance. State carries them in a field no step writes, so that a statement about every
state is a statement about every instance (assumption 1). -/
structure Params where
  /-- `N`, the LED count (R4). -/
  n : Nat
  /-- `SYM[0..3]` (R5). -/
  sym : SymTable
  /-- `RESET_LEN`, written Z: the length of the reset buffer (R6). -/
  resetLen : Nat
  /-- `SETTLE_TICKS` (R7). -/
  settleTicks : Nat
  /-- `HOLD_CAP`: the capacity of the peripheral's holding buffer, 12N in a valid instance (R8). -/
  holdCap : Nat
  /-- `TX_TIMEOUT`: `none` is `INF` (R9). -/
  txTimeout : Option Nat
  /-- `T_BIT`, in the instance's own unit of time; no step reads it (R11). -/
  tBit : Nat
  /-- `T_TICK`, in the same unit; no step reads it (R11). -/
  tTick : Nat
  /-- `T_RESET_MIN`, in the same unit; no step reads it (R11). -/
  tResetMin : Nat
  deriving DecidableEq, Repr, Inhabited

/-- One move of one agent (R12): the host (R140) and the setter (R132), the command port (R114), the sequencer
(R101), the tick source (R105), the peripheral (R151 to R153, R155), and a stand-alone lookup in the symbol table
(R80, assumption 18). A move whose step is not enabled leaves the block as it is. -/
inductive Move where
  /-- HOST presents a command word; it waits at the port until it is taken. -/
  | present (w : CmdWord)
  /-- HOST, as the setter: `SET [pos] <hex>`, the position omitted or a mathematical integer (R132, R137). -/
  | set (pos : Option Int) (hex : List Char)
  /-- HOST samples `STATUS` (R30): no side effect. -/
  | sample
  /-- HOST issues the reset event (R200). -/
  | reset
  /-- The command port takes the oldest waiting word, when it can (R114). -/
  | command
  /-- SEQ runs the micro-operation that `SEQ` selects (R71). -/
  | sequence
  /-- TICK: one tick (R105, R109). -/
  | tick
  /-- PERIPH: the acceptor takes one offered byte (R151). -/
  | accept
  /-- PERIPH: a write all of whose bytes are accepted returns (R151). -/
  | complete
  /-- PERIPH: the wait policy gives up (R151). -/
  | giveUp
  /-- PERIPH: the write returns, not by timeout, with fewer bytes than requested (R155, R171). -/
  | cutShort
  /-- PERIPH: the shifter sends one byte (R152). -/
  | shift
  /-- PERIPH: the shifter finds nothing to send (R153). -/
  | idle
  /-- The symbol table is asked for one group (R80). -/
  | lookup (g : Group)
  deriving DecidableEq, Repr, Inhabited

namespace Config

/-- The default symbol table of R5 and R61 (the spec's default, from general knowledge; assumption 2). -/
def defaultSym : SymTable := ⟨0x88, 0x8E, 0xE8, 0xEE⟩

/-- The instance `State.reset` is the reset state of. DESIGN CHOICE (assumption 1): N = 3, one of the two sizes the
source's scenarios use; the spec gives no value of N. Z, SETTLE_TICKS and TX_TIMEOUT are the spec's defaults
(R6, R7, R9; assumption 2), HOLD_CAP is 12N (R8), and the times are R212's general-knowledge figures in
nanoseconds (PRESUMED, assumption 3). -/
def defaultParams : Params :=
  { n := 3, sym := defaultSym, resetLen := 48, settleTicks := 10, holdCap := 36, txTimeout := none,
    tBit := 333, tTick := 1000000, tResetMin := 50000 }

/-- FREE VALUE (assumption 6): the environment's next move where State does not say it. -/
opaque freeMove : Nat → Move

/-- FREE VALUE (assumption 4): what byte `a` of a frame buffer that nothing has written since the `k`-th INIT or
reset reads as (R22, U10: "any value"). -/
opaque freeFrameByte : Nat → Nat → Byte

/-- FREE VALUE (assumption 17): a byte on the wire of a cycle whose frame write begins with the holding buffer not clear
(R159, U7: "the wire content of that cycle is any value"). -/
opaque freeWireByte : Nat → Byte

/-- FREE VALUE (assumption 22): one less than the status SET returns when its refresh ends in a Transmission fault
(U9: "any value other than 0"). -/
opaque freeSetStatus : Nat → Nat

end Config

end Sys2Proof
end

