-- ==== Sys2Proof/Syntax.lean ====
section
/-! DEFINITION. The instructions: one constructor for each row of spec/opcode_table.json. Three are the host's
commands (`CMD48`, spec/30_encoding.md R68, R69), five are the sequencer's micro-operations (`USEL4`, R71), four
are the entries of the symbol table (`LUT2`, R61). -/

namespace Sys2Proof

/-- The rows of the opcode table. -/
inductive Instr where
  /-- `INIT` (R130). -/
  | init
  /-- `SETPIX pos, color` (R131). -/
  | setpix (pos : Pos) (color : Colour)
  /-- `UPDATE` (R100). -/
  | update
  /-- `ENCODE` (R102). -/
  | encode
  /-- `TXFRAME` (R103). -/
  | txframe
  /-- `TXRESET` (R104). -/
  | txreset
  /-- `SETTLE` (R105). -/
  | settle
  /-- `CLEAR` (R106). -/
  | clear
  /-- `SYM0`: `SymLookup(0)` (R80). -/
  | sym0
  /-- `SYM1`: `SymLookup(1)` (R80). -/
  | sym1
  /-- `SYM2`: `SymLookup(2)` (R80). -/
  | sym2
  /-- `SYM3`: `SymLookup(3)` (R80). -/
  | sym3
  deriving DecidableEq, Repr

end Sys2Proof
end

