-- ==== Sys2Proof/WellFormed.lean ====
section
/-! DEFINITION. What is checked of an instruction and of an instance's parameters.

An instruction's operands have the widths of their fields (R68), so every term of `Instr` can be encoded and
`Instr.wf` holds of each. A SETPIX whose position is not below N is a legal instruction that the block refuses
(R70). What the spec validates "once at construction" are the parameters (R31, R203). -/

namespace Sys2Proof

/-- Every instruction is well formed: its operands are exactly as wide as their fields. -/
def Instr.wf : Instr → Bool
  | .init => true
  | .setpix _ _ => true
  | .update => true
  | .encode => true
  | .txframe => true
  | .txreset => true
  | .settle => true
  | .clear => true
  | .sym0 => true
  | .sym1 => true
  | .sym2 => true
  | .sym3 => true

/-- The four entries are pairwise distinct (R5: the table has an inverse). -/
def SymTable.injective (t : SymTable) : Bool :=
  t.t0 != t.t1 && t.t0 != t.t2 && t.t0 != t.t3 && t.t1 != t.t2 && t.t1 != t.t3 && t.t2 != t.t3

/-- No entry is the zero byte (R74). -/
def SymTable.nonzero (t : SymTable) : Bool :=
  t.t0 != 0 && t.t1 != 0 && t.t2 != 0 && t.t3 != 0

/-- *valid instance* (R214, R203) with R4's bounds on N. -/
def Params.wf (p : Params) : Bool :=
  decide (1 ≤ p.n) && decide (p.n ≤ 65536) && decide (1 ≤ p.resetLen) && p.sym.injective && p.sym.nonzero
    && decide (p.holdCap = 12 * p.n)

/-- *reset time met* (R207): `8 * Z * T_BIT >= T_RESET_MIN`. -/
def Params.resetTimeMet (p : Params) : Bool :=
  decide (p.tResetMin ≤ 8 * p.resetLen * p.tBit)

/-- The parameters as R203 validates them at construction. -/
def Params.validated (p : Params) : Bool :=
  p.wf && p.resetTimeMet

end Sys2Proof
end

