-- ==== Sys2Proof/Decode.lean ====
section
/-! DEFINITION. The decoder of the three formats (spec/30_encoding.md R60, R68 to R71), total on every word and
rejecting by name, and after it the encoder. Each format has one fixed length and no format changes another's
decoding (R76): a word is read in the format of the place it stands at, the command port, the sequencer's state,
or the symbol table's index. -/

namespace Sys2Proof

/-- A word together with the format it is read in. -/
inductive EncWord where
  | cmd48 (w : CmdWord)
  | usel4 (u : Usel)
  | lut2 (g : Group)
  deriving DecidableEq, Repr

/-- Why a word is no instruction. -/
inductive DecodeError where
  /-- A reserved command word (R70). -/
  | illegalCommand
  /-- `000z` (IDLE) and `111z` (FAULT): "select no micro-operation" (R71). -/
  | noMicroOp
  /-- `101z` and `110z`: "never occur" (R71). -/
  | neverOccurs
  deriving DecidableEq, Repr

/-- `op = cmd[47:40]` (R68). -/
def cmdOp (w : CmdWord) : Byte := w.extractLsb' 40 8

/-- `pos = cmd[39:24]` (R68). -/
def cmdPos (w : CmdWord) : Pos := w.extractLsb' 24 16

/-- `color = cmd[23:0]` (R68). -/
def cmdColour (w : CmdWord) : Colour := w.extractLsb' 0 24

/-- The opcode map of the command word (R69, R70). -/
def decodeCmd48 (w : CmdWord) : Except DecodeError Instr :=
  if cmdOp w = 0x01 then
    if cmdPos w = 0 ∧ cmdColour w = 0 then .ok .init else .error .illegalCommand
  else if cmdOp w = 0x02 then .ok (.setpix (cmdPos w) (cmdColour w))
  else if cmdOp w = 0x03 then
    if cmdPos w = 0 ∧ cmdColour w = 0 then .ok .update else .error .illegalCommand
  else .error .illegalCommand

/-- The micro-operation selector: `usel[3:1] = SEQ`, `usel[0] = tz`, which only SETTLE and CLEAR read (R71). -/
def decodeUsel4 (u : Usel) : Except DecodeError Instr :=
  let seq : BitVec 3 := u.extractLsb' 1 3
  if seq = 0 then .error .noMicroOp
  else if seq = 1 then .ok .encode
  else if seq = 2 then .ok .txframe
  else if seq = 3 then .ok .txreset
  else if seq = 4 then (if u.getLsbD 0 then .ok .clear else .ok .settle)
  else if seq = 7 then .error .noMicroOp
  else .error .neverOccurs

/-- The symbol table's index names its entry (R61). -/
def decodeLut2 (g : Group) : Instr :=
  if g = 0 then .sym0 else if g = 1 then .sym1 else if g = 2 then .sym2 else .sym3

/-- The decoder. -/
def decode : EncWord → Except DecodeError Instr
  | .cmd48 w => decodeCmd48 w
  | .usel4 u => decodeUsel4 u
  | .lut2 g => .ok (decodeLut2 g)

/-- The command word of `op`, `pos`, `color` (R68). -/
def cmdWordOf (op : Byte) (pos : Pos) (color : Colour) : CmdWord := op ++ pos ++ color

/-- The encoder: the word of each instruction in its format, from the table's match values (R69, R71, R61). An
ignored `tz` bit is written as 0. -/
def encode : Instr → EncWord
  | .init => .cmd48 (cmdWordOf 0x01 0 0)
  | .setpix pos color => .cmd48 (cmdWordOf 0x02 pos color)
  | .update => .cmd48 (cmdWordOf 0x03 0 0)
  | .encode => .usel4 0b0010
  | .txframe => .usel4 0b0100
  | .txreset => .usel4 0b0110
  | .settle => .usel4 0b1000
  | .clear => .usel4 0b1001
  | .sym0 => .lut2 0b00
  | .sym1 => .lut2 0b01
  | .sym2 => .lut2 0b10
  | .sym3 => .lut2 0b11

/-- The instructions of a format whose words the table gives fewer than 8 bits, read from a whole byte. A byte
alone cannot say which of the two short formats it is in (assumption 19): the words 2 and 4 to 9 are read as
selectors, 0, 1 and 3 as table indices. -/
def decodeByteWord (w : Nat) : Option Instr :=
  if w = 2 ∨ (4 ≤ w ∧ w ≤ 9) then
    match decodeUsel4 (BitVec.ofNat 4 w) with
    | .ok i => some i
    | .error _ => none
  else if w < 4 then some (decodeLut2 (BitVec.ofNat 2 w))
  else none

/-- The instruction the decoder reads from the opcode table's numbering of a word: 48 bits are a command word, 4 a
selector, 2 a table index, and 8 either short format in a whole byte. -/
def decodeTableWord (nbits w : Nat) : Option Instr :=
  if 2 ^ nbits ≤ w then none
  else if nbits = 48 then
    match decodeCmd48 (BitVec.ofNat 48 w) with
    | .ok i => some i
    | .error _ => none
  else if nbits = 4 then
    match decodeUsel4 (BitVec.ofNat 4 w) with
    | .ok i => some i
    | .error _ => none
  else if nbits = 2 then some (decodeLut2 (BitVec.ofNat 2 w))
  else if nbits = 8 then decodeByteWord w
  else none

/-- One row of the opcode table: a word is an instance of the row when its bits under `mask` are `pat`. -/
structure OpRow (n : Nat) where
  mnemonic : String
  pat : BitVec n
  mask : BitVec n
  deriving DecidableEq, Repr

/-- Whether a word is an instance of a row. -/
def rowMatches {n : Nat} (r : OpRow n) (w : BitVec n) : Bool := w &&& r.mask == r.pat

/-- The `CMD48` rows of spec/opcode_table.json (R69). -/
def cmd48Rows : List (OpRow 48) :=
  [⟨"INIT", 0x010000000000, 0xFFFFFFFFFFFF⟩, ⟨"SETPIX", 0x020000000000, 0xFF0000000000⟩,
   ⟨"UPDATE", 0x030000000000, 0xFFFFFFFFFFFF⟩]

/-- The `USEL4` rows of spec/opcode_table.json (R71). -/
def usel4Rows : List (OpRow 4) :=
  [⟨"ENCODE", 0x2, 0xE⟩, ⟨"TXFRAME", 0x4, 0xE⟩, ⟨"TXRESET", 0x6, 0xE⟩, ⟨"SETTLE", 0x8, 0xF⟩, ⟨"CLEAR", 0x9, 0xF⟩]

/-- The `LUT2` rows of spec/opcode_table.json (R61). -/
def lut2Rows : List (OpRow 2) :=
  [⟨"SYM0", 0x0, 0x3⟩, ⟨"SYM1", 0x1, 0x3⟩, ⟨"SYM2", 0x2, 0x3⟩, ⟨"SYM3", 0x3, 0x3⟩]

/-- The table's spelling of an instruction's mnemonic. -/
def mnemonic : Instr → String
  | .init => "INIT"
  | .setpix _ _ => "SETPIX"
  | .update => "UPDATE"
  | .encode => "ENCODE"
  | .txframe => "TXFRAME"
  | .txreset => "TXRESET"
  | .settle => "SETTLE"
  | .clear => "CLEAR"
  | .sym0 => "SYM0"
  | .sym1 => "SYM1"
  | .sym2 => "SYM2"
  | .sym3 => "SYM3"

end Sys2Proof
end

