-- ==== Sys2Proof/Machine/State.lean ====
section
/-! DEFINITION. The state of the block as plain data: everything spec/10_state.md gives it, the boundary state of the
peripheral and the host's port, the histories, and the model's own few fields (named as such). -/

namespace Sys2Proof.Machine

/-- A pixel: "three unsigned 8-bit channel values (red, green, blue)" (R21). -/
structure Pixel where
  r : Byte
  g : Byte
  b : Byte
  deriving DecidableEq, Repr

/-- The six values of `SEQ` (R25). -/
inductive Seq where
  | idle
  | encode
  | txFrame
  | txReset
  | settle
  | fault
  deriving DecidableEq, Repr

/-- `FAULT_KIND` (R27, R72). -/
inductive FaultKind where
  | none
  | shortWrite
  | timeout
  deriving DecidableEq, Repr

/-- `FAULT_STAGE` (R27, R72). -/
inductive FaultStage where
  | frame
  | reset
  deriving DecidableEq, Repr

/-- `RESP` (R72). -/
inductive Resp where
  | ok
  | illegalCommand
  | posOutOfRange
  | notInitialised
  | alreadyInitialised
  | faulted
  | transmissionFault
  deriving DecidableEq, Repr

/-- Which buffer a write offers (R33). -/
inductive BufId where
  | frameBuf
  | resetBuf
  deriving DecidableEq, Repr

/-- One entry of `ACCEPT_LOG` (R33). -/
inductive LogEntry where
  | write (which : BufId) (bytes : List Byte) (requested : Nat)
  | clear
  deriving DecidableEq, Repr

/-- One event of `WIRE` (R33). -/
inductive WireEvent where
  | byte (v : Byte)
  | gap
  deriving DecidableEq, Repr

/-- The wire-level faults, class W (R176). -/
inductive WireFault where
  | underrun
  | truncatedByClear
  | staleHold
  deriving DecidableEq, Repr

/-- `HOLD`: the peripheral's holding buffer, oldest byte first (R32). -/
structure Hold where
  pending : List Byte
  dirty : Bool
  deriving DecidableEq, Repr

/-- What a `PeriphWrite` has returned: the written count, and whether it returned because the wait policy gave up
(R151, R108). -/
structure WriteReturn where
  written : Nat
  timedOut : Bool
  deriving DecidableEq, Repr

/-- The outcome of a call of the setter (R132, R135, R136): the two commands are issued, or a validation error
(R173, R174). -/
inductive SetOutcome where
  | issued (pos : Pos) (color : Colour)
  | badPosition
  | badColour
  deriving DecidableEq, Repr

/-- One call of the setter and what is known of its return (R132). -/
structure SetCall where
  outcome : SetOutcome
  /-- How many waiting words the port takes up to the call's UPDATE, that one included; 0 once it is taken. -/
  ahead : Nat
  /-- Which free value its status is, should its refresh fault (U9). -/
  draw : Nat
  /-- The status it has returned, once that no longer follows from `RESP`. -/
  status : Option Nat
  deriving DecidableEq, Repr

/-- A byte memory as cells, addresses strictly rising. An address it does not list has no value. -/
abbrev Memory := List Host.Cell

structure State where
  /-- The instance's parameters (R31), `SYM` among them (R24); no step writes them. -/
  cfg : Params
  /-- `STRIP` (R20). -/
  strip : List Pixel
  /-- `FRAME` (R22): lists the bytes ENCODE has written since the last INIT. -/
  frame : Memory
  /-- `RESETBUF` (R23). -/
  resetBuf : List Byte
  /-- `SEQ` (R25). -/
  seq : Seq
  /-- `INITED` (R26). -/
  inited : Bool
  /-- `FAULT` (R27). -/
  fault : Bool
  /-- `FAULT_KIND` (R27). -/
  faultKind : FaultKind
  /-- `FAULT_STAGE` (R27). -/
  faultStage : FaultStage
  /-- `TXCNT` (R28). -/
  txcnt : Nat
  /-- `TXIDX` (R28). -/
  txidx : Nat
  /-- `TICKCNT` (R29). -/
  tickcnt : Nat
  /-- The second count of ticks, which bounds a write when `TX_TIMEOUT` is finite (R183, R109). -/
  txticks : Nat
  /-- The return of the current `PeriphWrite` that the sequencer has not taken yet (R103, R151). -/
  ret : Option WriteReturn
  /-- `HOLD` (R32). -/
  hold : Hold
  /-- `ACCEPT_LOG` (R33). -/
  acceptLog : List LogEntry
  /-- `WIRE` (R33). -/
  wire : List WireEvent
  /-- `RESP` of the command taken last; `none` before the first, and while its cycle runs (R72, R100). -/
  resp : Option Resp
  /-- The words that wait at the command port, oldest first (R114). -/
  port : List CmdWord
  /-- The model's own: the wire-level faults an observer of the wire has seen (R176). -/
  wireFaults : List WireFault
  /-- The model's own: a frame write has begun with `HOLD` not clear, so the wire content has no meaning until the next
  clear (R159). -/
  staleCycle : Bool
  /-- The model's own: what the symbol table answered last to a stand-alone lookup (R80). -/
  symOut : Byte
  /-- The model's own: the calls of the setter, oldest first (R132). -/
  setter : List SetCall
  /-- The model's own: the environment's next moves where they are known, next first. -/
  sched : List Move
  /-- The model's own: how many free values have been drawn. -/
  draws : Nat
  /-- The model's own: how many times `FRAME` has lost its content. -/
  frameEpoch : Nat
  deriving DecidableEq, Repr

/-- Why the machine stops with a fault. The block's own Transmission fault is no member: the spec gives its entry
(R177), so it is a next state. -/
inductive Fault where
  /-- Raised by the five micro-operations' meanings when `SEQ` and `TICKCNT` do not select that micro-operation:
  "Every transition not listed does not exist" (R113). `step` never raises it. Safe (assumption 10). -/
  | microOpNotSelected
  /-- Raised by ENCODE, TXFRAME, TXRESET, SETPIX and the acceptor when a `MemRead` or `MemWrite` would pass its
  bound: "A call that violates its bound has no meaning" (R54). Unreachable from reset. Safe (assumption 11). -/
  | outOfBounds
  deriving DecidableEq, Repr

/-- Why a step has no meaning. -/
inductive Refusal where
  /-- An instruction that has no meaning yet, by its mnemonic. Raised by `exec`'s rejected arms only. Safe. -/
  | notModelled (mnemonic : String)
  /-- Raised by the host's move SET on a colour string "given no meaning by the spec: a model refuses them"
  (R134, U6). No instruction raises it. Safe (assumption 21). -/
  | unclassifiedColour
  deriving DecidableEq, Repr

/-- The reset state of an instance (R37, R200). `FRAME` lists nothing (unspecified); `HOLD` is unspecified in the
spec and clear here (DESIGN CHOICE, assumption 5); the fields the spec does not name are empty, none or zero
(DESIGN CHOICE, assumptions 6, 7, 8, 12, 14, 16, 17, 18, 21). -/
def State.resetOf (p : Params) : State :=
  { cfg := p
    strip := List.replicate p.n ⟨0, 0, 0⟩
    frame := []
    resetBuf := List.replicate p.resetLen 0
    seq := .idle
    inited := false
    fault := false
    faultKind := .none
    faultStage := .frame
    txcnt := 0
    txidx := 0
    tickcnt := 0
    txticks := 0
    ret := none
    hold := ⟨[], false⟩
    acceptLog := []
    wire := []
    resp := none
    port := []
    wireFaults := []
    staleCycle := false
    symOut := 0
    setter := []
    sched := []
    draws := 0
    frameEpoch := 0 }

/-- The machine right after reset, of the default instance. -/
def State.reset : State := State.resetOf Config.defaultParams

end Sys2Proof.Machine
end

