-- ==== Sys2Proof/Machine/Operands.lean ====
section
/-! DEFINITION. How operands are formed from bits: the 2-bit groups of a channel, the fields of a colour word, the
position, the frame byte address (spec/30_encoding.md R67, R68, R73; spec/20_memory.md R41, R42), and the fixed
constants of spec/00_scope.md R10. -/

namespace Sys2Proof.Machine

/-- `CH_BYTES`: symbol bytes per channel (R10). -/
def chBytes : Nat := 4

/-- `PIXEL_BYTES`: symbol bytes per pixel (R10). -/
def pixelBytes : Nat := 12

/-- `FRAME_LEN = 12 * N` (R10). -/
def frameLen (s : State) : Nat := pixelBytes * s.cfg.n

/-- `RESET_LEN`, Z (R6). -/
def resetLen (s : State) : Nat := s.cfg.resetLen

/-- Group `k` of a channel byte: `(c >> (6 - 2*k)) & 3`, `k = 0` the most significant (R73). -/
def group (c : Byte) (k : Nat) : Group := BitVec.setWidth 2 ((c >>> (6 - 2 * k)) &&& 3)

/-- `color[23:16]` (R67). -/
def colourRed (color : Colour) : Byte := color.extractLsb' 16 8

/-- `color[15:8]` (R67). -/
def colourGreen (color : Colour) : Byte := color.extractLsb' 8 8

/-- `color[7:0]` (R67). -/
def colourBlue (color : Colour) : Byte := color.extractLsb' 0 8

/-- The pixel a colour word writes (R54, R131). -/
def pixelOf (color : Colour) : Pixel := ⟨colourRed color, colourGreen color, colourBlue color⟩

/-- The 24-bit word `{r, g, b}` that reading a pixel returns (R41, R54). -/
def colourOf (p : Pixel) : Colour := p.r ++ p.g ++ p.b

/-- The position field is the `STRIP` index itself, not scaled (R73). -/
def stripIndex (pos : Pos) : Nat := pos.toNat

/-- The channel of slot `j`: 0 green, 1 red, 2 blue (R42, R83). -/
def channelOf (p : Pixel) (j : Nat) : Byte := if j = 0 then p.g else if j = 1 then p.r else p.b

/-- The frame address of pixel `i`, channel slot `j`, group `k` (R42). -/
def frameAddr (i j k : Nat) : Nat := pixelBytes * i + chBytes * j + k

end Sys2Proof.Machine
end

