-- ==== Sys2Proof/Machine/Encoder.lean ====
section
/-! DEFINITION. The encoder as the four nested functions of spec/40_encoder.md (R80 to R83), their inverses (R88),
the wire-bit expansion (R90) and the data-bit view (R91). Pure functions of the symbol table and their argument
(R85). -/

namespace Sys2Proof.Machine

/-- `SymLookup(g) = SYM[g]` (R80). -/
def symLookup (t : SymTable) (g : Group) : Byte :=
  if g = 0 then t.t0 else if g = 1 then t.t1 else if g = 2 then t.t2 else t.t3

/-- `EncodeChannel(c)`: four symbol bytes, most significant group first (R81). -/
def encodeChannel (t : SymTable) (c : Byte) : List Byte :=
  [symLookup t (group c 0), symLookup t (group c 1), symLookup t (group c 2), symLookup t (group c 3)]

/-- `EncodePixel(p)`: green, then red, then blue (R82). -/
def encodePixel (t : SymTable) (p : Pixel) : List Byte :=
  encodeChannel t p.g ++ encodeChannel t p.r ++ encodeChannel t p.b

/-- `EncodeFrame(strip)`: the pixels in ascending order (R83). -/
def encodeFrame (t : SymTable) (strip : List Pixel) : List Byte :=
  strip.flatMap (encodePixel t)

/-- The groups, in order. -/
def allGroups : List Group := [0, 1, 2, 3]

/-- `DecodeSymbol(s)`: "the unique g with SYM[g] = s, or invalid if there is none" (R88). -/
def decodeSymbol (t : SymTable) (s : Byte) : Option Group :=
  match allGroups.filter (fun g => symLookup t g == s) with
  | [g] => some g
  | _ => none

/-- Four groups reassembled, the first the most significant (R88). -/
def joinGroups (g0 g1 g2 g3 : Group) : Byte :=
  (BitVec.setWidth 8 g0 <<< 6) ||| (BitVec.setWidth 8 g1 <<< 4) ||| (BitVec.setWidth 8 g2 <<< 2) ||| BitVec.setWidth 8 g3

/-- `DecodeChannel`: invalid if any symbol is (R88). -/
def decodeChannel (t : SymTable) : List Byte → Option Byte
  | [s0, s1, s2, s3] =>
    match decodeSymbol t s0, decodeSymbol t s1, decodeSymbol t s2, decodeSymbol t s3 with
    | some g0, some g1, some g2, some g3 => some (joinGroups g0 g1 g2 g3)
    | _, _, _, _ => none
  | _ => none

/-- `DecodePixel` of twelve bytes (R88). -/
def decodePixel (t : SymTable) (bs : List Byte) : Option Pixel :=
  match decodeChannel t (bs.take 4), decodeChannel t ((bs.drop 4).take 4), decodeChannel t (bs.drop 8) with
  | some g, some r, some b => some ⟨r, g, b⟩
  | _, _, _ => none

/-- `DecodeFrame` of the frame of `n` pixels (R88). -/
def decodeFrame (t : SymTable) : Nat → List Byte → Option (List Pixel)
  | 0, bs => if bs = [] then some [] else none
  | n + 1, bs =>
    match decodePixel t (bs.take 12), decodeFrame t n (bs.drop 12) with
    | some p, some ps => some (p :: ps)
    | _, _ => none

/-- A byte's bits, most significant first (R90). -/
def byteBits (v : Byte) : List Bool :=
  [v.getLsbD 7, v.getLsbD 6, v.getLsbD 5, v.getLsbD 4, v.getLsbD 3, v.getLsbD 2, v.getLsbD 1, v.getLsbD 0]

/-- `WireBits(bytes)`: bytes in ascending index, each most significant bit first (R90). -/
def wireBits (bs : List Byte) : List Bool := bs.flatMap byteBits

/-- The data bits of a strip in the order of a frame: each pixel's green, red, blue, each bit 7 down to 0 (R91). -/
def dataBits (strip : List Pixel) : List Bool :=
  strip.flatMap fun p => byteBits p.g ++ byteBits p.r ++ byteBits p.b

end Sys2Proof.Machine
end

