-- ==== Sys2Proof/Machine/Flags.lean ====
section
/-! DEFINITION. The flags and views of the control state: the codes of spec/30_encoding.md R71 and R72, READY and the
status word of spec/10_state.md R30, the selector `USEL4`, the busy condition of spec/41_transmitter.md R114, and the
kind and check of a written count (R108). The encoder computes no flag (R27). -/

namespace Sys2Proof.Machine

/-- `SEQ3`, the code of the sequencer state (R71). Codes 5 and 6 are never produced. -/
def seqCode : Seq → BitVec 3
  | .idle => 0
  | .encode => 1
  | .txFrame => 2
  | .txReset => 3
  | .settle => 4
  | .fault => 7

/-- The code of `FAULT_KIND` (R72). Code 3 is never produced. -/
def faultKindCode : FaultKind → BitVec 2
  | .none => 0
  | .shortWrite => 1
  | .timeout => 2

/-- The code of `FAULT_STAGE` (R72). -/
def faultStageCode : FaultStage → BitVec 1
  | .frame => 0
  | .reset => 1

/-- The code of `RESP` (R72). Code 7 is never produced. -/
def respCode : Resp → BitVec 3
  | .ok => 0
  | .illegalCommand => 1
  | .posOutOfRange => 2
  | .notInitialised => 3
  | .alreadyInitialised => 4
  | .faulted => 5
  | .transmissionFault => 6

/-- `tz` is 1 exactly when `TICKCNT = 0` (R71). -/
def tickZero (s : State) : Bool := decide (s.tickcnt = 0)

/-- `USEL4`: `usel[3:1] = SEQ[2:0]`, `usel[0] = tz`, "a view of existing state, not a register" (R71). -/
def usel (s : State) : Usel := seqCode s.seq ++ BitVec.ofBool (tickZero s)

/-- `READY`: "1 exactly when SEQ = IDLE and FAULT = 0" (R30). -/
def ready (s : State) : Bool := decide (s.seq = .idle) && !s.fault

/-- `STATUS` (R30): SEQ in bits 2:0, INITED 3, FAULT 4, FAULT_KIND 6:5, FAULT_STAGE 7, READY 8, the rest zero. -/
def statusWord (s : State) : BitVec 16 :=
  (0 : BitVec 7) ++ BitVec.ofBool (ready s) ++ faultStageCode s.faultStage ++ faultKindCode s.faultKind
    ++ BitVec.ofBool s.fault ++ BitVec.ofBool s.inited ++ seqCode s.seq

/-- A cycle is in progress, so a presented command is held (R114). -/
def busy (s : State) : Bool :=
  match s.seq with
  | .idle => false
  | .encode => true
  | .txFrame => true
  | .txReset => true
  | .settle => true
  | .fault => false

/-- A command taken now is refused with `Faulted`: "any command with FAULT = 1", "presented while SEQ = FAULT"
(R175, R114). -/
def refusesFaulted (s : State) : Bool := s.fault || decide (s.seq = .fault)

/-- `HOLD` is clear (R32). -/
def holdClear (s : State) : Bool := s.hold.pending.isEmpty && !s.hold.dirty

/-- "The fault's kind is Timeout if the write returned because TX_TIMEOUT elapsed and ShortWrite otherwise" (R108). -/
def returnKind (r : WriteReturn) : FaultKind := if r.timedOut then .timeout else .shortWrite

/-- `TX_TIMEOUT` is finite and that many ticks have passed since the write began (R151). -/
def timeoutElapsed (s : State) : Bool :=
  match s.cfg.txTimeout with
  | none => false
  | some t => decide (t ≤ s.txticks)

/-- What the response to its UPDATE makes SET return (R132): a free value other than 0 after a Transmission fault (U9,
assumption 22), 0 after any other response, as the pseudocode's last line says; nothing while there is none. -/
def updateStatus (draw : Nat) : Option Resp → Option Nat
  | none => none
  | some r => if r = .transmissionFault then some (Config.freeSetStatus draw + 1) else some 0

/-- The status a call of the setter has returned, seen in a state: `none` until it has returned (R132). -/
def setStatus (c : SetCall) (s : State) : Option Nat :=
  match c.status with
  | some v => some v
  | none => if c.ahead = 0 then updateStatus c.draw s.resp else none

/-- What taking a word does to a call: one word fewer is ahead, or, when its own are all taken, the status it has
returned is kept, since `RESP` is about to change. -/
def wordTaken (s : State) (c : SetCall) : SetCall :=
  if c.ahead = 0 then { c with status := setStatus c s } else { c with ahead := c.ahead - 1 }

end Sys2Proof.Machine
end

