-- ==== Sys2Proof/Machine/Ops.lean ====
section
/-! DEFINITION. The named operations every meaning is built from: the byte memory and the memory primitives of
spec/20_memory.md R54, the command port (spec/41_transmitter.md R114, spec/60_exceptions.md R175), how a frame write
begins (R103, spec/43_peripheral_and_wire.md R159) and the block's side of a blocking write (R103, R104, R107, R108),
`PeriphClear` (R154), the fault entry (spec/60_exceptions.md R177) and the reset event, the only way out of it (R178, R200). -/

namespace Sys2Proof.Machine

/-- The result of a meaning. -/
abbrev Out := Host.Outcome State Fault Refusal

/-! ### The byte memory -/

/-- The byte an address lists, if any. -/
def Memory.byteAt : Memory → Nat → Option Byte
  | [], _ => none
  | c :: m, a => if a = c.1 then some c.2 else Memory.byteAt m a

/-- One byte written, the addresses kept strictly rising. -/
def Memory.write : Memory → Nat → Byte → Memory
  | [], a, v => [(a, v)]
  | c :: m, a, v =>
    if a < c.1 then (a, v) :: c :: m
    else if a = c.1 then (a, v) :: m
    else c :: Memory.write m a v

/-- Bytes written at ascending addresses. -/
def Memory.writeBytes : Memory → Nat → List Byte → Memory
  | m, _, [] => m
  | m, a, v :: vs => Memory.writeBytes (Memory.write m a v) (a + 1) vs

/-- The canonical form: addresses strictly rising. An unlisted address has no value, which no entry can equal. -/
abbrev Memory.wf (m : Memory) : Prop := m.Pairwise (fun c d => c.1 < d.1)

/-- What byte `a` of `FRAME` reads as: the byte ENCODE wrote, or any value (R22, U10, assumption 4). -/
def frameByte (s : State) (a : Nat) : Byte :=
  (Memory.byteAt s.frame a).getD (Config.freeFrameByte s.frameEpoch a)

/-- `MemRead(FRAME, a, n)`, its bound apart (R54). -/
def readFrame (s : State) (a n : Nat) : List Byte := (List.range' a n).map (frameByte s)

/-- `MemRead(RESETBUF, a, n)`, its bound apart (R54). -/
def readResetBuf (s : State) (a n : Nat) : List Byte := (s.resetBuf.drop a).take n

/-- `MemWrite(FRAME, a, len, v)`; outside its bound it has no meaning (R54). -/
def memWriteFrame (a : Nat) (v : List Byte) (s : State) : Option State :=
  if a + v.length ≤ frameLen s then some { s with frame := Memory.writeBytes s.frame a v } else none

/-- `MemWrite(STRIP, pos, 1, color)`; outside its bound it has no meaning (R54). -/
def memWriteStrip (pos : Nat) (color : Colour) (s : State) : Option State :=
  if pos < s.strip.length then some { s with strip := s.strip.set pos (pixelOf color) } else none

/-- `MemRead(STRIP, pos, 1)`: the word `{r, g, b}` (R54). -/
def memReadStrip (s : State) (pos : Nat) : Option Colour := (s.strip[pos]?).map colourOf

/-! ### The command port -/

/-- A command completes with a response. -/
def respond (r : Resp) (s : State) : State := { s with resp := some r }

/-- A command presented during a cycle is held: its word waits at the front of the port (R114). -/
def holdWord (w : CmdWord) (s : State) : State := { s with port := w :: s.port }

/-- The port takes its oldest word, `rest` being those behind it. Outside a cycle the calls of the setter note that
one more word is taken (assumption 22). -/
def takeWord (rest : List CmdWord) (s : State) : State :=
  { s with port := rest, setter := if busy s then s.setter else s.setter.map (wordTaken s) }

/-- What every command goes through first: held during a cycle, refused with `Faulted` after a fault, else `k`
(R114, R175; the order of the checks is R179's). -/
def commandGate (w : CmdWord) (k : State → Out) (s : State) : Out :=
  if busy s then .next (holdWord w s)
  else if refusesFaulted s then .next (respond .faulted s)
  else k s

/-- A reserved word, taken from the port, is refused with `IllegalCommand` (R70, R175). -/
def refuseIllegal (w : CmdWord) (s : State) : Out :=
  commandGate w (fun s => .next (respond .illegalCommand s)) s

/-! ### Faults and reset -/

/-- The fault entry, "the block's only trap-like mechanism" (R177). "There is no vector, no handler address, no
saved state and no mode change." The pending UPDATE completes with `TransmissionFault`. -/
def faultEntry (kind : FaultKind) (stage : FaultStage) (s : State) : State :=
  { s with fault := true, faultKind := kind, faultStage := stage, seq := .fault, resp := some .transmissionFault }

/-- The reset event: "the only event that can leave the FAULT state" (R178, R200). Every element gets its reset
value. What is not the block's stays: the environment's schedule, and the counters of the free values, which move
on (assumption 24). -/
def resetEvent (s : State) : State :=
  { State.resetOf s.cfg with sched := s.sched, draws := s.draws + 1, frameEpoch := s.frameEpoch + 1 }

/-! ### The peripheral as the block uses it -/

/-- `PeriphClear()` (R154). Bytes still pending are discarded, which an observer of the wire sees as
`TruncatedByClear` (R176). -/
def periphClear (s : State) : State :=
  { s with
    hold := ⟨[], false⟩
    staleCycle := false
    wireFaults := if s.hold.pending = [] then s.wireFaults else s.wireFaults ++ [.truncatedByClear] }

/-- A frame write begins: `SEQ` enters `TX_FRAME` (R103; assumption 15). If it begins with `HOLD` not clear, that is the
fault `StaleHold`, and what the wire carries in this cycle is any value (R159, R176, U7). -/
def beginFrameWrite (s : State) : State :=
  { s with
    seq := .txFrame
    staleCycle := s.staleCycle || !holdClear s
    wireFaults := if holdClear s then s.wireFaults else s.wireFaults ++ [.staleHold] }

/-- The sequencer takes the written count: `TXCNT <- w`, and the log gets the write's entry (R103, R104). -/
def takeReturn (which : BufId) (bytes : List Byte) (requested : Nat) (r : WriteReturn) (s : State) : State :=
  { s with
    txcnt := r.written
    ret := none
    acceptLog := s.acceptLog ++ [.write which bytes requested] }

/-- The block's side of a blocking write (R103, R104). While the write has not returned "the sequencer has no enabled
step" (R107): nothing changes. When it has, the count is taken and checked (R108): a full count goes on with
`done`, a short one raises the Transmission fault. A count above the request would read the buffer past its bound
(R54, R155). -/
def blockingWrite (which : BufId) (stage : FaultStage) (requested : Nat) (bytesOf : Nat → List Byte)
    (done : State → State) (s : State) : Out :=
  match s.ret with
  | none => .next s
  | some r =>
    if r.written = requested then .next (done (takeReturn which (bytesOf r.written) requested r s))
    else if r.written < requested then
      .next (faultEntry (returnKind r) stage (takeReturn which (bytesOf r.written) requested r s))
    else .fault .outOfBounds

/-- A stand-alone lookup: the symbol table answers `SYM[g]` (R80, assumption 18). -/
def answerLookup (g : Group) (s : State) : State := { s with symOut := symLookup s.cfg.sym g }

end Sys2Proof.Machine
end

