-- ==== Sys2Proof/Machine/Commands.lean ====
section
/-! DEFINITION. The host's commands INIT and SETPIX (spec/42_host_commands.md R130, R131) and UPDATE
(spec/41_transmitter.md R100). -/

namespace Sys2Proof.Machine

/-- The command word of an instruction that is a command (R69). -/
def commandWord : Instr → CmdWord
  | .init => cmdWordOf 0x01 0 0
  | .setpix pos color => cmdWordOf 0x02 pos color
  | .update => cmdWordOf 0x03 0 0
  | .encode => 0
  | .txframe => 0
  | .txreset => 0
  | .settle => 0
  | .clear => 0
  | .sym0 => 0
  | .sym1 => 0
  | .sym2 => 0
  | .sym3 => 0

/-- What an accepted INIT does: `FRAME` is unspecified again, `RESETBUF` is zero, `HOLD` is clear, `INITED` is 1
(R130). -/
def initialise (s : State) : State :=
  { s with
    frame := []
    frameEpoch := s.frameEpoch + 1
    resetBuf := List.replicate s.cfg.resetLen 0
    hold := ⟨[], false⟩
    staleCycle := false
    inited := true }

/-- `INIT` (R130). -/
def execInit (s : State) : Out :=
  commandGate (commandWord .init) (fun s =>
    if s.inited then .next (respond .alreadyInitialised s)
    else .next (respond .ok (initialise s))) s

/-- `SETPIX pos, color` (R131). -/
def execSetpix (pos : Pos) (color : Colour) (s : State) : Out :=
  commandGate (commandWord (.setpix pos color)) (fun s =>
    if s.cfg.n ≤ stripIndex pos then .next (respond .posOutOfRange s)
    else
      match memWriteStrip (stripIndex pos) color s with
      | some t => .next (respond .ok t)
      | none => .fault .outOfBounds) s

/-- `UPDATE` (R100): the cycle starts; the response is given when it ends (assumption 8). -/
def execUpdate (s : State) : Out :=
  commandGate (commandWord .update) (fun s =>
    if s.inited then .next { s with seq := .encode, resp := none }
    else .next (respond .notInitialised s)) s

end Sys2Proof.Machine
end

