-- ==== Sys2Proof/Machine/Symbols.lean ====
section
/-! DEFINITION. The four rows of the symbol table as stand-alone lookups (spec/40_encoder.md R80, spec/30_encoding.md
R61). ENCODE uses the same function. -/

namespace Sys2Proof.Machine

/-- `SYM0`: `SymLookup(0)` (R80). -/
def execSym0 (s : State) : Out := .next (answerLookup 0 s)

/-- `SYM1`: `SymLookup(1)` (R80). -/
def execSym1 (s : State) : Out := .next (answerLookup 1 s)

/-- `SYM2`: `SymLookup(2)` (R80). -/
def execSym2 (s : State) : Out := .next (answerLookup 2 s)

/-- `SYM3`: `SymLookup(3)` (R80). -/
def execSym3 (s : State) : Out := .next (answerLookup 3 s)

end Sys2Proof.Machine
end

