-- ==== Sys2Proof/Machine/Transmitter.lean ====
section
/-! DEFINITION. The five micro-operations of a refresh cycle (spec/41_transmitter.md R102 to R106), each under its
precondition on `SEQ` and `TICKCNT`; where it does not hold no such transition exists (R113). -/

namespace Sys2Proof.Machine

/-- `ENCODE` (R102): `MemWrite(FRAME, 0, 12*N, EncodeFrame(STRIP))`, and the frame write begins. `EncodeFrame` "is
defined only for a sequence of length exactly N" (R83). -/
def execEncode (s : State) : Out :=
  if s.seq = .encode then
    if s.strip.length = s.cfg.n then
      match memWriteFrame 0 (encodeFrame s.cfg.sym s.strip) s with
      | some t => .next (beginFrameWrite t)
      | none => .fault .outOfBounds
    else .fault .outOfBounds
  else .fault .microOpNotSelected

/-- `TXFRAME` (R103). -/
def execTxframe (s : State) : Out :=
  if s.seq = .txFrame then
    blockingWrite .frameBuf .frame (frameLen s) (readFrame s 0) (fun t => { t with seq := .txReset }) s
  else .fault .microOpNotSelected

/-- `TXRESET` (R104). -/
def execTxreset (s : State) : Out :=
  if s.seq = .txReset then
    blockingWrite .resetBuf .reset (resetLen s) (readResetBuf s 0)
      (fun t => { t with tickcnt := t.cfg.settleTicks, seq := .settle }) s
  else .fault .microOpNotSelected

/-- `SETTLE` (R105): on a tick, while `TICKCNT > 0`. -/
def execSettle (s : State) : Out :=
  if s.seq = .settle ∧ 0 < s.tickcnt then .next { s with tickcnt := s.tickcnt - 1 }
  else .fault .microOpNotSelected

/-- `CLEAR` (R106): the cycle ends and UPDATE completes with OK. -/
def execClear (s : State) : Out :=
  if s.seq = .settle ∧ s.tickcnt = 0 then
    let t := periphClear s
    .next (respond .ok { t with acceptLog := t.acceptLog ++ [.clear], seq := .idle })
  else .fault .microOpNotSelected

end Sys2Proof.Machine
end

