-- ==== Sys2Proof/Machine/Dispatch.lean ====
section
/-! DEFINITION. One arm for each row of the opcode table. -/

namespace Sys2Proof.Machine

def exec (i : Instr) (s : State) : Host.Outcome State Fault Refusal :=
  match i with
  -- the host's commands
  | .init => Sys2Proof.Machine.execInit s
  | .setpix pos color => Sys2Proof.Machine.execSetpix pos color s
  | .update => Sys2Proof.Machine.execUpdate s
  -- the sequencer's micro-operations
  | .encode => Sys2Proof.Machine.execEncode s
  | .txframe => Sys2Proof.Machine.execTxframe s
  | .txreset => Sys2Proof.Machine.execTxreset s
  | .settle => Sys2Proof.Machine.execSettle s
  | .clear => Sys2Proof.Machine.execClear s
  -- the symbol table
  | .sym0 => Sys2Proof.Machine.execSym0 s
  | .sym1 => Sys2Proof.Machine.execSym1 s
  | .sym2 => Sys2Proof.Machine.execSym2 s
  | .sym3 => Sys2Proof.Machine.execSym3 s

end Sys2Proof.Machine
end

