-- ==== Sys2Proof/Machine/Peripheral.lean ====
section
/-! DEFINITION. The serial peripheral's own steps (spec/43_peripheral_and_wire.md R151 to R153, R155) and the tick
that counts for a write's bound (spec/41_transmitter.md R109, spec/60_exceptions.md R183). A step that is not
enabled leaves the state as it is. -/

namespace Sys2Proof.Machine

/-- The write in progress: which buffer, and the requested length. A write is in progress from the moment `SEQ`
enters `TX_FRAME` or `TX_RESET` until it returns (assumption 15). -/
def currentWrite (s : State) : Option (BufId × Nat) :=
  match s.ret with
  | some _ => none
  | none =>
    match s.seq with
    | .txFrame => some (.frameBuf, frameLen s)
    | .txReset => some (.resetBuf, resetLen s)
    | .idle => none
    | .encode => none
    | .settle => none
    | .fault => none

/-- `buf[i]` of a buffer, where the buffer has it. -/
def offeredByte (s : State) (which : BufId) (i : Nat) : Option Byte :=
  match which with
  | .frameBuf => some (frameByte s i)
  | .resetBuf => s.resetBuf[i]?

/-- The acceptor takes one byte (R151): it joins `HOLD.pending` at the end, `HOLD` is dirty, and `TXIDX` steps on. -/
def acceptByte (v : Byte) (s : State) : State :=
  { s with hold := ⟨s.hold.pending ++ [v], true⟩, txidx := s.txidx + 1 }

/-- `accept` (R151): "enabled when a write (buf, n) is in progress, TXIDX < n and len(HOLD.pending) < HOLD_CAP"; and not
after `TX_TIMEOUT` ticks, when the write returns with what is accepted so far (R109; assumption 14). -/
def periphAccept (s : State) : Out :=
  match currentWrite s with
  | none => .next s
  | some (which, n) =>
    if s.txidx < n ∧ s.hold.pending.length < s.cfg.holdCap ∧ timeoutElapsed s = false then
      match offeredByte s which s.txidx with
      | some v => .next (acceptByte v s)
      | none => .fault .outOfBounds
    else .next s

/-- A write returns: `TXIDX <- 0`, and its bound's count of ticks starts again (R151, R183). -/
def returnWrite (r : WriteReturn) (s : State) : State :=
  { s with ret := some r, txidx := 0, txticks := 0 }

/-- `complete` (R151): "enabled when TXIDX = n: return written = n". -/
def periphComplete (s : State) : State :=
  match currentWrite s with
  | none => s
  | some (_, n) => if s.txidx = n then returnWrite ⟨n, false⟩ s else s

/-- `give up` (R151, R109): "enabled only when TX_TIMEOUT is finite and TX_TIMEOUT ticks have passed since the write
began". -/
def periphGiveUp (s : State) : State :=
  match currentWrite s with
  | none => s
  | some (_, n) => if s.txidx < n ∧ timeoutElapsed s = true then returnWrite ⟨s.txidx, true⟩ s else s

/-- A write that returns short though no time ran out, as that of a missized peripheral does (R155, R171): "A model
must take written as a draw in 0 to n" (assumption 13). Once `TX_TIMEOUT` has elapsed the return is the give-up's
(R109). -/
def periphCutShort (s : State) : State :=
  match currentWrite s with
  | none => s
  | some (_, n) => if s.txidx < n ∧ timeoutElapsed s = false then returnWrite ⟨s.txidx, false⟩ s else s

/-- Whether a byte that is sent now belongs to a cycle whose wire content is any value (R159, U7): its frame write has
begun with `HOLD` not clear, or, while it has not begun, there is still a byte in `HOLD` to send (assumption 17). -/
def showsAnyByte (s : State) : Bool := s.staleCycle || decide (s.seq = .encode)

/-- What the shifter puts on the wire for a byte. -/
def shiftedByte (s : State) (v : Byte) : Byte := if showsAnyByte s then Config.freeWireByte s.draws else v

/-- `shift` (R152): the oldest pending byte goes to the wire. -/
def periphShift (s : State) : State :=
  match s.hold.pending with
  | [] => s
  | v :: rest =>
    { s with
      hold := ⟨rest, s.hold.dirty⟩
      wire := s.wire ++ [.byte (shiftedByte s v)]
      draws := if showsAnyByte s then s.draws + 1 else s.draws }

/-- The last event of the wire is a byte (R153). -/
def lastIsByte : List WireEvent → Bool
  | [] => false
  | [.byte _] => true
  | [.gap] => false
  | _ :: e :: es => lastIsByte (e :: es)

/-- A gap that falls between two bytes of the frame being written (R156, assumption 16). -/
def gapUnderruns (s : State) : Bool :=
  decide (s.seq = .txFrame) && s.ret.isNone && decide (0 < s.txidx) && decide (s.txidx < frameLen s)

/-- `idle` (R153): "enabled when HOLD.pending is empty and the last event of WIRE is a Byte". A gap inside a frame is
the fault `Underrun` (R156, R176). -/
def periphIdle (s : State) : State :=
  if s.hold.pending = [] ∧ lastIsByte s.wire = true then
    { s with
      wire := s.wire ++ [.gap]
      wireFaults := if gapUnderruns s then s.wireFaults ++ [.underrun] else s.wireFaults }
  else s

/-- A tick counts for the bound of the write in progress, up to that bound (R109, R183; assumption 14). -/
def countWriteTick (s : State) : State :=
  match currentWrite s, s.cfg.txTimeout with
  | some _, some t => { s with txticks := if s.txticks < t then s.txticks + 1 else s.txticks }
  | some _, none => s
  | none, _ => s

end Sys2Proof.Machine
end

