-- ==== Sys2Proof/Machine/Setter.lean ====
section
/-! DEFINITION. The command-style setter, the collaborator outside the block (spec/42_host_commands.md R132 to R137):
its two checks, and the pseudo-instruction SET as a move of the host. -/

namespace Sys2Proof.Machine

/-- `PosValid(pos)`: exactly `0 <= pos < N` (R133). -/
def posValid (n : Nat) (pos : Int) : Bool := decide (0 ≤ pos) && decide (pos < (n : Int))

/-- The value of a hexadecimal digit of either case (R134). -/
def hexDigit (c : Char) : Option Nat :=
  if '0' ≤ c ∧ c ≤ '9' then some (c.toNat - 48)
  else if 'a' ≤ c ∧ c ≤ 'f' then some (c.toNat - 87)
  else if 'A' ≤ c ∧ c ≤ 'F' then some (c.toNat - 55)
  else none

/-- What `ParseColor` says of a string: a value, `reject`, or no meaning (R134). -/
inductive ColourParse where
  | value (color : Colour)
  | reject
  | noMeaning
  deriving DecidableEq, Repr

/-- The number a string of hex digits spells, most significant digit first; `none` if another character occurs. -/
def hexValue : Nat → List Char → Option Nat
  | acc, [] => some acc
  | acc, c :: cs =>
    match hexDigit c with
    | some d => hexValue (16 * acc + d) cs
    | none => none

/-- The beginnings the source does not settle: a sign, white space, a `0x` prefix (R134, U6). The prefix is the one R134
names: in "0Xff" the `X` is a character after the leading hex digit, and the string is rejected. The spec lists no white
space: DESIGN CHOICE (assumption 21), it is what `Char.isWhitespace` holds of. -/
def unsettledStart : List Char → Bool
  | [] => true
  | '+' :: _ => true
  | '-' :: _ => true
  | '0' :: 'x' :: _ => true
  | c :: _ => c.isWhitespace

/-- `ParseColor(hex)` (R134): one to six hex digits are accepted; a string with any other character is rejected; the
empty string, more than six digits and the unsettled beginnings have no meaning (assumption 21). -/
def parseColour (hex : List Char) : ColourParse :=
  if unsettledStart hex then .noMeaning
  else
    match hexValue 0 hex with
    | some v => if hex.length ≤ 6 then .value (BitVec.ofNat 24 v) else .noMeaning
    | none => .reject

/-- The validation of SET (R132): the position first, an omitted position being 0 (R137). `none` where the colour
string has no meaning. -/
def setOutcome (n : Nat) (pos : Option Int) (hex : List Char) : Option SetOutcome :=
  if posValid n (pos.getD 0) then
    match parseColour hex with
    | .value color => some (.issued (BitVec.ofNat 16 (pos.getD 0).toNat) color)
    | .reject => some .badColour
    | .noMeaning => none
  else some .badPosition

/-- The words a call of the setter issues (R132, R135, R136): SETPIX then one UPDATE, or nothing. -/
def setWords : SetOutcome → List CmdWord
  | .issued pos color => [commandWord (.setpix pos color), commandWord .update]
  | .badPosition => []
  | .badColour => []

/-- A call as it is recorded: after a validation error it has returned 1 (R135); else its UPDATE is the second word
behind those that wait already. -/
def setCall (o : SetOutcome) (s : State) : SetCall :=
  match o with
  | .issued _ _ => ⟨o, s.port.length + 2, s.draws, none⟩
  | .badPosition => ⟨o, 0, s.draws, some 1⟩
  | .badColour => ⟨o, 0, s.draws, some 1⟩

/-- Whether a call may need a free value for its status. -/
def setDraws : SetOutcome → Nat
  | .issued _ _ => 1
  | .badPosition => 0
  | .badColour => 0

/-- The call is recorded and its words wait at the command port. -/
def recordCall (o : SetOutcome) (s : State) : State :=
  { s with port := s.port ++ setWords o, setter := s.setter ++ [setCall o s], draws := s.draws + setDraws o }

/-- The call as a move of the host. -/
def callSetter (pos : Option Int) (hex : List Char) (s : State) : Out :=
  match setOutcome s.cfg.n pos hex with
  | some o => .next (recordCall o s)
  | none => .refused .unclassifiedColour

end Sys2Proof.Machine
end

