-- ==== Sys2Proof/Machine/Agents.lean ====
section
/-! DEFINITION. Which agent moves next and what its move does (spec/00_scope.md R12): the command port and the
sequencer fetch, decode and run an instruction; the peripheral, the tick source and the host make their own steps. -/

namespace Sys2Proof.Machine

/-- The next move: the first of the schedule, or a free value where the schedule is empty (assumption 6). -/
def nextMove (s : State) : Move :=
  match s.sched with
  | m :: _ => m
  | [] => Config.freeMove s.draws

/-- The state in which that move is made: the move is taken from the schedule, or counted as drawn. -/
def afterMove (s : State) : State :=
  match s.sched with
  | _ :: rest => { s with sched := rest }
  | [] => { s with draws := s.draws + 1 }

/-- The command port takes the oldest waiting word and runs what it decodes to (R114); a reserved word is refused
(R70). -/
def takeCommand (s : State) : Out :=
  match s.port with
  | [] => .next s
  | w :: rest =>
    match decodeCmd48 w with
    | .ok i => exec i (takeWord rest s)
    | .error _ => refuseIllegal w (takeWord rest s)

/-- The sequencer runs the micro-operation `USEL4` selects (R71). SETTLE executes on ticks only (R105); where nothing
is selected the sequencer has no step. -/
def sequencerStep (s : State) : Out :=
  match decodeUsel4 (usel s) with
  | .ok i => if i = .settle then .next s else exec i s
  | .error _ => .next s

/-- A tick (R105, R109): SETTLE executes where it is selected; else the tick counts for a write in progress. -/
def tickStep (s : State) : Out :=
  match decodeUsel4 (usel s) with
  | .ok i => if i = .settle then exec i s else .next (countWriteTick s)
  | .error _ => .next (countWriteTick s)

/-- What a move does. -/
def runMove (m : Move) (s : State) : Out :=
  match m with
  | .present w => .next { s with port := s.port ++ [w] }
  | .set pos hex => callSetter pos hex s
  | .sample => .next s
  | .reset => .next (resetEvent s)
  | .command => takeCommand s
  | .sequence => sequencerStep s
  | .tick => tickStep s
  | .accept => periphAccept s
  | .complete => .next (periphComplete s)
  | .giveUp => .next (periphGiveUp s)
  | .cutShort => .next (periphCutShort s)
  | .shift => .next (periphShift s)
  | .idle => .next (periphIdle s)
  | .lookup g => exec (decodeLut2 g) s

/-- A command word stands where the port takes its next word, and the port moves next (assumption 20). -/
def placeCommand (w : CmdWord) (s : State) : State :=
  { s with port := w :: s.port, sched := .command :: s.sched, seq := if busy s then .idle else s.seq }

/-- `SEQ` selects a micro-operation, or the table is asked for a group, and that agent moves next (assumption 20). -/
def placeInstr (i : Instr) (s : State) : State :=
  match i with
  | .init => placeCommand (commandWord .init) s
  | .setpix pos color => placeCommand (commandWord (.setpix pos color)) s
  | .update => placeCommand (commandWord .update) s
  | .encode => { s with seq := .encode, sched := .sequence :: s.sched }
  | .txframe => { s with seq := .txFrame, sched := .sequence :: s.sched }
  | .txreset => { s with seq := .txReset, sched := .sequence :: s.sched }
  | .settle =>
    { s with seq := .settle, tickcnt := if s.tickcnt = 0 then 1 else s.tickcnt, sched := .tick :: s.sched }
  | .clear => { s with seq := .settle, tickcnt := 0, sched := .sequence :: s.sched }
  | .sym0 => { s with sched := .lookup 0 :: s.sched }
  | .sym1 => { s with sched := .lookup 1 :: s.sched }
  | .sym2 => { s with sched := .lookup 2 :: s.sched }
  | .sym3 => { s with sched := .lookup 3 :: s.sched }

/-- The word of an opcode-table row, numbered as the table numbers it, stands where `step` reads its next
instruction. -/
def placeTableWord (nbits w : Nat) (s : State) : State :=
  if nbits = 48 then placeCommand (BitVec.ofNat 48 w) s
  else
    match decodeTableWord nbits w with
    | some i => placeInstr i s
    | none => s

end Sys2Proof.Machine
end

