-- ==== Sys2Proof/Safety.lean ====
section
/-! DEFINITION. What counts as a good state and a good run, in the terms the claims use: the named start states, the
end of a run and the premises of spec/70_reset_and_hazards.md R213 and R214, the invariant of the whole machine, and
what a cycle has logged and put on the wire so far (spec/41_transmitter.md R111, R115,
spec/43_peripheral_and_wire.md R156, R160). -/

namespace Sys2Proof.Machine

/-- *clean idle state* (R214). -/
def cleanIdle (s : State) : Prop :=
  s.seq = .idle ∧ s.inited = true ∧ s.fault = false ∧ s.tickcnt = 0 ∧ s.txidx = 0 ∧ holdClear s = true

/-- The host's moves that issue a command: a command word, or a call of the setter, which issues two (R140, R132). -/
def hostCommand : Move → Bool
  | .present _ => true
  | .set _ _ => true
  | .sample => false
  | .reset => false
  | .command => false
  | .sequence => false
  | .tick => false
  | .accept => false
  | .complete => false
  | .giveUp => false
  | .cutShort => false
  | .shift => false
  | .idle => false
  | .lookup _ => false

/-- "The host has no further command" (R213): none waits at the port, none is among its known moves, and none among the
moves still to be drawn. DEDUCED (assumption 34). -/
def noFurtherCommand (s : State) : Prop :=
  s.port = [] ∧ (∀ m ∈ s.sched, hostCommand m = false) ∧ ∀ k, s.draws ≤ k → hostCommand (Config.freeMove k) = false

/-- The end of a run (R213): no further command, `SEQ = IDLE`, no write in progress, nothing pending, no fault. -/
def goodEnd (s : State) : Prop :=
  noFurtherCommand s ∧ s.seq = .idle ∧ currentWrite s = none ∧ s.tickcnt = 0 ∧ s.hold.pending = [] ∧ s.fault = false

/-- The reset values of spec/10_state.md R37 and the status word of R30 that goes with them; `FRAME` and `HOLD` are
unspecified there. -/
def atReset (p : Params) (t : State) : Prop :=
  t.cfg = p ∧ t.strip = List.replicate p.n ⟨0, 0, 0⟩ ∧ t.resetBuf = List.replicate p.resetLen 0 ∧
  t.seq = .idle ∧ t.inited = false ∧ t.fault = false ∧ t.faultKind = .none ∧ t.faultStage = .frame ∧
  t.txcnt = 0 ∧ t.txidx = 0 ∧ t.tickcnt = 0 ∧ statusWord t = 0x0100 ∧ t.acceptLog = [] ∧ t.wire = []

/-- The moves of a peripheral that never returns a write short, which is what the safety statements use of *P1*
(R155): it cuts no write short, and it can give up under `TX_TIMEOUT = INF` only, where that has no effect. -/
def fullWriteMove (p : Params) (m : Move) : Prop := m ≠ .cutShort ∧ (m = .giveUp → p.txTimeout = none)

/-- A run that makes exactly these moves. -/
inductive Moves : List Move → State → State → Prop where
  | none (s : State) : Moves [] s s
  | more (s t u : State) (ms : List Move) : step s = .next t → Moves ms t u → Moves (nextMove s :: ms) s u

/-- The peripheral is live for a write of `k` bytes: the moves hold `k` rounds in which the shifter and after it the
acceptor moves, and after them a completion. "Its shifter eventually runs" (R155), for a run that ends. -/
def liveFor : Nat → List Move → Prop
  | 0, ms => .complete ∈ ms
  | k + 1, ms => ∃ before between later, ms = before ++ .shift :: (between ++ .accept :: later) ∧ liveFor k later

/-- *P1* (R155, R214) of a write of `n` bytes in progress and the moves that follow: "the peripheral is sized as INIT
requires, is live (its shifter eventually runs) and TX_TIMEOUT = INF". A peripheral sized so cuts no write short
(R171 names the missizing as that cause). -/
structure PremiseP1 (s : State) (n : Nat) (ms : List Move) : Prop where
  sized : s.cfg.holdCap = 12 * s.cfg.n ∧ .cutShort ∉ ms
  live : liveFor n ms
  unbounded : s.cfg.txTimeout = none

/-- *A1* as the inequality that is sufficient for it (R157):
`SETTLE_TICKS * T_TICK - T_TICK >= HOLD_CAP * 8 * T_BIT`. -/
def settleCoversDrain (p : Params) : Prop := p.holdCap * 8 * p.tBit + p.tTick ≤ p.settleTicks * p.tTick

/-- *A1* as a property of a state (R157): nothing is pending when CLEAR can run. -/
def drainedBeforeClear (s : State) : Prop := s.seq = .settle → s.tickcnt = 0 → s.hold.pending = []

/-- What is sent next has a definite value: the cycle has not begun stale, and will not (R159). The invariant gives it. -/
def wireHasMeaning (s : State) : Prop := s.staleCycle = false ∧ (s.seq = .encode → s.hold.pending = [])

/-- *A2* as a property of a state (R158): between the first and the last frame byte the shifter never finds nothing
to send. -/
def noUnderrun (s : State) : Prop := gapUnderruns s = true → s.hold.pending ≠ []

/-- *idle low* (R214, decision D18): the level of a line on which the shifter has nothing to send. -/
def idleLow (idleLevel : Bool) : Prop := idleLevel = false

/-- *H1* as a property of a step (R204): `STRIP` has no writer but the command port outside a cycle, and reset. -/
def noOtherWriter (s t : State) : Prop :=
  t.strip ≠ s.strip → nextMove s = .reset ∨ (nextMove s = .command ∧ busy s = false)

/-- *H7* as a property of the host's next move (R210): it presents a command, or calls the setter, only when none waits
and none is being executed. -/
def oneCommandAtATime (s : State) : Prop :=
  ((∃ w, nextMove s = .present w) ∨ ∃ pos hex, nextMove s = .set pos hex) → s.port = [] ∧ busy s = false

/-- `FRAME` holds what ENCODE wrote, for as long as no later command can change `STRIP` or `FRAME`. -/
def holdsFrame (s : State) : Bool :=
  match s.seq with
  | .idle => false
  | .encode => false
  | .txFrame => true
  | .txReset => true
  | .settle => true
  | .fault => true

/-- A frame write has not begun to fill `HOLD`. -/
def beforeFrameBytes (s : State) : Prop :=
  s.seq = .idle ∨ s.seq = .encode ∨ (s.seq = .txFrame ∧ s.ret = none ∧ s.txidx = 0)

/-- The invariant of the machine. Each clause rules out states no run from reset reaches. -/
structure Inv (s : State) : Prop where
  /-- *valid instance* (R214). -/
  cfgWf : s.cfg.wf = true
  /-- `STRIP` is "never shrunk/grown" (R20). -/
  stripLength : s.strip.length = s.cfg.n
  /-- "every byte is 0x00" (R23). -/
  resetBufZero : s.resetBuf = List.replicate s.cfg.resetLen 0
  /-- The canonical form of the byte memory. -/
  frameWf : Memory.wf s.frame
  /-- "must never read or write outside the N×12 frame buffer bounds" (R46). -/
  frameBound : ∀ c ∈ s.frame, c.1 < frameLen s
  /-- From ENCODE to the end of the cycle every byte of `FRAME` is written, and is the encoding's (R22, R102). -/
  frameEncoded : holdsFrame s = true →
    ∀ a, a < frameLen s → Memory.byteAt s.frame a = (encodeFrame s.cfg.sym s.strip)[a]?
  /-- `FAULT` and `SEQ = FAULT` go together (R177). -/
  faultSeq : s.fault = true ↔ s.seq = .fault
  /-- `FAULT_KIND` is "0 none" exactly without a fault (R27). -/
  faultKindNone : s.faultKind = .none ↔ s.fault = false
  /-- No cycle before INIT (R202). -/
  initFirst : s.inited = false → s.seq = .idle
  /-- `TXCNT` fits max(12N, Z) (R28). -/
  txcntBound : s.txcnt ≤ max (frameLen s) (resetLen s)
  /-- `TXIDX` is at most the requested length (R28). -/
  txidxBound : ∀ which n, currentWrite s = some (which, n) → s.txidx ≤ n
  /-- `TXIDX` "is 0 whenever no write is in progress" (R28), and so is its count of ticks. -/
  txidxZero : currentWrite s = none → s.txidx = 0 ∧ s.txticks = 0
  /-- The second count of ticks stays within `TX_TIMEOUT` (R183). -/
  txticksBound : ∀ t, s.cfg.txTimeout = some t → s.txticks ≤ t
  /-- A returned count belongs to the write of its state and is at most the request (R155). -/
  retBound : ∀ r, s.ret = some r →
    (s.seq = .txFrame ∧ r.written ≤ frameLen s) ∨ (s.seq = .txReset ∧ r.written ≤ resetLen s)
  /-- A write that gave up returned fewer bytes than requested, and only under a finite `TX_TIMEOUT` (R151). -/
  retTimeout : ∀ r, s.ret = some r → r.timedOut = true →
    s.cfg.txTimeout ≠ none ∧ (s.seq = .txFrame → r.written < frameLen s) ∧ (s.seq = .txReset → r.written < resetLen s)
  /-- `TICKCNT` is in range (R29). -/
  tickcntRange : s.tickcnt ≤ s.cfg.settleTicks
  /-- `TICKCNT` "holds 0 at all other times" (R29). -/
  tickcntZero : s.seq ≠ .settle → s.tickcnt = 0
  /-- `HOLD.pending` is "of length at most HOLD_CAP" (R32). -/
  holdCap : s.hold.pending.length ≤ s.cfg.holdCap
  /-- Bytes are pending only since an acceptance after the last clear (R32). -/
  dirtyIfPending : s.hold.dirty = false → s.hold.pending = []
  /-- Clean start (R159): "SEQ = IDLE and INITED = 1 imply HOLD clear", and so up to the first frame byte. -/
  cleanStart : s.inited = true → beforeFrameBytes s → holdClear s = true
  /-- `StaleHold` never happens (R159). -/
  neverStale : s.staleCycle = false ∧ .staleHold ∉ s.wireFaults
  /-- An UPDATE has no response before its cycle ends (R100; assumption 8). -/
  noEarlyResponse : busy s = true → s.resp = none
  /-- A call of the setter that has not returned: the last word ahead of it is its UPDATE; and once that is taken and no
  cycle runs, it has its response (R132; assumption 22). -/
  callsWait : ∀ c ∈ s.setter, c.status = none →
    (0 < c.ahead → s.port[c.ahead - 1]? = some (cmdWordOf 0x03 0 0)) ∧
    (c.ahead = 0 → busy s = false → s.resp ≠ none)

/-! ### What a cycle logs -/

/-- The frame of the current strip. -/
def cycleFrame (s : State) : List Byte := encodeFrame s.cfg.sym s.strip

/-- The entry of a whole frame write (R103). -/
def frameEntry (s : State) : LogEntry := .write .frameBuf (cycleFrame s) (frameLen s)

/-- The entry of a whole reset write (R104). -/
def resetEntry (s : State) : LogEntry := .write .resetBuf (List.replicate (resetLen s) 0) (resetLen s)

/-- How `ACCEPT_LOG` stands to its content `L` at the start of the cycle: the sequence of R111 while the cycle goes
well, R115's after a fault. -/
def cycleLog (L : List LogEntry) (s : State) : Prop :=
  match s.seq with
  | .encode => s.acceptLog = L
  | .txFrame => s.acceptLog = L
  | .txReset => s.acceptLog = L ++ [frameEntry s]
  | .settle => s.acceptLog = L ++ [frameEntry s, resetEntry s] ∧ s.txcnt = resetLen s
  | .idle =>
    s.acceptLog = L ++ [frameEntry s, resetEntry s, .clear] ∧ s.txcnt = resetLen s ∧ s.resp = some .ok
      ∧ holdClear s = true
  | .fault =>
    s.resp = some .transmissionFault ∧
    ((s.faultStage = .frame ∧ s.txcnt < frameLen s
        ∧ s.acceptLog = L ++ [.write .frameBuf ((cycleFrame s).take s.txcnt) (frameLen s)]) ∨
     (s.faultStage = .reset ∧ s.txcnt < resetLen s
        ∧ s.acceptLog = L ++ [frameEntry s, .write .resetBuf (List.replicate s.txcnt 0) (resetLen s)]))

/-! ### What a cycle puts on the wire -/

/-- The bytes of a sequence of wire events. -/
def wireBytes : List WireEvent → List Byte
  | [] => []
  | .byte v :: es => v :: wireBytes es
  | .gap :: es => wireBytes es

/-- No `Gap` falls between the first and the `n`-th byte, `k` bytes having gone before (R156). -/
def gapFree (n : Nat) : Nat → List WireEvent → Bool
  | _, [] => true
  | k, .byte _ :: es => gapFree n (k + 1) es
  | k, .gap :: es => (decide (k = 0) || decide (n ≤ k)) && gapFree n k es

/-- The levels of a sequence of wire events: a byte is eight of them (R90), and a gap, a period of unspecified length at
the idle level (R153), stands as one. -/
def wireLevels (idleLevel : Bool) : List WireEvent → List Bool
  | [] => []
  | .byte v :: es => byteBits v ++ wireLevels idleLevel es
  | .gap :: es => idleLevel :: wireLevels idleLevel es

/-- How many bytes of the current write are accepted. -/
def acceptedCount (s : State) : Nat :=
  match s.ret with
  | some r => r.written
  | none => s.txidx

/-- The bytes the peripheral has accepted in this cycle; once it has ended, all of them (R111). -/
def acceptedInCycle (s : State) : List Byte :=
  match s.seq with
  | .encode => []
  | .txFrame => (cycleFrame s).take (acceptedCount s)
  | .txReset => cycleFrame s ++ List.replicate (acceptedCount s) 0
  | .settle => cycleFrame s ++ List.replicate (resetLen s) 0
  | .idle => cycleFrame s ++ List.replicate (resetLen s) 0
  | .fault => []

/-- A write that has returned has returned its full length, as P1 says (R155). -/
def fullReturn (s : State) : Prop :=
  ∀ r, s.ret = some r → (s.seq = .txFrame → r.written = frameLen s) ∧ (s.seq = .txReset → r.written = resetLen s)

/-- How `WIRE` stands to its content `W` at the start of the cycle, as long as no wire-level fault has been added to
`F`: the cycle's bytes on the wire and those still pending are the accepted ones, and no gap is inside the frame. -/
def cycleWire (W : List WireEvent) (F : List WireFault) (s : State) : Prop :=
  fullReturn s ∧ ∃ ws fs, s.wire = W ++ ws ∧ s.wireFaults = F ++ fs ∧
    (fs = [] → wireBytes ws ++ s.hold.pending = acceptedInCycle s ∧ gapFree (frameLen s) 0 ws = true)

/-! ### Runs of a cycle -/

/-- A run inside one cycle: steps from states in which the cycle is in progress, by moves that are allowed. -/
inductive CycleRun (allowed : Move → Prop) : State → State → Prop where
  | here (s : State) : CycleRun allowed s s
  | more (s t u : State) : busy s = true → allowed (nextMove s) → step s = .next t → CycleRun allowed t u →
      CycleRun allowed s u

end Sys2Proof.Machine
end

