-- ==== Sys2Proof/Certificates/Slice0/Obligations.lean ====
section
/-! DEFINITION. The statements about this model, each from the numbered rules of spec/ its docstring names. -/

open Sys2Proof Sys2Proof.Machine

/-! ### Encodings -/

/-- Every word of spec/95_test_vectors.md V8 and P5 (R68 to R70), the selector values of the five micro-operations with
both values of an ignored `tz` and those that select none (R71), and the four indices of the symbol table (R61). -/
def Obligations.TableWordsDecode : Prop :=
  decodeTableWord 48 0x010000000000 = some .init ∧
  decodeTableWord 48 0x030000000000 = some .update ∧
  decodeTableWord 48 0x020000FF0000 = some (.setpix 0 0xFF0000) ∧
  decodeTableWord 48 0x0200000000FF = some (.setpix 0 0x0000FF) ∧
  decodeTableWord 48 0x020002123456 = some (.setpix 2 0x123456) ∧
  decodeTableWord 48 0x020001A5C30F = some (.setpix 1 0xA5C30F) ∧
  decodeTableWord 48 0x02FFFFFFFFFF = some (.setpix 65535 0xFFFFFF) ∧
  decodeTableWord 48 0x020001FFFFFF = some (.setpix 1 0xFFFFFF) ∧
  decodeTableWord 48 0x000000000000 = none ∧
  decodeTableWord 48 0x040000000000 = none ∧
  decodeTableWord 48 0xFF0000000000 = none ∧
  decodeTableWord 48 0x010000000001 = none ∧
  decodeTableWord 48 0x030001000000 = none ∧
  decodeTableWord 48 0x070000000000 = none ∧
  decodeTableWord 48 0x030000000001 = none ∧
  decodeTableWord 4 0b0010 = some .encode ∧ decodeTableWord 4 0b0011 = some .encode ∧
  decodeTableWord 4 0b0100 = some .txframe ∧ decodeTableWord 4 0b0101 = some .txframe ∧
  decodeTableWord 4 0b0110 = some .txreset ∧ decodeTableWord 4 0b0111 = some .txreset ∧
  decodeTableWord 4 0b1000 = some .settle ∧ decodeTableWord 4 0b1001 = some .clear ∧
  decodeTableWord 4 0b0000 = none ∧ decodeTableWord 4 0b0001 = none ∧ decodeTableWord 4 0b1010 = none ∧
  decodeTableWord 4 0b1101 = none ∧ decodeTableWord 4 0b1110 = none ∧ decodeTableWord 4 0b1111 = none ∧
  decodeTableWord 2 0b00 = some .sym0 ∧ decodeTableWord 2 0b01 = some .sym1 ∧
  decodeTableWord 2 0b10 = some .sym2 ∧ decodeTableWord 2 0b11 = some .sym3

/-- R68, R69: the fields of the command word, taken apart and put together, and the opcode map as match and mask; every
other word is reserved. -/
def Obligations.CommandWordMap : Prop :=
  (∀ w : CmdWord, cmdOp w = w.extractLsb' 40 8 ∧ cmdPos w = w.extractLsb' 24 16 ∧
    cmdColour w = w.extractLsb' 0 24) ∧
  (∀ (op : Byte) (pos : Pos) (color : Colour), cmdOp (cmdWordOf op pos color) = op ∧
    cmdPos (cmdWordOf op pos color) = pos ∧ cmdColour (cmdWordOf op pos color) = color) ∧
  (∀ w : CmdWord, decodeCmd48 w = .ok .init ↔ w &&& 0xFFFFFFFFFFFF = 0x010000000000) ∧
  (∀ (w : CmdWord) (pos : Pos) (color : Colour), decodeCmd48 w = .ok (.setpix pos color) ↔
    (w &&& 0xFF0000000000 = 0x020000000000 ∧ pos = cmdPos w ∧ color = cmdColour w)) ∧
  (∀ w : CmdWord, decodeCmd48 w = .ok .update ↔ w &&& 0xFFFFFFFFFFFF = 0x030000000000) ∧
  (∀ w : CmdWord, w &&& 0xFFFFFFFFFFFF ≠ 0x010000000000 → w &&& 0xFF0000000000 ≠ 0x020000000000 →
    w &&& 0xFFFFFFFFFFFF ≠ 0x030000000000 → decodeCmd48 w = .error .illegalCommand)

/-- R71: the code of each sequencer state, the selector as a view of `SEQ` and `TICKCNT`, and what each selector value
selects. -/
def Obligations.SelectorMap : Prop :=
  (seqCode .idle = 0 ∧ seqCode .encode = 1 ∧ seqCode .txFrame = 2 ∧ seqCode .txReset = 3 ∧ seqCode .settle = 4 ∧
    seqCode .fault = 7 ∧ ∀ q, seqCode q ≠ 5 ∧ seqCode q ≠ 6) ∧
  (∀ s : State, (usel s).extractLsb' 1 3 = seqCode s.seq ∧ ((usel s).getLsbD 0 = true ↔ s.tickcnt = 0)) ∧
  (∀ s : State, s.seq = .encode → decodeUsel4 (usel s) = .ok .encode) ∧
  (∀ s : State, s.seq = .txFrame → decodeUsel4 (usel s) = .ok .txframe) ∧
  (∀ s : State, s.seq = .txReset → decodeUsel4 (usel s) = .ok .txreset) ∧
  (∀ s : State, s.seq = .settle → 0 < s.tickcnt → decodeUsel4 (usel s) = .ok .settle) ∧
  (∀ s : State, s.seq = .settle → s.tickcnt = 0 → decodeUsel4 (usel s) = .ok .clear) ∧
  (∀ s : State, s.seq = .idle ∨ s.seq = .fault → decodeUsel4 (usel s) = .error .noMicroOp) ∧
  (∀ u : Usel, u.extractLsb' 1 3 = 5 ∨ u.extractLsb' 1 3 = 6 → decodeUsel4 u = .error .neverOccurs)

/-- Decode and encode agree in all three formats, in both directions: no bit of an encoding is dropped, no word has
two readings, and the one bit a selector ignores is `tz` in ENCODE, TXFRAME and TXRESET (R71). -/
def Obligations.DecodeEncodeAgree : Prop :=
  (∀ i : Instr, i.wf = true → decode (Sys2Proof.encode i) = .ok i) ∧
  (∀ (w : CmdWord) (i : Instr), decodeCmd48 w = .ok i → Sys2Proof.encode i = .cmd48 w) ∧
  (∀ g : Group, Sys2Proof.encode (decodeLut2 g) = .lut2 g) ∧
  (∀ (u : Usel) (i : Instr), decodeUsel4 u = .ok i →
    Sys2Proof.encode i = .usel4 u ∨
    (i = .encode ∧ u = 0b0011) ∨ (i = .txframe ∧ u = 0b0101) ∨ (i = .txreset ∧ u = 0b0111))

/-- The rows of spec/opcode_table.json, as match and mask, are the decoder: a word decodes to an instruction of a
mnemonic exactly when it is an instance of the row of that mnemonic, and no two rows of a format overlap. The table has
these twelve rows. -/
def Obligations.TableRowsAreTheDecoder : Prop :=
  cmd48Rows.map (·.mnemonic) = ["INIT", "SETPIX", "UPDATE"] ∧
  usel4Rows.map (·.mnemonic) = ["ENCODE", "TXFRAME", "TXRESET", "SETTLE", "CLEAR"] ∧
  lut2Rows.map (·.mnemonic) = ["SYM0", "SYM1", "SYM2", "SYM3"] ∧
  (∀ w : CmdWord, ∀ r ∈ cmd48Rows, rowMatches r w = true ↔ ∃ i, decodeCmd48 w = .ok i ∧ mnemonic i = r.mnemonic) ∧
  (∀ u : Usel, ∀ r ∈ usel4Rows, rowMatches r u = true ↔ ∃ i, decodeUsel4 u = .ok i ∧ mnemonic i = r.mnemonic) ∧
  (∀ g : Group, ∀ r ∈ lut2Rows, rowMatches r g = true ↔ mnemonic (decodeLut2 g) = r.mnemonic) ∧
  (∀ w : CmdWord, ∀ r ∈ cmd48Rows, ∀ q ∈ cmd48Rows, rowMatches r w = true → rowMatches q w = true → r = q)

/-! ### The encoder -/

/-- `SymLookup(g) = SYM[g]` (R80), distinct groups having distinct entries. That a row of the table completes by itself
in every state, its answer in the model's own `symOut` and nothing else changed, is the model's choice (assumption
18). -/
def Obligations.SymLookupAnswersTheEntry : Prop :=
  (∀ s : State,
    exec .sym0 s = .next { s with symOut := s.cfg.sym.t0 } ∧
    exec .sym1 s = .next { s with symOut := s.cfg.sym.t1 } ∧
    exec .sym2 s = .next { s with symOut := s.cfg.sym.t2 } ∧
    exec .sym3 s = .next { s with symOut := s.cfg.sym.t3 }) ∧
  (∀ t : SymTable, symLookup t 0 = t.t0 ∧ symLookup t 1 = t.t1 ∧ symLookup t 2 = t.t2 ∧ symLookup t 3 = t.t3) ∧
  (∀ t : SymTable, t.injective = true → ∀ g h : Group, symLookup t g = symLookup t h → g = h)

/-- R81, R63: the four output positions are the entries of `(c>>6)&3`, `(c>>4)&3`, `(c>>2)&3`, `c&3`. -/
def Obligations.ChannelIsFourGroupsBigEndian : Prop :=
  ∀ (t : SymTable) (c : Byte),
    encodeChannel t c =
      [symLookup t (c.extractLsb' 6 2), symLookup t (c.extractLsb' 4 2), symLookup t (c.extractLsb' 2 2),
       symLookup t (c.extractLsb' 0 2)] ∧
    c.extractLsb' 6 2 = BitVec.setWidth 2 ((c >>> 6) &&& 3) ∧ c.extractLsb' 4 2 = BitVec.setWidth 2 ((c >>> 4) &&& 3) ∧
    c.extractLsb' 2 2 = BitVec.setWidth 2 ((c >>> 2) &&& 3) ∧ c.extractLsb' 0 2 = BitVec.setWidth 2 (c &&& 3) ∧
    symLookup t 0 = t.t0 ∧ symLookup t 1 = t.t1 ∧ symLookup t 2 = t.t2 ∧ symLookup t 3 = t.t3

/-- R87: the channel order law of every pixel of a frame. -/
def Obligations.ChannelOrderIsGreenRedBlue : Prop :=
  ∀ (t : SymTable) (strip : List Pixel) (i : Nat) (p : Pixel), strip[i]? = some p →
    ((encodeFrame t strip).drop (12 * i)).take 4 = encodeChannel t p.g ∧
    ((encodeFrame t strip).drop (12 * i + 4)).take 4 = encodeChannel t p.r ∧
    ((encodeFrame t strip).drop (12 * i + 8)).take 4 = encodeChannel t p.b

/-- R86: the length law. -/
def Obligations.FrameLengthIsTwelvePerPixel : Prop :=
  ∀ (t : SymTable) (strip : List Pixel) (p : Pixel) (c : Byte),
    (encodeFrame t strip).length = 12 * strip.length ∧ (encodePixel t p).length = 12 ∧
    (encodeChannel t c).length = 4

/-- R42: the symbol byte of pixel `i`, channel slot `j` (0 green, 1 red, 2 blue), group `k` stands at
`12*i + 4*j + k`; a byte address holds pixel `a div 12`, slot `(a mod 12) div 4`, group `a mod 4`; and there is no
padding, header or trailer. -/
def Obligations.FrameLayout : Prop :=
  (∀ (t : SymTable) (strip : List Pixel) (i : Nat) (p : Pixel), strip[i]? = some p →
    ∀ k, k < 4 →
      (encodeFrame t strip)[12 * i + 4 * 0 + k]? = some (symLookup t (BitVec.setWidth 2 ((p.g >>> (6 - 2 * k)) &&& 3))) ∧
      (encodeFrame t strip)[12 * i + 4 * 1 + k]? = some (symLookup t (BitVec.setWidth 2 ((p.r >>> (6 - 2 * k)) &&& 3))) ∧
      (encodeFrame t strip)[12 * i + 4 * 2 + k]? = some (symLookup t (BitVec.setWidth 2 ((p.b >>> (6 - 2 * k)) &&& 3))) ∧
      ∀ j, j < 3 → frameAddr i j k = 12 * i + 4 * j + k ∧ frameAddr i j k / 12 = i ∧
        frameAddr i j k % 12 / 4 = j ∧ frameAddr i j k % 4 = k) ∧
  (∀ (t : SymTable) (strip : List Pixel), (encodeFrame t strip).length = 12 * strip.length)

/-- R88: the round-trip law of a channel, a pixel and a frame, for every injective table. -/
def Obligations.FrameRoundTrip : Prop :=
  ∀ t : SymTable, t.injective = true →
    (∀ c : Byte, decodeChannel t (encodeChannel t c) = some c) ∧
    (∀ p : Pixel, decodePixel t (encodePixel t p) = some p) ∧
    (∀ strip : List Pixel, decodeFrame t strip.length (encodeFrame t strip) = some strip)

/-- R74: only the four entries are symbols; the encoder emits nothing else; decoding any other byte, alone or among
others, is invalid; the default table has no zero entry, and with such a table no frame byte is zero. -/
def Obligations.OnlyEntriesAreSymbols : Prop :=
  (∀ (t : SymTable) (strip : List Pixel) (b : Byte), b ∈ encodeFrame t strip → b = t.t0 ∨ b = t.t1 ∨ b = t.t2 ∨ b = t.t3) ∧
  (∀ (t : SymTable) (strip : List Pixel), t.nonzero = true → (0 : Byte) ∉ encodeFrame t strip) ∧
  (∀ (t : SymTable) (b : Byte), b ≠ t.t0 → b ≠ t.t1 → b ≠ t.t2 → b ≠ t.t3 →
    decodeSymbol t b = none ∧
    ∀ bs : List Byte, b ∈ bs →
      decodeChannel t bs = none ∧ decodePixel t bs = none ∧ ∀ n, decodeFrame t n bs = none) ∧
  Config.defaultSym.nonzero = true

/-- R89: the encoder is injective, and its image is exactly the sequences of `12N` symbols. -/
def Obligations.EncoderInjectiveWithImage : Prop :=
  ∀ t : SymTable, t.injective = true →
    (∀ c d : Byte, encodeChannel t c = encodeChannel t d → c = d) ∧
    (∀ p q : Pixel, encodePixel t p = encodePixel t q → p = q) ∧
    (∀ s1 s2 : List Pixel, encodeFrame t s1 = encodeFrame t s2 → s1 = s2) ∧
    (∀ (n : Nat) (bs : List Byte),
      (bs.length = 12 * n ∧ ∀ b ∈ bs, b = t.t0 ∨ b = t.t1 ∨ b = t.t2 ∨ b = t.t3) ↔
        ∃ strip : List Pixel, strip.length = n ∧ encodeFrame t strip = bs)

/-- R90: the wire bits of bytes, each most significant bit first; a frame is `96N` wire bits; with the default table
each data bit `d` occupies four consecutive wire bits `1 d d 0`. -/
def Obligations.WireBitsOfAFrame : Prop :=
  (∀ (bs : List Byte) (i j : Nat) (b : Byte), bs[i]? = some b → j < 8 →
    (wireBits bs)[8 * i + j]? = some (b.getLsbD (7 - j))) ∧
  (∀ (t : SymTable) (strip : List Pixel), (wireBits (encodeFrame t strip)).length = 96 * strip.length) ∧
  (∀ strip : List Pixel,
    wireBits (encodeFrame Config.defaultSym strip) = (dataBits strip).flatMap fun d => [true, d, d, false])

/-! ### The memory primitives -/

/-- The memory primitives (R54): reading a pixel after writing it gives the colour written, every other pixel is as
before, and a position not below the length has no meaning; the same of `FRAME`'s bytes and their bound; the reset
buffer reads as zeros (its content is `Inv`'s). -/
def Obligations.MemoryPrimitives : Prop :=
  (∀ (pos : Nat) (color : Colour) (s : State), pos < s.strip.length →
    ∃ t, memWriteStrip pos color s = some t ∧ memReadStrip t pos = some color ∧
      t.strip[pos]? = some ⟨color.extractLsb' 16 8, color.extractLsb' 8 8, color.extractLsb' 0 8⟩ ∧
      ∀ i, i ≠ pos → t.strip[i]? = s.strip[i]?) ∧
  (∀ (pos : Nat) (color : Colour) (s : State), s.strip.length ≤ pos →
    memWriteStrip pos color s = none ∧ memReadStrip s pos = none) ∧
  (∀ (a : Nat) (v : List Byte) (s : State), a + v.length ≤ 12 * s.cfg.n →
    ∃ t, memWriteFrame a v s = some t ∧ readFrame t a v.length = v ∧
      ∀ b, b < a ∨ a + v.length ≤ b → frameByte t b = frameByte s b) ∧
  (∀ (a : Nat) (v : List Byte) (s : State), 12 * s.cfg.n < a + v.length → memWriteFrame a v s = none) ∧
  (∀ (a n : Nat) (s : State), Inv s → a + n ≤ s.cfg.resetLen → readResetBuf s a n = List.replicate n 0)

/-! ### The commands -/

/-- R130: INIT, accepted and refused. Nothing is transmitted and `STRIP` is kept. (What `FRAME` lists afterwards, and
the model's own two fields beside it, are left open: assumptions 4, 17.) -/
def Obligations.InitInitialises : Prop :=
  (∀ s : State, s.seq = .idle → s.fault = false → s.inited = false →
    ∃ t, exec .init s = .next t ∧ t = { s with
      inited := true
      resetBuf := List.replicate s.cfg.resetLen 0
      hold := ⟨[], false⟩
      resp := some .ok
      frame := t.frame
      frameEpoch := t.frameEpoch
      staleCycle := t.staleCycle }) ∧
  (∀ s : State, s.seq = .idle → s.fault = true → exec .init s = .next { s with resp := some .faulted }) ∧
  (∀ s : State, s.seq = .idle → s.fault = false → s.inited = true →
    exec .init s = .next { s with resp := some .alreadyInitialised })

/-- R131: SETPIX, accepted and refused: it writes exactly one pixel, all three channels in one step. -/
def Obligations.SetpixWritesOnePixel : Prop :=
  (∀ (s : State) (pos : Pos) (color : Colour),
    s.seq = .idle → s.fault = false → pos.toNat < s.cfg.n → s.strip.length = s.cfg.n →
      exec (.setpix pos color) s = .next { s with
        strip := s.strip.set pos.toNat ⟨color.extractLsb' 16 8, color.extractLsb' 8 8, color.extractLsb' 0 8⟩
        resp := some .ok }) ∧
  (∀ (s : State) (pos : Pos) (color : Colour), s.seq = .idle → s.fault = true →
    exec (.setpix pos color) s = .next { s with resp := some .faulted }) ∧
  (∀ (s : State) (pos : Pos) (color : Colour), s.seq = .idle → s.fault = false → s.cfg.n ≤ pos.toNat →
    exec (.setpix pos color) s = .next { s with resp := some .posOutOfRange })

/-- R100: an accepted UPDATE starts the cycle; its response is given when the cycle ends (the model shows none until
then, assumption 8). -/
def Obligations.UpdateStartsTheCycle : Prop :=
  ∀ s : State, s.seq = .idle → s.fault = false → s.inited = true →
    exec .update s = .next { s with seq := .encode, resp := none }

/-- R175: the reasons, in the order of the checks: `Faulted` for every command and every reserved word, then
`IllegalCommand`, then the command's own; only the response changes, and its code is not zero. The code of each
response is R72's. -/
def Obligations.RefusedCommandsChangeNothing : Prop :=
  (∀ (s : State) (i : Instr), i = .init ∨ (∃ pos color, i = .setpix pos color) ∨ i = .update →
    s.seq = .idle ∨ s.seq = .fault → s.fault = true ∨ s.seq = .fault →
    exec i s = .next { s with resp := some .faulted }) ∧
  (∀ (s : State) (w : CmdWord), s.seq = .idle ∨ s.seq = .fault → decodeCmd48 w = .error .illegalCommand →
    refuseIllegal w s = .next { s with
      resp := some (if s.fault = true ∨ s.seq = .fault then .faulted else .illegalCommand) }) ∧
  (∀ s : State, s.seq = .idle → s.fault = false → s.inited = true →
    exec .init s = .next { s with resp := some .alreadyInitialised }) ∧
  (∀ (s : State) (pos : Pos) (color : Colour), s.seq = .idle → s.fault = false → s.cfg.n ≤ pos.toNat →
    exec (.setpix pos color) s = .next { s with resp := some .posOutOfRange }) ∧
  (∀ s : State, s.seq = .idle → s.fault = false → s.inited = false →
    exec .update s = .next { s with resp := some .notInitialised }) ∧
  (respCode .ok = 0 ∧ respCode .illegalCommand = 1 ∧ respCode .posOutOfRange = 2 ∧ respCode .notInitialised = 3 ∧
    respCode .alreadyInitialised = 4 ∧ respCode .faulted = 5 ∧ respCode .transmissionFault = 6) ∧
  (∀ r : Resp, respCode r = 0 ↔ r = .ok)

/-- R70: a reserved word taken from the port is refused with `IllegalCommand` (after the check for `Faulted`); a
SETPIX word whose position is not below N is refused with `PosOutOfRange`; nothing but the port and the response
changes (and what the setter's calls note of a word taken, which is the model's, assumption 22). -/
def Obligations.ReservedWordsAreRefused : Prop :=
  (∀ (s : State) (w : CmdWord) (rest : List CmdWord),
    nextMove s = .command → s.port = w :: rest → s.seq = .idle ∨ s.seq = .fault →
    cmdOp w ≠ 0x01 ∧ cmdOp w ≠ 0x02 ∧ cmdOp w ≠ 0x03 ∨
      (cmdOp w = 0x01 ∨ cmdOp w = 0x03) ∧ (cmdPos w ≠ 0 ∨ cmdColour w ≠ 0) →
    ∃ t, step s = .next t ∧ t = { afterMove s with
      port := rest
      setter := t.setter
      resp := some (if s.fault = true ∨ s.seq = .fault then .faulted else .illegalCommand) }) ∧
  (∀ (s : State) (w : CmdWord) (rest : List CmdWord),
    nextMove s = .command → s.port = w :: rest → s.seq = .idle → s.fault = false → cmdOp w = 0x02 →
    s.cfg.n ≤ (cmdPos w).toNat →
    ∃ t, step s = .next t ∧
      t = { afterMove s with port := rest, setter := t.setter, resp := some .posOutOfRange })

/-- R114: a word presented while a cycle is in progress is held, whatever it is: the step changes nothing but the
environment's schedule, and the word still waits. A word presented while `SEQ = FAULT` is refused with `Faulted`. (What
the setter's calls note of a word taken is the model's, assumption 22.) -/
def Obligations.BusyPortHoldsEveryWord : Prop :=
  (∀ s : State, nextMove s = .command →
    s.seq = .encode ∨ s.seq = .txFrame ∨ s.seq = .txReset ∨ s.seq = .settle →
    step s = .next (afterMove s) ∧ (afterMove s).port = s.port) ∧
  (∀ (s : State) (w : CmdWord) (rest : List CmdWord), nextMove s = .command → s.port = w :: rest → s.seq = .fault →
    ∃ t, step s = .next t ∧ t = { afterMove s with port := rest, setter := t.setter, resp := some .faulted })

/-- The frame of each command on every path: INIT, SETPIX and UPDATE change only the fields named, SETPIX only the
pixel at its position, and no command but INIT any byte of `FRAME`. -/
def Obligations.CommandFrames : Prop :=
  (∀ s t : State, exec .init s = .next t →
    t = { s with frame := t.frame, frameEpoch := t.frameEpoch, resetBuf := t.resetBuf, hold := t.hold,
                 staleCycle := t.staleCycle, inited := t.inited, resp := t.resp, port := t.port }) ∧
  (∀ (s t : State) (pos : Pos) (color : Colour), exec (.setpix pos color) s = .next t →
    t = { s with strip := t.strip, resp := t.resp, port := t.port } ∧
    (∀ i, i ≠ pos.toNat → t.strip[i]? = s.strip[i]?) ∧ ∀ a, frameByte t a = frameByte s a) ∧
  (∀ s t : State, exec .update s = .next t →
    t = { s with seq := t.seq, resp := t.resp, port := t.port } ∧ ∀ a, frameByte t a = frameByte s a)

/-! ### The micro-operations -/

/-- R102: ENCODE writes every byte of `FRAME` with the encoding of `STRIP`, goes to `TX_FRAME`, and writes nothing
else. (Of the model's own two fields about the wire this says what holds when `HOLD` is clear; `MicroOperationFrames`
says the other case.) -/
def Obligations.EncodeFillsTheFrame : Prop :=
  ∀ s : State, s.seq = .encode → s.strip.length = s.cfg.n →
    ∃ t, exec .encode s = .next t ∧
      t = { s with frame := t.frame, seq := .txFrame, staleCycle := t.staleCycle, wireFaults := t.wireFaults } ∧
      (s.hold.pending = [] → s.hold.dirty = false → t.staleCycle = s.staleCycle ∧ t.wireFaults = s.wireFaults) ∧
      readFrame t 0 (12 * s.cfg.n) = encodeFrame s.cfg.sym s.strip ∧
      (∀ i j k p, s.strip[i]? = some p → j < 3 → k < 4 →
        frameByte t (frameAddr i j k) = symLookup s.cfg.sym (group (channelOf p j) k)) ∧
      ∀ a, 12 * s.cfg.n ≤ a → frameByte t a = frameByte s a

/-- R103, R108: TXFRAME waits while its write has not returned (R107; that the meaning then answers the state as it is
is the model's choice, assumption 12). The returned count is recorded and logged with the accepted
prefix of the frame; a full count goes on to `TX_RESET`, a short one raises the Transmission fault of stage 0. -/
def Obligations.TxframeTakesTheWrittenCount : Prop :=
  (∀ s : State, s.seq = .txFrame → s.ret = none → exec .txframe s = .next s) ∧
  (∀ (s : State) (r : WriteReturn), s.seq = .txFrame → s.ret = some r → r.written = 12 * s.cfg.n →
    exec .txframe s = .next { s with
      txcnt := 12 * s.cfg.n
      ret := none
      acceptLog := s.acceptLog ++ [.write .frameBuf (readFrame s 0 (12 * s.cfg.n)) (12 * s.cfg.n)]
      seq := .txReset }) ∧
  (∀ (s : State) (r : WriteReturn), s.seq = .txFrame → s.ret = some r → r.written < 12 * s.cfg.n →
    exec .txframe s = .next { s with
      txcnt := r.written
      ret := none
      acceptLog := s.acceptLog ++ [.write .frameBuf (readFrame s 0 r.written) (12 * s.cfg.n)]
      fault := true
      faultKind := if r.timedOut = true then .timeout else .shortWrite
      faultStage := .frame
      seq := .fault
      resp := some .transmissionFault })

/-- R104, R108: TXRESET waits while its write has not returned (R107; that the meaning then answers the state as it is
is the model's choice, assumption 12). The returned count is recorded and logged with as many zero
bytes (with the reset buffer's constant content); a full count loads `TICKCNT` and goes on to `SETTLE`, a short one
raises the Transmission fault of stage 1. -/
def Obligations.TxresetTakesTheWrittenCount : Prop :=
  (∀ s : State, s.seq = .txReset → s.ret = none → exec .txreset s = .next s) ∧
  (∀ (s : State) (r : WriteReturn), s.seq = .txReset → s.ret = some r → r.written = s.cfg.resetLen →
    s.resetBuf = List.replicate s.cfg.resetLen 0 →
    exec .txreset s = .next { s with
      txcnt := s.cfg.resetLen
      ret := none
      acceptLog := s.acceptLog ++ [.write .resetBuf (List.replicate s.cfg.resetLen 0) s.cfg.resetLen]
      tickcnt := s.cfg.settleTicks
      seq := .settle }) ∧
  (∀ (s : State) (r : WriteReturn), s.seq = .txReset → s.ret = some r → r.written < s.cfg.resetLen →
    s.resetBuf = List.replicate s.cfg.resetLen 0 →
    exec .txreset s = .next { s with
      txcnt := r.written
      ret := none
      acceptLog := s.acceptLog ++ [.write .resetBuf (List.replicate r.written 0) s.cfg.resetLen]
      fault := true
      faultKind := if r.timedOut = true then .timeout else .shortWrite
      faultStage := .reset
      seq := .fault
      resp := some .transmissionFault })

/-- R108: after each of the two writes the returned count is compared with the requested length. The step that takes
a count enters the fault exactly when they differ, with the kind that says whether the write gave up; and no later
state of the cycle runs: the step logs that write alone, and clears nothing. -/
def Obligations.WrittenCountIsChecked : Prop :=
  ∀ (s : State) (r : WriteReturn) (n : Nat), Inv s → nextMove s = .sequence → s.ret = some r →
    (s.seq = .txFrame ∧ n = 12 * s.cfg.n) ∨ (s.seq = .txReset ∧ n = s.cfg.resetLen) →
    ∃ t e, step s = .next t ∧ t.txcnt = r.written ∧ t.ret = none ∧ t.acceptLog = s.acceptLog ++ [e] ∧ e ≠ .clear ∧
      (t.fault = true ↔ r.written ≠ n) ∧ (t.seq = .fault ↔ r.written ≠ n) ∧
      (r.written ≠ n → t.faultKind = (if r.timedOut = true then .timeout else .shortWrite) ∧
        (t.faultStage = .frame ↔ s.seq = .txFrame) ∧ t.resp = some .transmissionFault ∧ t.tickcnt = 0) ∧
      t.strip = s.strip ∧ (∀ a, frameByte t a = frameByte s a) ∧ t.hold = s.hold ∧ t.wire = s.wire ∧
      t.inited = s.inited

/-- R107: while a write has not returned the sequencer has no enabled step; and only the write's return (or reset)
ends that: whatever else steps, the block stays in the state of that write and UPDATE has not completed. With a
peripheral that never returns the write this is the hang. -/
def Obligations.UnreturnedWriteBlocksTheSequencer : Prop :=
  ∀ s : State, s.seq = .txFrame ∨ s.seq = .txReset → s.ret = none →
    (nextMove s = .sequence → step s = .next (afterMove s)) ∧
    (∀ t, step s = .next t → nextMove s ≠ .complete → nextMove s ≠ .giveUp → nextMove s ≠ .cutShort →
      nextMove s ≠ .reset →
      t.seq = s.seq ∧ t.ret = none ∧ t.resp = s.resp ∧ t.acceptLog = s.acceptLog ∧ t.txcnt = s.txcnt)

/-- R105: one tick of the delay changes only `TICKCNT`; and `k` ticks in a row take it down by `k`, so the delay is
over after exactly as many ticks as `TICKCNT` held. -/
def Obligations.SettleCountsTicks : Prop :=
  (∀ s : State, s.seq = .settle → 0 < s.tickcnt → exec .settle s = .next { s with tickcnt := s.tickcnt - 1 }) ∧
  (∀ (k : Nat) (s : State) (rest : List Move), s.seq = .settle → k ≤ s.tickcnt →
    s.sched = List.replicate k .tick ++ rest →
    core.run k s = .next { s with tickcnt := s.tickcnt - k, sched := rest })

/-- R106, R154: CLEAR empties the holding buffer (pending bytes are discarded and never reach the wire), logs the
clear, ends the cycle and completes UPDATE with OK. (The model's two fields about the wire are left open here:
`HistoriesOnlyGrow` speaks of one.) -/
def Obligations.ClearEndsTheCycle : Prop :=
  ∀ s : State, s.seq = .settle → s.tickcnt = 0 →
    ∃ t, exec .clear s = .next t ∧ t = { s with
      hold := ⟨[], false⟩
      acceptLog := s.acceptLog ++ [.clear]
      seq := .idle
      resp := some .ok
      staleCycle := t.staleCycle
      wireFaults := t.wireFaults }

/-- R112: on every path a micro-operation never writes `STRIP`, `RESETBUF`, `INITED` or a constant; the fields each
may change are named; only ENCODE changes a byte of `FRAME`, and none at or above `12N`. A frame write that begins with
`HOLD` not clear is the fault `StaleHold` (R159, R176; in the model's record of it and its mark of the cycle, assumptions
16 and 17), and no other micro-operation sets either. -/
def Obligations.MicroOperationFrames : Prop :=
  (∀ s t : State, exec .encode s = .next t →
    t = { s with frame := t.frame, seq := t.seq, staleCycle := t.staleCycle, wireFaults := t.wireFaults } ∧
    (s.hold.pending = [] → s.hold.dirty = false → t.staleCycle = s.staleCycle ∧ t.wireFaults = s.wireFaults) ∧
    (s.hold.pending ≠ [] ∨ s.hold.dirty = true →
      t.staleCycle = true ∧ t.wireFaults = s.wireFaults ++ [.staleHold]) ∧
    ∀ a, 12 * s.cfg.n ≤ a → frameByte t a = frameByte s a) ∧
  (∀ s t : State, exec .txframe s = .next t →
    t = { s with txcnt := t.txcnt, ret := t.ret, acceptLog := t.acceptLog, seq := t.seq, fault := t.fault,
                 faultKind := t.faultKind, faultStage := t.faultStage, resp := t.resp } ∧
    ∀ a, frameByte t a = frameByte s a) ∧
  (∀ s t : State, exec .txreset s = .next t →
    t = { s with txcnt := t.txcnt, ret := t.ret, acceptLog := t.acceptLog, tickcnt := t.tickcnt, seq := t.seq,
                 fault := t.fault, faultKind := t.faultKind, faultStage := t.faultStage, resp := t.resp } ∧
    ∀ a, frameByte t a = frameByte s a) ∧
  (∀ s t : State, exec .settle s = .next t →
    t = { s with tickcnt := t.tickcnt } ∧ ∀ a, frameByte t a = frameByte s a) ∧
  (∀ s t : State, exec .clear s = .next t →
    t = { s with hold := t.hold, staleCycle := t.staleCycle, wireFaults := t.wireFaults, acceptLog := t.acceptLog,
                 seq := t.seq, resp := t.resp } ∧ t.staleCycle = false ∧
    (∃ l, t.wireFaults = s.wireFaults ++ l ∧ .staleHold ∉ l) ∧ ∀ a, frameByte t a = frameByte s a)

/-- A micro-operation that `SEQ` and `TICKCNT` do not select stops by name (the model's reading of "Every transition
not listed does not exist", assumption 10). -/
def Obligations.UnselectedMicroOperationsStop : Prop :=
  ∀ s : State,
    (s.seq ≠ .encode → exec .encode s = .fault .microOpNotSelected) ∧
    (s.seq ≠ .txFrame → exec .txframe s = .fault .microOpNotSelected) ∧
    (s.seq ≠ .txReset → exec .txreset s = .fault .microOpNotSelected) ∧
    (¬ (s.seq = .settle ∧ 0 < s.tickcnt) → exec .settle s = .fault .microOpNotSelected) ∧
    (¬ (s.seq = .settle ∧ s.tickcnt = 0) → exec .clear s = .fault .microOpNotSelected)

/-! ### The peripheral -/

/-- R151, the acceptor: enabled while a write is in progress, `TXIDX < n` and `HOLD` has room, and `TX_TIMEOUT` has not
elapsed (R109; that the acceptor then takes no more is the model's reading, assumption 14), it takes the offered byte;
otherwise nothing changes. In states of the invariant the offered byte is the frame's or a zero. -/
def Obligations.AcceptorTakesTheOfferedByte : Prop :=
  ∀ s : State, Inv s → nextMove s = .accept →
    (s.ret = none → s.seq = .txFrame → s.txidx < 12 * s.cfg.n → s.hold.pending.length < s.cfg.holdCap →
      (∀ b, s.cfg.txTimeout = some b → s.txticks < b) →
      ∃ v, (encodeFrame s.cfg.sym s.strip)[s.txidx]? = some v ∧
      step s = .next { afterMove s with
        hold := ⟨s.hold.pending ++ [v], true⟩, txidx := s.txidx + 1 }) ∧
    (s.ret = none → s.seq = .txReset → s.txidx < s.cfg.resetLen → s.hold.pending.length < s.cfg.holdCap →
      (∀ b, s.cfg.txTimeout = some b → s.txticks < b) →
      step s = .next { afterMove s with hold := ⟨s.hold.pending ++ [0], true⟩, txidx := s.txidx + 1 }) ∧
    (s.ret ≠ none ∨ (s.seq ≠ .txFrame ∧ s.seq ≠ .txReset) ∨ (s.seq = .txFrame ∧ 12 * s.cfg.n ≤ s.txidx) ∨
        (s.seq = .txReset ∧ s.cfg.resetLen ≤ s.txidx) ∨ s.cfg.holdCap ≤ s.hold.pending.length ∨
        (∃ b, s.cfg.txTimeout = some b ∧ b ≤ s.txticks) →
      step s = .next (afterMove s))

/-- R151, R109: a write of `n` bytes in progress completes exactly when `TXIDX = n`, and gives up exactly when a finite
`TX_TIMEOUT` has elapsed and `TXIDX < n`, with the bytes accepted so far; both set `TXIDX` to 0. R155's short return is
the model's draw (assumption 13). Once `TX_TIMEOUT` has elapsed on a write that is not fully accepted, nothing but the
give-up (and reset) ends the write or takes a byte (R109; assumption 14). -/
def Obligations.WritesReturnTheAcceptedCount : Prop :=
  ∀ (s : State) (n : Nat), s.ret = none →
    (s.seq = .txFrame ∧ n = 12 * s.cfg.n) ∨ (s.seq = .txReset ∧ n = s.cfg.resetLen) →
    (nextMove s = .complete → step s = .next
      (if s.txidx = n then { afterMove s with ret := some ⟨n, false⟩, txidx := 0, txticks := 0 } else afterMove s)) ∧
    (nextMove s = .giveUp → step s = .next
      (if s.txidx < n ∧ ∃ t, s.cfg.txTimeout = some t ∧ t ≤ s.txticks then
        { afterMove s with ret := some ⟨s.txidx, true⟩, txidx := 0, txticks := 0 } else afterMove s)) ∧
    (nextMove s = .cutShort → step s = .next
      (if s.txidx < n ∧ ∀ t, s.cfg.txTimeout = some t → s.txticks < t then
        { afterMove s with ret := some ⟨s.txidx, false⟩, txidx := 0, txticks := 0 } else afterMove s)) ∧
    (∀ b t, s.cfg.txTimeout = some b → b ≤ s.txticks → s.txidx < n → step s = .next t →
      nextMove s ≠ .giveUp → nextMove s ≠ .reset →
      t.ret = none ∧ t.seq = s.seq ∧ t.txidx = s.txidx ∧ t.txticks = s.txticks)

/-- R152, R153: the shifter sends the oldest pending byte; with nothing pending and a byte last on the wire, the line
goes idle (a gap, once). In a cycle that begins stale, which `Inv` excludes, one byte is sent too, and it is any value
(R159, assumption 17). -/
def Obligations.ShifterAndIdleLine : Prop :=
  ∀ s : State,
    (nextMove s = .shift → ∀ v rest, s.hold.pending = v :: rest →
      ∃ t b, step s = .next t ∧
        t = { afterMove s with hold := ⟨rest, s.hold.dirty⟩, wire := s.wire ++ [.byte b], draws := t.draws } ∧
        (wireHasMeaning s → b = v ∧ t.draws = (afterMove s).draws)) ∧
    (nextMove s = .shift → s.hold.pending = [] → step s = .next (afterMove s)) ∧
    (nextMove s = .idle → ∀ (es : List WireEvent) (v : Byte), s.hold.pending = [] → s.wire = es ++ [.byte v] →
      ∃ t, step s = .next t ∧ t.wire = s.wire ++ [.gap] ∧
        t = { afterMove s with wire := t.wire, wireFaults := t.wireFaults }) ∧
    (nextMove s = .idle → s.hold.pending ≠ [] ∨ s.wire = [] ∨ (∃ es, s.wire = es ++ [.gap]) →
      step s = .next (afterMove s))

/-- First in, first out (R152, R48 O4): whatever a step does that neither clears the holding buffer nor resets, the
bytes on the wire followed by those pending are as before, with at most the one byte accepted by that step added at
the end. -/
def Obligations.PeripheralIsFirstInFirstOut : Prop :=
  ∀ s t : State, wireHasMeaning s → nextMove s ≠ .reset → step s = .next t →
    (t.hold = ⟨[], false⟩ ∧ t.wire = s.wire) ∨
    wireBytes t.wire ++ t.hold.pending = wireBytes s.wire ++ s.hold.pending ∨
    (nextMove s = .accept ∧ ∃ v, wireBytes t.wire ++ t.hold.pending = wireBytes s.wire ++ s.hold.pending ++ [v])

/-- The frame of the peripheral's moves: they change nothing of the block but `TXIDX`, the count of ticks and the
pending return, and otherwise only the holding buffer and the wire. -/
def Obligations.PeripheralFrames : Prop :=
  ∀ s t : State,
    nextMove s = .accept ∨ nextMove s = .complete ∨ nextMove s = .giveUp ∨ nextMove s = .cutShort ∨
      nextMove s = .shift ∨ nextMove s = .idle →
    step s = .next t →
    t = { s with txidx := t.txidx, txticks := t.txticks, ret := t.ret, hold := t.hold, wire := t.wire,
                 wireFaults := t.wireFaults, sched := t.sched, draws := t.draws } ∧
    ∀ a, frameByte t a = frameByte s a

/-- R105, R109: a tick takes the Settle delay down by one, counts for the bound of a write in progress until that
bound is reached (the count itself is R183's second count, assumption 14), and otherwise changes nothing. -/
def Obligations.TicksCountForSettleAndTheBound : Prop :=
  ∀ s : State, nextMove s = .tick →
    (s.seq = .settle → 0 < s.tickcnt → step s = .next { afterMove s with tickcnt := s.tickcnt - 1 }) ∧
    (∀ b, s.seq = .txFrame ∨ s.seq = .txReset → s.ret = none → s.cfg.txTimeout = some b → s.txticks < b →
      step s = .next { afterMove s with txticks := s.txticks + 1 }) ∧
    (s.seq = .idle ∨ s.seq = .encode ∨ s.seq = .fault ∨ (s.seq = .settle ∧ s.tickcnt = 0) ∨
        (s.seq = .txFrame ∨ s.seq = .txReset) ∧
          (s.ret ≠ none ∨ s.cfg.txTimeout = none ∨ ∃ b, s.cfg.txTimeout = some b ∧ b ≤ s.txticks) →
      step s = .next (afterMove s))

/-! ### The step -/

/-- The command port runs what its word decodes to: the step is `exec` of that instruction in the state in which the
word is taken; outside a cycle the setter's calls note that (assumption 22). -/
def Obligations.StepRunsTheCommand : Prop :=
  ∀ (s : State) (w : CmdWord) (rest : List CmdWord) (i : Instr),
    nextMove s = .command → s.port = w :: rest → decode (.cmd48 w) = .ok i → i.wf = true →
    step s = exec i { afterMove s with
      port := rest
      setter := if busy s then s.setter else s.setter.map (wordTaken s) }

/-- The sequencer runs what the selector selects (R71), and SETTLE runs on ticks (R105): the step is `exec` of that
instruction. That a lookup in the symbol table is a move of its own, which runs the row of its index, is the model's
choice (assumption 18). -/
def Obligations.StepRunsTheSelected : Prop :=
  (∀ (s : State) (i : Instr), nextMove s = .sequence → decode (.usel4 (usel s)) = .ok i → i ≠ .settle →
    step s = exec i (afterMove s)) ∧
  (∀ s : State, nextMove s = .tick → decode (.usel4 (usel s)) = .ok .settle → step s = exec .settle (afterMove s)) ∧
  (∀ (s : State) (g : Group) (i : Instr), nextMove s = .lookup g → decode (.lut2 g) = .ok i →
    step s = exec i (afterMove s))

/-- A presented word is "not dropped" (R114). That several may wait, and that the oldest goes first, is the model's
choice (assumption 7): presenting a word adds it at the end, and no step but reset removes one other than the oldest,
which the port takes. Under H7 (R210) no more than the two words of one call of the setter ever wait. -/
def Obligations.PresentedWordsWaitInOrder : Prop :=
  (∀ (s : State) (w : CmdWord), nextMove s = .present w → step s = .next { afterMove s with port := s.port ++ [w] }) ∧
  (∀ s t : State, step s = .next t → nextMove s ≠ .reset →
    (∃ added, t.port = s.port ++ added) ∨ (nextMove s = .command ∧ busy s = false ∧ ∃ w, s.port = w :: t.port)) ∧
  (∀ s t : State, oneCommandAtATime s → s.port.length ≤ 2 → step s = .next t → t.port.length ≤ 2)

/-- R30: the fields of the status word, READY, the value after reset, and that a sample has no side effect. The codes of
`FAULT_KIND` and `FAULT_STAGE` are those of R27 and R72. -/
def Obligations.StatusWordFields : Prop :=
  (∀ s : State,
    (statusWord s).extractLsb' 0 3 = seqCode s.seq ∧
    ((statusWord s).getLsbD 3 = true ↔ s.inited = true) ∧
    ((statusWord s).getLsbD 4 = true ↔ s.fault = true) ∧
    (statusWord s).extractLsb' 5 2 = faultKindCode s.faultKind ∧
    (statusWord s).extractLsb' 7 1 = faultStageCode s.faultStage ∧
    ((statusWord s).getLsbD 8 = true ↔ s.seq = .idle ∧ s.fault = false) ∧
    (statusWord s).extractLsb' 9 7 = 0) ∧
  (faultKindCode .none = 0 ∧ faultKindCode .shortWrite = 1 ∧ faultKindCode .timeout = 2 ∧
    faultStageCode .frame = 0 ∧ faultStageCode .reset = 1) ∧
  (∀ p : Params, statusWord (State.resetOf p) = 0x0100) ∧
  (∀ s : State, nextMove s = .sample → step s = .next (afterMove s))

/-- R37, R200: the values the spec gives for reset, of every instance, and of the reset event from any state.
(`FRAME` and `HOLD` are unspecified there, and the model's own fields are not the spec's: no clause speaks of them.) -/
def Obligations.ResetValues : Prop :=
  (∀ p : Params, atReset p (State.resetOf p)) ∧
  (∀ s : State, nextMove s = .reset → ∃ t, step s = .next t ∧ atReset s.cfg t)

/-! ### The whole machine -/

/-- The invariant holds after reset, of every valid instance. (It speaks of fields whose reset values are the model's
choice, assumptions 5, 8, 12, 14, 16, 17, 22; that an unspecified `FRAME` lists nothing is its choice too,
assumption 4.) -/
def Obligations.InvariantHoldsAtReset : Prop :=
  (∀ p : Params, p.wf = true → Inv (State.resetOf p)) ∧ Inv State.reset ∧ ∀ p : Params, (State.resetOf p).frame = []

/-- Every step keeps the invariant. -/
def Obligations.StepKeepsInvariant : Prop :=
  ∀ s t : State, Inv s → step s = .next t → Inv t

/-- In states of the invariant a step always answers a next state, but for SET on a colour string the spec gives no
meaning (R134): no fault of the model is reachable. -/
def Obligations.StepsNeverStop : Prop :=
  ∀ s : State, Inv s →
    (∃ t, step s = .next t) ∨
    (step s = .refused .unclassifiedColour ∧ ∃ pos hex, nextMove s = .set pos hex ∧ parseColour hex = .noMeaning)

/-- R113: the complete transition table of `SEQ`, with the event of each line that leaves a state (UPDATE accepted, the
sequencer's step, the count it takes) and its condition; reset apart, no step makes any other transition. -/
def Obligations.SequencerTransitionTable : Prop :=
  ∀ s t : State, step s = .next t → nextMove s ≠ .reset →
    t.seq = s.seq ∨
    (nextMove s = .command ∧ (∃ w rest, s.port = w :: rest ∧ decodeCmd48 w = .ok .update) ∧ s.seq = .idle ∧
      s.inited = true ∧ s.fault = false ∧ t.seq = .encode) ∨
    (nextMove s = .sequence ∧ s.seq = .encode ∧ t.seq = .txFrame) ∨
    (nextMove s = .sequence ∧ s.seq = .txFrame ∧ t.seq = .txReset ∧ t.txcnt = 12 * s.cfg.n) ∨
    (nextMove s = .sequence ∧ s.seq = .txFrame ∧ t.seq = .fault ∧ t.txcnt ≠ 12 * s.cfg.n ∧ t.faultStage = .frame) ∨
    (nextMove s = .sequence ∧ s.seq = .txReset ∧ t.seq = .settle ∧ t.txcnt = s.cfg.resetLen ∧
      t.tickcnt = s.cfg.settleTicks) ∨
    (nextMove s = .sequence ∧ s.seq = .txReset ∧ t.seq = .fault ∧ t.txcnt ≠ s.cfg.resetLen ∧ t.faultStage = .reset) ∨
    (nextMove s = .sequence ∧ s.seq = .settle ∧ s.tickcnt = 0 ∧ t.seq = .idle ∧ t.hold = ⟨[], false⟩)

/-- R20: no operation other than SETPIX changes `STRIP`; a step that does is the command port running SETPIX, and it
changes one pixel. The premise H1 holds of every step (the model's moves hold no other writer, assumption 28). -/
def Obligations.OnlySetpixWritesStrip : Prop :=
  (∀ s t : State, step s = .next t → noOtherWriter s t) ∧
  ∀ s t : State, step s = .next t → nextMove s ≠ .reset → t.strip ≠ s.strip →
    nextMove s = .command ∧ busy s = false ∧
    ∃ (w : CmdWord) (pos : Pos) (color : Colour),
      s.port.head? = some w ∧ decodeCmd48 w = .ok (.setpix pos color) ∧
      t.strip = s.strip.set pos.toNat (pixelOf color) ∧ ∀ i, i ≠ pos.toNat → t.strip[i]? = s.strip[i]?

/-- R178: `FAULT` is terminal: no step but reset leaves it, clears a flag, changes what the failed cycle left, or
starts a write, and a command is only answered with `Faulted`; reset leaves it. -/
def Obligations.FaultIsTerminal : Prop :=
  ∀ s : State, s.fault = true → s.seq = .fault →
    (∀ t, nextMove s ≠ .reset → step s = .next t →
      t.fault = true ∧ t.seq = .fault ∧ t.faultKind = s.faultKind ∧ t.faultStage = s.faultStage ∧
      t.strip = s.strip ∧ (∀ a, frameByte t a = frameByte s a) ∧ t.txcnt = s.txcnt ∧ t.tickcnt = s.tickcnt ∧
      t.inited = s.inited ∧ t.acceptLog = s.acceptLog ∧ (t.resp = s.resp ∨ t.resp = some .faulted)) ∧
    (nextMove s = .reset → ∃ t, step s = .next t ∧ t.fault = false ∧ t.seq = .idle)

/-- R171, R172: the fault is raised by TXFRAME and TXRESET alone, when a write returned short, with the kind and the
stage of that write and its count in `TXCNT`. -/
def Obligations.FaultsComeFromShortWrites : Prop :=
  ∀ s t : State, s.fault = false → step s = .next t → t.fault = true →
    nextMove s = .sequence ∧
    ∃ r, s.ret = some r ∧ t.txcnt = r.written ∧ t.faultKind = (if r.timedOut = true then .timeout else .shortWrite) ∧
      t.resp = some .transmissionFault ∧
      ((s.seq = .txFrame ∧ r.written < 12 * s.cfg.n ∧ t.faultStage = .frame) ∨
       (s.seq = .txReset ∧ r.written < s.cfg.resetLen ∧ t.faultStage = .reset))

/-- R172, R109: with `TX_TIMEOUT = INF` no write gives up and no fault is of the kind `Timeout`: the property is kept
by every step. -/
def Obligations.NoTimeoutWithoutABound : Prop :=
  ∀ s t : State, s.cfg.txTimeout = none → (∀ r, s.ret = some r → r.timedOut = false) → s.faultKind ≠ .timeout →
    step s = .next t →
    t.cfg.txTimeout = none ∧ (∀ r, t.ret = some r → r.timedOut = false) ∧ t.faultKind ≠ .timeout

/-- R33, R176: the histories are append-only (reset apart), `ACCEPT_LOG` grows only by the sequencer and `WIRE` only by
the shifter; a clear that discards bytes is seen as `TruncatedByClear`, a gap between frame bytes (R156) as `Underrun`,
and a frame write that begins with `HOLD` not clear (R32, R159) as `StaleHold` (the model's record of them, assumption
16, which reads a gap between frame bytes as one that falls while the frame write has accepted some of its bytes and not
all). -/
def Obligations.HistoriesOnlyGrow : Prop :=
  ∀ s t : State, step s = .next t → nextMove s ≠ .reset →
    (∃ l, t.acceptLog = s.acceptLog ++ l ∧ l.length ≤ 1 ∧ (nextMove s ≠ .sequence → l = [])) ∧
    (∃ l, t.wire = s.wire ++ l ∧ l.length ≤ 1 ∧ (nextMove s ≠ .shift → nextMove s ≠ .idle → l = [])) ∧
    (∃ l, t.wireFaults = s.wireFaults ++ l ∧
      (.truncatedByClear ∈ l ↔
        nextMove s = .sequence ∧ s.seq = .settle ∧ s.tickcnt = 0 ∧ s.hold.pending ≠ []) ∧
      (.underrun ∈ l ↔ nextMove s = .idle ∧ t.wire ≠ s.wire ∧ s.seq = .txFrame ∧ s.ret = none ∧ 0 < s.txidx ∧
        s.txidx < 12 * s.cfg.n) ∧
      (.staleHold ∈ l ↔ nextMove s = .sequence ∧ s.seq = .encode ∧ (s.hold.pending ≠ [] ∨ s.hold.dirty = true)))

/-- R31, R51, R23: no step writes a configuration constant (the symbol table among them), and the reset buffer keeps
its zeros. -/
def Obligations.ConstantsNeverChange : Prop :=
  ∀ s t : State, step s = .next t →
    t.cfg = s.cfg ∧
    (s.resetBuf = List.replicate s.cfg.resetLen 0 → t.resetBuf = List.replicate t.cfg.resetLen 0)

/-- R26, R200, R202: `INITED` is set by INIT alone and cleared by reset alone. -/
def Obligations.InitedIsSetOnceByInit : Prop :=
  ∀ s t : State, step s = .next t →
    (t.inited = true → s.inited = false →
      nextMove s = .command ∧ ∃ w, s.port.head? = some w ∧ decodeCmd48 w = .ok .init ∧ t.resp = some .ok) ∧
    (t.inited = false → s.inited = true → nextMove s = .reset)

/-- R111, R115: what a cycle has logged so far, whatever the peripheral, the host and the tick source do: every step
of a cycle keeps it, up to and with the step that ends the cycle or enters the fault; and no step of a cycle changes
`STRIP`. -/
def Obligations.StepKeepsCycleLog : Prop :=
  ∀ (L : List LogEntry) (s t : State), Inv s → busy s = true → cycleLog L s → nextMove s ≠ .reset →
    step s = .next t → cycleLog L t ∧ t.strip = s.strip

/-- R111, R115: the outcome of EVERY cycle. From the acceptance of UPDATE, along any run without a reset, a cycle that
ends in `IDLE` has logged exactly the frame write, the reset write and the clear, and has left `STRIP`, the frame,
the counters and the response as R111 says; one that ends in `FAULT` has left what R115 says. -/
def Obligations.EveryCycleLogsFrameResetClear : Prop :=
  ∀ s u t : State, Inv s → s.seq = .idle → s.fault = false → s.inited = true → exec .update s = .next u →
    CycleRun (fun m => m ≠ .reset) u t →
    t.strip = s.strip ∧
    (t.seq = .idle →
      t.acceptLog = s.acceptLog ++
        [.write .frameBuf (encodeFrame s.cfg.sym s.strip) (12 * s.cfg.n),
         .write .resetBuf (List.replicate s.cfg.resetLen 0) s.cfg.resetLen, .clear] ∧
      t.txcnt = s.cfg.resetLen ∧ t.tickcnt = 0 ∧ t.fault = false ∧ t.resp = some .ok ∧ t.hold = ⟨[], false⟩ ∧
      t.resetBuf = List.replicate s.cfg.resetLen 0 ∧
      readFrame t 0 (12 * s.cfg.n) = encodeFrame s.cfg.sym s.strip) ∧
    (t.seq = .fault →
      t.fault = true ∧ t.resp = some .transmissionFault ∧
      readFrame t 0 (12 * s.cfg.n) = encodeFrame s.cfg.sym s.strip ∧
      ((t.faultStage = .frame ∧ t.txcnt < 12 * s.cfg.n ∧
          t.acceptLog = s.acceptLog ++
            [.write .frameBuf ((encodeFrame s.cfg.sym s.strip).take t.txcnt) (12 * s.cfg.n)]) ∨
       (t.faultStage = .reset ∧ t.txcnt < s.cfg.resetLen ∧
          t.acceptLog = s.acceptLog ++
            [.write .frameBuf (encodeFrame s.cfg.sym s.strip) (12 * s.cfg.n),
             .write .resetBuf (List.replicate t.txcnt 0) s.cfg.resetLen])))

/-- R156, R160: what a cycle has put on the wire so far, under P1 (R155), of which it needs that no write returns short:
every step of a cycle keeps it. -/
def Obligations.StepKeepsCycleWire : Prop :=
  ∀ (W : List WireEvent) (F : List WireFault) (s t : State), Inv s → busy s = true → cycleWire W F s →
    nextMove s ≠ .reset → fullWriteMove s.cfg (nextMove s) → step s = .next t → cycleWire W F t

/-- R160: the wire-level result of EVERY successful cycle. Of P1 it needs that no write returns short; A1 and A2 hold of
a cycle exactly when it adds no wire-level fault. `WIRE` grows by the bytes of the frame without a gap among them, then
Z zero bytes, gaps standing only before the frame, after it, or among the zeros. Under *idle low* the same as levels:
the wire bits of the frame, low before them and low after them, for at least the `8 * Z` bits of the zeros. -/
def Obligations.EveryCycleSendsFrameThenReset : Prop :=
  ∀ s u t : State, Inv s → s.seq = .idle → s.fault = false → s.inited = true → exec .update s = .next u →
    CycleRun (fun m => m ≠ .reset ∧ fullWriteMove s.cfg m) u t → t.seq = .idle → t.wireFaults = s.wireFaults →
    ∃ ws, t.wire = s.wire ++ ws ∧
      wireBytes ws = encodeFrame s.cfg.sym s.strip ++ List.replicate s.cfg.resetLen 0 ∧
      gapFree (12 * s.cfg.n) 0 ws = true ∧
      ∀ idleLevel, idleLow idleLevel →
        ∃ before after, wireLevels idleLevel ws = before ++ wireBits (encodeFrame s.cfg.sym s.strip) ++ after ∧
          (∀ b ∈ before ++ after, b = false) ∧ 8 * s.cfg.resetLen ≤ after.length

/-- R111: a cycle can succeed. From every state of the invariant in which UPDATE waits at an idle, initialised block (and
a write is not given up before its first byte, as under `TX_TIMEOUT = 0`), with a schedule in which the peripheral accepts and sends every byte, the run ends with the cycle complete, the whole
frame and the zeros on the wire, and everything else the host can see as before. -/
def Obligations.ACycleCanComplete : Prop :=
  ∀ (s : State) (w : CmdWord) (rest : List CmdWord), Inv s → s.seq = .idle → s.fault = false → s.inited = true →
    s.cfg.txTimeout ≠ some 0 → s.port = w :: rest → decodeCmd48 w = .ok .update →
    ∃ (ms : List Move) (t : State),
      (∀ m ∈ ms, m ≠ .reset ∧ fullWriteMove s.cfg m) ∧
      (∀ later, core.run ms.length { s with sched := ms ++ later } = .next { t with sched := later }) ∧
      t.seq = .idle ∧ t.port = rest ∧ t.resp = some .ok ∧ t.strip = s.strip ∧ t.txcnt = s.cfg.resetLen ∧
      t.fault = false ∧ t.hold = ⟨[], false⟩ ∧ t.wireFaults = s.wireFaults ∧
      readFrame t 0 (12 * s.cfg.n) = encodeFrame s.cfg.sym s.strip ∧
      t.acceptLog = s.acceptLog ++
        [.write .frameBuf (encodeFrame s.cfg.sym s.strip) (12 * s.cfg.n),
         .write .resetBuf (List.replicate s.cfg.resetLen 0) s.cfg.resetLen, .clear] ∧
      t.wire = s.wire ++ (encodeFrame s.cfg.sym s.strip ++ List.replicate s.cfg.resetLen 0).map .byte

/-! ### The setter -/

/-- R132, R133, R135, R136, R137: position validation rejects exactly `pos < 0` and `pos ≥ N`, an omitted position is
0, a validation error issues nothing and returns 1, and valid arguments issue SETPIX and then exactly one UPDATE. A call
returns once and for all, and only when its UPDATE is answered: 0 when the refresh ends in `IDLE`, a value other than 0
when it ends in `FAULT` (U9), and 0, as the pseudocode says, when the UPDATE is refused. It has not returned as long as
its UPDATE waits or its cycle runs. That SET is one move of the host
which puts both words at the port at once, and that State records its calls, is the model's choice (assumptions 7, 21
and 22). -/
def Obligations.SetterValidatesAndIssues : Prop :=
  (∀ (n : Nat) (pos : Int), posValid n pos = true ↔ 0 ≤ pos ∧ pos < (n : Int)) ∧
  (∀ (s : State) (pos : Option Int) (hex : List Char), nextMove s = .set pos hex →
    (¬ (0 ≤ pos.getD 0 ∧ pos.getD 0 < (s.cfg.n : Int)) →
      ∃ c, step s = .next { afterMove s with setter := s.setter ++ [c] } ∧
        c.outcome = .badPosition ∧ ∀ t, setStatus c t = some 1) ∧
    (0 ≤ pos.getD 0 → pos.getD 0 < (s.cfg.n : Int) → parseColour hex = .reject →
      ∃ c, step s = .next { afterMove s with setter := s.setter ++ [c] } ∧
        c.outcome = .badColour ∧ ∀ t, setStatus c t = some 1) ∧
    (∀ color, 0 ≤ pos.getD 0 → pos.getD 0 < (s.cfg.n : Int) → parseColour hex = .value color →
      ∃ c, step s = .next { afterMove s with
          port := s.port ++ [cmdWordOf 0x02 (BitVec.ofNat 16 (pos.getD 0).toNat) color, cmdWordOf 0x03 0 0]
          setter := s.setter ++ [c]
          draws := (afterMove s).draws + 1 } ∧
        c.outcome = .issued (BitVec.ofNat 16 (pos.getD 0).toNat) color ∧ ∀ t, setStatus c t = none)) ∧
  (∀ (s t : State) (i : Nat) (c : SetCall), Inv s → step s = .next t → nextMove s ≠ .reset → s.setter[i]? = some c →
    ∃ d, t.setter[i]? = some d ∧ d.outcome = c.outcome ∧
      (∀ v, setStatus c s = some v → setStatus d t = some v) ∧
      (∀ v, setStatus c s = none → setStatus d t = some v →
        (nextMove s = .sequence ∧ s.seq = .settle ∧ t.seq = .idle ∧ t.resp = some .ok ∧ v = 0) ∨
        (nextMove s = .sequence ∧ (s.seq = .txFrame ∨ s.seq = .txReset) ∧ t.seq = .fault ∧
          t.resp = some .transmissionFault ∧ v ≠ 0) ∨
        (nextMove s = .command ∧ s.port.head? = some (cmdWordOf 0x03 0 0) ∧ t.seq = s.seq ∧
          (t.resp = some .faulted ∨ t.resp = some .notInitialised) ∧ v = 0))) ∧
  (∀ (s : State) (c : SetCall), Inv s → c ∈ s.setter → c.status = none →
    (setStatus c s = none ↔ 0 < c.ahead ∨ busy s = true))

/-- R134: one to six hexadecimal digits of either case are accepted with the number they spell, most significant digit
first, the digits being `0-9`, `a-f` and `A-F` with the values 0 to 15; a string whose leading hexadecimal digits (at least one, and not a `0x` prefix) are followed by any other
character is rejected; the strings the source does not settle have no meaning. Which characters are white space (those
`Char.isWhitespace` holds of) is the model's choice (assumption 21). -/
def Obligations.ColourParsing : Prop :=
  (∀ (c : Char) (d : Nat), hexDigit c = some d ↔
    ['0', '1', '2', '3', '4', '5', '6', '7', '8', '9', 'a', 'b', 'c', 'd', 'e', 'f'][d]? = some c ∨
    ['0', '1', '2', '3', '4', '5', '6', '7', '8', '9', 'A', 'B', 'C', 'D', 'E', 'F'][d]? = some c) ∧
  (∀ (hex : List Char), hex ≠ [] → hex.length ≤ 6 → (∀ c ∈ hex, (hexDigit c).isSome = true) →
    parseColour hex = .value (BitVec.ofNat 24 (hex.foldl (fun acc c => 16 * acc + (hexDigit c).getD 0) 0))) ∧
  (∀ (digits rest : List Char) (c : Char), digits ≠ [] → (∀ d ∈ digits, (hexDigit d).isSome = true) →
    hexDigit c = none → ¬ (digits = ['0'] ∧ c = 'x') →
    parseColour (digits ++ c :: rest) = .reject) ∧
  (∀ (hex : List Char), 6 < hex.length → (∀ c ∈ hex, (hexDigit c).isSome = true) → parseColour hex = .noMeaning) ∧
  (∀ rest : List Char, parseColour [] = .noMeaning ∧ parseColour ('+' :: rest) = .noMeaning ∧
    parseColour ('-' :: rest) = .noMeaning ∧ (∀ c, c.isWhitespace = true → parseColour (c :: rest) = .noMeaning) ∧
    parseColour ('0' :: 'x' :: rest) = .noMeaning)
end

