-- ==== Sys2Proof/Laws/Decode.lean ====
section
/-! SUPPORT. The three fields of a command word and the word they make are inverse to each other. -/

namespace Sys2Proof.Laws

@[simp] theorem cmdOp_cmdWordOf (op : Byte) (pos : Pos) (color : Colour) : cmdOp (cmdWordOf op pos color) = op := by
  apply BitVec.eq_of_getLsbD_eq
  intro i hi
  have h1 : ¬ (40 + i < 24) := by omega
  have h2 : ¬ (40 + i - 24 < 16) := by omega
  have h3 : 40 + i - 24 - 16 = i := by omega
  simp only [cmdWordOf, cmdOp, BitVec.getLsbD_append, BitVec.getLsbD_extractLsb']
  simp [h1, h2, h3, hi]

@[simp] theorem cmdPos_cmdWordOf (op : Byte) (pos : Pos) (color : Colour) :
    cmdPos (cmdWordOf op pos color) = pos := by
  apply BitVec.eq_of_getLsbD_eq
  intro i hi
  have h1 : ¬ (24 + i < 24) := by omega
  simp only [cmdWordOf, cmdPos, BitVec.getLsbD_append, BitVec.getLsbD_extractLsb']
  simp [h1, hi]

@[simp] theorem cmdColour_cmdWordOf (op : Byte) (pos : Pos) (color : Colour) :
    cmdColour (cmdWordOf op pos color) = color := by
  apply BitVec.eq_of_getLsbD_eq
  intro i hi
  simp only [cmdWordOf, cmdColour, BitVec.getLsbD_append, BitVec.getLsbD_extractLsb']
  simp [hi]

/-- No bit of a command word is outside its three fields. -/
theorem cmdWordOf_fields (w : CmdWord) : cmdWordOf (cmdOp w) (cmdPos w) (cmdColour w) = w := by
  apply BitVec.eq_of_getLsbD_eq
  intro i hi
  simp only [cmdWordOf, cmdOp, cmdPos, cmdColour, BitVec.getLsbD_append, BitVec.getLsbD_extractLsb']
  by_cases h1 : i < 24
  · simp [h1]
  · by_cases h2 : i - 24 < 16
    · have h3 : i < 24 + 16 := by omega
      have h4 : 24 + (i - 24) = i := by omega
      simp [h1, h2, h4]
    · have h3 : 40 + (i - 24 - 16) = i := by omega
      have h4 : i - 24 - 16 < 8 := by omega
      simp [h1, h2, h3, h4]

end Sys2Proof.Laws
end

