-- ==== Sys2Proof/Laws/Encoder.lean ====
section
/-! SUPPORT. The small lemmas of the encoder's functions: lengths, the recursion of a frame, what a lookup can
answer. -/

namespace Sys2Proof.Machine

@[simp] theorem encodeChannel_length (t : SymTable) (c : Byte) : (encodeChannel t c).length = 4 := rfl

@[simp] theorem encodePixel_length (t : SymTable) (p : Pixel) : (encodePixel t p).length = 12 := rfl

@[simp] theorem encodeFrame_nil (t : SymTable) : encodeFrame t [] = [] := rfl

@[simp] theorem encodeFrame_cons (t : SymTable) (p : Pixel) (ps : List Pixel) :
    encodeFrame t (p :: ps) = encodePixel t p ++ encodeFrame t ps := rfl

/-- A group has one of four values. -/
theorem group_cases (g : Group) : g = 0 ∨ g = 1 ∨ g = 2 ∨ g = 3 := by
  revert g; decide

/-- A lookup answers an entry of the table. -/
theorem symLookup_mem (t : SymTable) (g : Group) : symLookup t g ∈ [t.t0, t.t1, t.t2, t.t3] := by
  rcases group_cases g with rfl | rfl | rfl | rfl <;> simp [symLookup]

end Sys2Proof.Machine
end

