-- ==== Sys2Proof/Laws/State.lean ====
section
/-! SUPPORT. One lemma per field per update, each true by rfl, so that no later proof unfolds a record update: the
operations of Machine/Ops.lean, Machine/Commands.lean, Machine/Setter.lean and Machine/Peripheral.lean that change the state without a
condition, and taking the next move from the schedule. -/

namespace Sys2Proof.Machine

/-! ### respond -/

@[simp] theorem respond_cfg (r : Resp) (s : State) : (respond r s).cfg = s.cfg := rfl
@[simp] theorem respond_strip (r : Resp) (s : State) : (respond r s).strip = s.strip := rfl
@[simp] theorem respond_frame (r : Resp) (s : State) : (respond r s).frame = s.frame := rfl
@[simp] theorem respond_resetBuf (r : Resp) (s : State) : (respond r s).resetBuf = s.resetBuf := rfl
@[simp] theorem respond_seq (r : Resp) (s : State) : (respond r s).seq = s.seq := rfl
@[simp] theorem respond_inited (r : Resp) (s : State) : (respond r s).inited = s.inited := rfl
@[simp] theorem respond_fault (r : Resp) (s : State) : (respond r s).fault = s.fault := rfl
@[simp] theorem respond_faultKind (r : Resp) (s : State) : (respond r s).faultKind = s.faultKind := rfl
@[simp] theorem respond_faultStage (r : Resp) (s : State) : (respond r s).faultStage = s.faultStage := rfl
@[simp] theorem respond_txcnt (r : Resp) (s : State) : (respond r s).txcnt = s.txcnt := rfl
@[simp] theorem respond_txidx (r : Resp) (s : State) : (respond r s).txidx = s.txidx := rfl
@[simp] theorem respond_tickcnt (r : Resp) (s : State) : (respond r s).tickcnt = s.tickcnt := rfl
@[simp] theorem respond_txticks (r : Resp) (s : State) : (respond r s).txticks = s.txticks := rfl
@[simp] theorem respond_ret (r : Resp) (s : State) : (respond r s).ret = s.ret := rfl
@[simp] theorem respond_hold (r : Resp) (s : State) : (respond r s).hold = s.hold := rfl
@[simp] theorem respond_acceptLog (r : Resp) (s : State) : (respond r s).acceptLog = s.acceptLog := rfl
@[simp] theorem respond_wire (r : Resp) (s : State) : (respond r s).wire = s.wire := rfl
@[simp] theorem respond_resp (r : Resp) (s : State) : (respond r s).resp = some r := rfl
@[simp] theorem respond_port (r : Resp) (s : State) : (respond r s).port = s.port := rfl
@[simp] theorem respond_wireFaults (r : Resp) (s : State) : (respond r s).wireFaults = s.wireFaults := rfl
@[simp] theorem respond_staleCycle (r : Resp) (s : State) : (respond r s).staleCycle = s.staleCycle := rfl
@[simp] theorem respond_symOut (r : Resp) (s : State) : (respond r s).symOut = s.symOut := rfl
@[simp] theorem respond_setter (r : Resp) (s : State) : (respond r s).setter = s.setter := rfl
@[simp] theorem respond_sched (r : Resp) (s : State) : (respond r s).sched = s.sched := rfl
@[simp] theorem respond_draws (r : Resp) (s : State) : (respond r s).draws = s.draws := rfl
@[simp] theorem respond_frameEpoch (r : Resp) (s : State) : (respond r s).frameEpoch = s.frameEpoch := rfl

/-! ### holdWord -/

@[simp] theorem holdWord_cfg (w : CmdWord) (s : State) : (holdWord w s).cfg = s.cfg := rfl
@[simp] theorem holdWord_strip (w : CmdWord) (s : State) : (holdWord w s).strip = s.strip := rfl
@[simp] theorem holdWord_frame (w : CmdWord) (s : State) : (holdWord w s).frame = s.frame := rfl
@[simp] theorem holdWord_resetBuf (w : CmdWord) (s : State) : (holdWord w s).resetBuf = s.resetBuf := rfl
@[simp] theorem holdWord_seq (w : CmdWord) (s : State) : (holdWord w s).seq = s.seq := rfl
@[simp] theorem holdWord_inited (w : CmdWord) (s : State) : (holdWord w s).inited = s.inited := rfl
@[simp] theorem holdWord_fault (w : CmdWord) (s : State) : (holdWord w s).fault = s.fault := rfl
@[simp] theorem holdWord_faultKind (w : CmdWord) (s : State) : (holdWord w s).faultKind = s.faultKind := rfl
@[simp] theorem holdWord_faultStage (w : CmdWord) (s : State) : (holdWord w s).faultStage = s.faultStage := rfl
@[simp] theorem holdWord_txcnt (w : CmdWord) (s : State) : (holdWord w s).txcnt = s.txcnt := rfl
@[simp] theorem holdWord_txidx (w : CmdWord) (s : State) : (holdWord w s).txidx = s.txidx := rfl
@[simp] theorem holdWord_tickcnt (w : CmdWord) (s : State) : (holdWord w s).tickcnt = s.tickcnt := rfl
@[simp] theorem holdWord_txticks (w : CmdWord) (s : State) : (holdWord w s).txticks = s.txticks := rfl
@[simp] theorem holdWord_ret (w : CmdWord) (s : State) : (holdWord w s).ret = s.ret := rfl
@[simp] theorem holdWord_hold (w : CmdWord) (s : State) : (holdWord w s).hold = s.hold := rfl
@[simp] theorem holdWord_acceptLog (w : CmdWord) (s : State) : (holdWord w s).acceptLog = s.acceptLog := rfl
@[simp] theorem holdWord_wire (w : CmdWord) (s : State) : (holdWord w s).wire = s.wire := rfl
@[simp] theorem holdWord_resp (w : CmdWord) (s : State) : (holdWord w s).resp = s.resp := rfl
@[simp] theorem holdWord_port (w : CmdWord) (s : State) : (holdWord w s).port = w :: s.port := rfl
@[simp] theorem holdWord_wireFaults (w : CmdWord) (s : State) : (holdWord w s).wireFaults = s.wireFaults := rfl
@[simp] theorem holdWord_staleCycle (w : CmdWord) (s : State) : (holdWord w s).staleCycle = s.staleCycle := rfl
@[simp] theorem holdWord_symOut (w : CmdWord) (s : State) : (holdWord w s).symOut = s.symOut := rfl
@[simp] theorem holdWord_setter (w : CmdWord) (s : State) : (holdWord w s).setter = s.setter := rfl
@[simp] theorem holdWord_sched (w : CmdWord) (s : State) : (holdWord w s).sched = s.sched := rfl
@[simp] theorem holdWord_draws (w : CmdWord) (s : State) : (holdWord w s).draws = s.draws := rfl
@[simp] theorem holdWord_frameEpoch (w : CmdWord) (s : State) : (holdWord w s).frameEpoch = s.frameEpoch := rfl

/-! ### takeWord -/

@[simp] theorem takeWord_cfg (rest : List CmdWord) (s : State) : (takeWord rest s).cfg = s.cfg := rfl
@[simp] theorem takeWord_strip (rest : List CmdWord) (s : State) : (takeWord rest s).strip = s.strip := rfl
@[simp] theorem takeWord_frame (rest : List CmdWord) (s : State) : (takeWord rest s).frame = s.frame := rfl
@[simp] theorem takeWord_resetBuf (rest : List CmdWord) (s : State) : (takeWord rest s).resetBuf = s.resetBuf := rfl
@[simp] theorem takeWord_seq (rest : List CmdWord) (s : State) : (takeWord rest s).seq = s.seq := rfl
@[simp] theorem takeWord_inited (rest : List CmdWord) (s : State) : (takeWord rest s).inited = s.inited := rfl
@[simp] theorem takeWord_fault (rest : List CmdWord) (s : State) : (takeWord rest s).fault = s.fault := rfl
@[simp] theorem takeWord_faultKind (rest : List CmdWord) (s : State) : (takeWord rest s).faultKind = s.faultKind := rfl
@[simp] theorem takeWord_faultStage (rest : List CmdWord) (s : State) : (takeWord rest s).faultStage = s.faultStage := rfl
@[simp] theorem takeWord_txcnt (rest : List CmdWord) (s : State) : (takeWord rest s).txcnt = s.txcnt := rfl
@[simp] theorem takeWord_txidx (rest : List CmdWord) (s : State) : (takeWord rest s).txidx = s.txidx := rfl
@[simp] theorem takeWord_tickcnt (rest : List CmdWord) (s : State) : (takeWord rest s).tickcnt = s.tickcnt := rfl
@[simp] theorem takeWord_txticks (rest : List CmdWord) (s : State) : (takeWord rest s).txticks = s.txticks := rfl
@[simp] theorem takeWord_ret (rest : List CmdWord) (s : State) : (takeWord rest s).ret = s.ret := rfl
@[simp] theorem takeWord_hold (rest : List CmdWord) (s : State) : (takeWord rest s).hold = s.hold := rfl
@[simp] theorem takeWord_acceptLog (rest : List CmdWord) (s : State) : (takeWord rest s).acceptLog = s.acceptLog := rfl
@[simp] theorem takeWord_wire (rest : List CmdWord) (s : State) : (takeWord rest s).wire = s.wire := rfl
@[simp] theorem takeWord_resp (rest : List CmdWord) (s : State) : (takeWord rest s).resp = s.resp := rfl
@[simp] theorem takeWord_port (rest : List CmdWord) (s : State) : (takeWord rest s).port = rest := rfl
@[simp] theorem takeWord_wireFaults (rest : List CmdWord) (s : State) : (takeWord rest s).wireFaults = s.wireFaults := rfl
@[simp] theorem takeWord_staleCycle (rest : List CmdWord) (s : State) : (takeWord rest s).staleCycle = s.staleCycle := rfl
@[simp] theorem takeWord_symOut (rest : List CmdWord) (s : State) : (takeWord rest s).symOut = s.symOut := rfl
@[simp] theorem takeWord_setter (rest : List CmdWord) (s : State) : (takeWord rest s).setter = (if busy s then s.setter else s.setter.map (wordTaken s)) := rfl
@[simp] theorem takeWord_sched (rest : List CmdWord) (s : State) : (takeWord rest s).sched = s.sched := rfl
@[simp] theorem takeWord_draws (rest : List CmdWord) (s : State) : (takeWord rest s).draws = s.draws := rfl
@[simp] theorem takeWord_frameEpoch (rest : List CmdWord) (s : State) : (takeWord rest s).frameEpoch = s.frameEpoch := rfl

@[simp] theorem takeWord_busy (rest : List CmdWord) (s : State) : busy (takeWord rest s) = busy s := rfl
@[simp] theorem takeWord_refusesFaulted (rest : List CmdWord) (s : State) :
    refusesFaulted (takeWord rest s) = refusesFaulted s := rfl

/-- During a cycle a word that is taken is put back, and nothing has changed. -/
theorem holdWord_takeWord {w : CmdWord} {rest : List CmdWord} {s : State} (hp : s.port = w :: rest)
    (hb : busy s = true) : holdWord w (takeWord rest s) = s := by
  simp [holdWord, takeWord, hb, ← hp]

/-! ### recordCall -/

@[simp] theorem recordCall_cfg (o : SetOutcome) (s : State) : (recordCall o s).cfg = s.cfg := rfl
@[simp] theorem recordCall_strip (o : SetOutcome) (s : State) : (recordCall o s).strip = s.strip := rfl
@[simp] theorem recordCall_frame (o : SetOutcome) (s : State) : (recordCall o s).frame = s.frame := rfl
@[simp] theorem recordCall_resetBuf (o : SetOutcome) (s : State) : (recordCall o s).resetBuf = s.resetBuf := rfl
@[simp] theorem recordCall_seq (o : SetOutcome) (s : State) : (recordCall o s).seq = s.seq := rfl
@[simp] theorem recordCall_inited (o : SetOutcome) (s : State) : (recordCall o s).inited = s.inited := rfl
@[simp] theorem recordCall_fault (o : SetOutcome) (s : State) : (recordCall o s).fault = s.fault := rfl
@[simp] theorem recordCall_faultKind (o : SetOutcome) (s : State) : (recordCall o s).faultKind = s.faultKind := rfl
@[simp] theorem recordCall_faultStage (o : SetOutcome) (s : State) : (recordCall o s).faultStage = s.faultStage := rfl
@[simp] theorem recordCall_txcnt (o : SetOutcome) (s : State) : (recordCall o s).txcnt = s.txcnt := rfl
@[simp] theorem recordCall_txidx (o : SetOutcome) (s : State) : (recordCall o s).txidx = s.txidx := rfl
@[simp] theorem recordCall_tickcnt (o : SetOutcome) (s : State) : (recordCall o s).tickcnt = s.tickcnt := rfl
@[simp] theorem recordCall_txticks (o : SetOutcome) (s : State) : (recordCall o s).txticks = s.txticks := rfl
@[simp] theorem recordCall_ret (o : SetOutcome) (s : State) : (recordCall o s).ret = s.ret := rfl
@[simp] theorem recordCall_hold (o : SetOutcome) (s : State) : (recordCall o s).hold = s.hold := rfl
@[simp] theorem recordCall_acceptLog (o : SetOutcome) (s : State) : (recordCall o s).acceptLog = s.acceptLog := rfl
@[simp] theorem recordCall_wire (o : SetOutcome) (s : State) : (recordCall o s).wire = s.wire := rfl
@[simp] theorem recordCall_resp (o : SetOutcome) (s : State) : (recordCall o s).resp = s.resp := rfl
@[simp] theorem recordCall_port (o : SetOutcome) (s : State) : (recordCall o s).port = s.port ++ setWords o := rfl
@[simp] theorem recordCall_wireFaults (o : SetOutcome) (s : State) : (recordCall o s).wireFaults = s.wireFaults := rfl
@[simp] theorem recordCall_staleCycle (o : SetOutcome) (s : State) : (recordCall o s).staleCycle = s.staleCycle := rfl
@[simp] theorem recordCall_symOut (o : SetOutcome) (s : State) : (recordCall o s).symOut = s.symOut := rfl
@[simp] theorem recordCall_setter (o : SetOutcome) (s : State) : (recordCall o s).setter = s.setter ++ [setCall o s] := rfl
@[simp] theorem recordCall_sched (o : SetOutcome) (s : State) : (recordCall o s).sched = s.sched := rfl
@[simp] theorem recordCall_draws (o : SetOutcome) (s : State) : (recordCall o s).draws = s.draws + setDraws o := rfl
@[simp] theorem recordCall_frameEpoch (o : SetOutcome) (s : State) : (recordCall o s).frameEpoch = s.frameEpoch := rfl

/-! ### faultEntry -/

@[simp] theorem faultEntry_cfg (k : FaultKind) (g : FaultStage) (s : State) : (faultEntry k g s).cfg = s.cfg := rfl
@[simp] theorem faultEntry_strip (k : FaultKind) (g : FaultStage) (s : State) : (faultEntry k g s).strip = s.strip := rfl
@[simp] theorem faultEntry_frame (k : FaultKind) (g : FaultStage) (s : State) : (faultEntry k g s).frame = s.frame := rfl
@[simp] theorem faultEntry_resetBuf (k : FaultKind) (g : FaultStage) (s : State) : (faultEntry k g s).resetBuf = s.resetBuf := rfl
@[simp] theorem faultEntry_seq (k : FaultKind) (g : FaultStage) (s : State) : (faultEntry k g s).seq = .fault := rfl
@[simp] theorem faultEntry_inited (k : FaultKind) (g : FaultStage) (s : State) : (faultEntry k g s).inited = s.inited := rfl
@[simp] theorem faultEntry_fault (k : FaultKind) (g : FaultStage) (s : State) : (faultEntry k g s).fault = true := rfl
@[simp] theorem faultEntry_faultKind (k : FaultKind) (g : FaultStage) (s : State) : (faultEntry k g s).faultKind = k := rfl
@[simp] theorem faultEntry_faultStage (k : FaultKind) (g : FaultStage) (s : State) : (faultEntry k g s).faultStage = g := rfl
@[simp] theorem faultEntry_txcnt (k : FaultKind) (g : FaultStage) (s : State) : (faultEntry k g s).txcnt = s.txcnt := rfl
@[simp] theorem faultEntry_txidx (k : FaultKind) (g : FaultStage) (s : State) : (faultEntry k g s).txidx = s.txidx := rfl
@[simp] theorem faultEntry_tickcnt (k : FaultKind) (g : FaultStage) (s : State) : (faultEntry k g s).tickcnt = s.tickcnt := rfl
@[simp] theorem faultEntry_txticks (k : FaultKind) (g : FaultStage) (s : State) : (faultEntry k g s).txticks = s.txticks := rfl
@[simp] theorem faultEntry_ret (k : FaultKind) (g : FaultStage) (s : State) : (faultEntry k g s).ret = s.ret := rfl
@[simp] theorem faultEntry_hold (k : FaultKind) (g : FaultStage) (s : State) : (faultEntry k g s).hold = s.hold := rfl
@[simp] theorem faultEntry_acceptLog (k : FaultKind) (g : FaultStage) (s : State) : (faultEntry k g s).acceptLog = s.acceptLog := rfl
@[simp] theorem faultEntry_wire (k : FaultKind) (g : FaultStage) (s : State) : (faultEntry k g s).wire = s.wire := rfl
@[simp] theorem faultEntry_resp (k : FaultKind) (g : FaultStage) (s : State) : (faultEntry k g s).resp = some .transmissionFault := rfl
@[simp] theorem faultEntry_port (k : FaultKind) (g : FaultStage) (s : State) : (faultEntry k g s).port = s.port := rfl
@[simp] theorem faultEntry_wireFaults (k : FaultKind) (g : FaultStage) (s : State) : (faultEntry k g s).wireFaults = s.wireFaults := rfl
@[simp] theorem faultEntry_staleCycle (k : FaultKind) (g : FaultStage) (s : State) : (faultEntry k g s).staleCycle = s.staleCycle := rfl
@[simp] theorem faultEntry_symOut (k : FaultKind) (g : FaultStage) (s : State) : (faultEntry k g s).symOut = s.symOut := rfl
@[simp] theorem faultEntry_setter (k : FaultKind) (g : FaultStage) (s : State) : (faultEntry k g s).setter = s.setter := rfl
@[simp] theorem faultEntry_sched (k : FaultKind) (g : FaultStage) (s : State) : (faultEntry k g s).sched = s.sched := rfl
@[simp] theorem faultEntry_draws (k : FaultKind) (g : FaultStage) (s : State) : (faultEntry k g s).draws = s.draws := rfl
@[simp] theorem faultEntry_frameEpoch (k : FaultKind) (g : FaultStage) (s : State) : (faultEntry k g s).frameEpoch = s.frameEpoch := rfl

/-! ### periphClear -/

@[simp] theorem periphClear_cfg (s : State) : (periphClear s).cfg = s.cfg := rfl
@[simp] theorem periphClear_strip (s : State) : (periphClear s).strip = s.strip := rfl
@[simp] theorem periphClear_frame (s : State) : (periphClear s).frame = s.frame := rfl
@[simp] theorem periphClear_resetBuf (s : State) : (periphClear s).resetBuf = s.resetBuf := rfl
@[simp] theorem periphClear_seq (s : State) : (periphClear s).seq = s.seq := rfl
@[simp] theorem periphClear_inited (s : State) : (periphClear s).inited = s.inited := rfl
@[simp] theorem periphClear_fault (s : State) : (periphClear s).fault = s.fault := rfl
@[simp] theorem periphClear_faultKind (s : State) : (periphClear s).faultKind = s.faultKind := rfl
@[simp] theorem periphClear_faultStage (s : State) : (periphClear s).faultStage = s.faultStage := rfl
@[simp] theorem periphClear_txcnt (s : State) : (periphClear s).txcnt = s.txcnt := rfl
@[simp] theorem periphClear_txidx (s : State) : (periphClear s).txidx = s.txidx := rfl
@[simp] theorem periphClear_tickcnt (s : State) : (periphClear s).tickcnt = s.tickcnt := rfl
@[simp] theorem periphClear_txticks (s : State) : (periphClear s).txticks = s.txticks := rfl
@[simp] theorem periphClear_ret (s : State) : (periphClear s).ret = s.ret := rfl
@[simp] theorem periphClear_hold (s : State) : (periphClear s).hold = ⟨[], false⟩ := rfl
@[simp] theorem periphClear_acceptLog (s : State) : (periphClear s).acceptLog = s.acceptLog := rfl
@[simp] theorem periphClear_wire (s : State) : (periphClear s).wire = s.wire := rfl
@[simp] theorem periphClear_resp (s : State) : (periphClear s).resp = s.resp := rfl
@[simp] theorem periphClear_port (s : State) : (periphClear s).port = s.port := rfl
@[simp] theorem periphClear_wireFaults (s : State) : (periphClear s).wireFaults = (if s.hold.pending = [] then s.wireFaults else s.wireFaults ++ [.truncatedByClear]) := rfl
@[simp] theorem periphClear_staleCycle (s : State) : (periphClear s).staleCycle = false := rfl
@[simp] theorem periphClear_symOut (s : State) : (periphClear s).symOut = s.symOut := rfl
@[simp] theorem periphClear_setter (s : State) : (periphClear s).setter = s.setter := rfl
@[simp] theorem periphClear_sched (s : State) : (periphClear s).sched = s.sched := rfl
@[simp] theorem periphClear_draws (s : State) : (periphClear s).draws = s.draws := rfl
@[simp] theorem periphClear_frameEpoch (s : State) : (periphClear s).frameEpoch = s.frameEpoch := rfl

/-! ### beginFrameWrite -/

@[simp] theorem beginFrameWrite_cfg (s : State) : (beginFrameWrite s).cfg = s.cfg := rfl
@[simp] theorem beginFrameWrite_strip (s : State) : (beginFrameWrite s).strip = s.strip := rfl
@[simp] theorem beginFrameWrite_frame (s : State) : (beginFrameWrite s).frame = s.frame := rfl
@[simp] theorem beginFrameWrite_resetBuf (s : State) : (beginFrameWrite s).resetBuf = s.resetBuf := rfl
@[simp] theorem beginFrameWrite_seq (s : State) : (beginFrameWrite s).seq = .txFrame := rfl
@[simp] theorem beginFrameWrite_inited (s : State) : (beginFrameWrite s).inited = s.inited := rfl
@[simp] theorem beginFrameWrite_fault (s : State) : (beginFrameWrite s).fault = s.fault := rfl
@[simp] theorem beginFrameWrite_faultKind (s : State) : (beginFrameWrite s).faultKind = s.faultKind := rfl
@[simp] theorem beginFrameWrite_faultStage (s : State) : (beginFrameWrite s).faultStage = s.faultStage := rfl
@[simp] theorem beginFrameWrite_txcnt (s : State) : (beginFrameWrite s).txcnt = s.txcnt := rfl
@[simp] theorem beginFrameWrite_txidx (s : State) : (beginFrameWrite s).txidx = s.txidx := rfl
@[simp] theorem beginFrameWrite_tickcnt (s : State) : (beginFrameWrite s).tickcnt = s.tickcnt := rfl
@[simp] theorem beginFrameWrite_txticks (s : State) : (beginFrameWrite s).txticks = s.txticks := rfl
@[simp] theorem beginFrameWrite_ret (s : State) : (beginFrameWrite s).ret = s.ret := rfl
@[simp] theorem beginFrameWrite_hold (s : State) : (beginFrameWrite s).hold = s.hold := rfl
@[simp] theorem beginFrameWrite_acceptLog (s : State) : (beginFrameWrite s).acceptLog = s.acceptLog := rfl
@[simp] theorem beginFrameWrite_wire (s : State) : (beginFrameWrite s).wire = s.wire := rfl
@[simp] theorem beginFrameWrite_resp (s : State) : (beginFrameWrite s).resp = s.resp := rfl
@[simp] theorem beginFrameWrite_port (s : State) : (beginFrameWrite s).port = s.port := rfl
@[simp] theorem beginFrameWrite_wireFaults (s : State) : (beginFrameWrite s).wireFaults = (if holdClear s then s.wireFaults else s.wireFaults ++ [.staleHold]) := rfl
@[simp] theorem beginFrameWrite_staleCycle (s : State) : (beginFrameWrite s).staleCycle = (s.staleCycle || !holdClear s) := rfl
@[simp] theorem beginFrameWrite_symOut (s : State) : (beginFrameWrite s).symOut = s.symOut := rfl
@[simp] theorem beginFrameWrite_setter (s : State) : (beginFrameWrite s).setter = s.setter := rfl
@[simp] theorem beginFrameWrite_sched (s : State) : (beginFrameWrite s).sched = s.sched := rfl
@[simp] theorem beginFrameWrite_draws (s : State) : (beginFrameWrite s).draws = s.draws := rfl
@[simp] theorem beginFrameWrite_frameEpoch (s : State) : (beginFrameWrite s).frameEpoch = s.frameEpoch := rfl

/-! ### takeReturn -/

@[simp] theorem takeReturn_cfg (b : BufId) (bs : List Byte) (n : Nat) (r : WriteReturn) (s : State) : (takeReturn b bs n r s).cfg = s.cfg := rfl
@[simp] theorem takeReturn_strip (b : BufId) (bs : List Byte) (n : Nat) (r : WriteReturn) (s : State) : (takeReturn b bs n r s).strip = s.strip := rfl
@[simp] theorem takeReturn_frame (b : BufId) (bs : List Byte) (n : Nat) (r : WriteReturn) (s : State) : (takeReturn b bs n r s).frame = s.frame := rfl
@[simp] theorem takeReturn_resetBuf (b : BufId) (bs : List Byte) (n : Nat) (r : WriteReturn) (s : State) : (takeReturn b bs n r s).resetBuf = s.resetBuf := rfl
@[simp] theorem takeReturn_seq (b : BufId) (bs : List Byte) (n : Nat) (r : WriteReturn) (s : State) : (takeReturn b bs n r s).seq = s.seq := rfl
@[simp] theorem takeReturn_inited (b : BufId) (bs : List Byte) (n : Nat) (r : WriteReturn) (s : State) : (takeReturn b bs n r s).inited = s.inited := rfl
@[simp] theorem takeReturn_fault (b : BufId) (bs : List Byte) (n : Nat) (r : WriteReturn) (s : State) : (takeReturn b bs n r s).fault = s.fault := rfl
@[simp] theorem takeReturn_faultKind (b : BufId) (bs : List Byte) (n : Nat) (r : WriteReturn) (s : State) : (takeReturn b bs n r s).faultKind = s.faultKind := rfl
@[simp] theorem takeReturn_faultStage (b : BufId) (bs : List Byte) (n : Nat) (r : WriteReturn) (s : State) : (takeReturn b bs n r s).faultStage = s.faultStage := rfl
@[simp] theorem takeReturn_txcnt (b : BufId) (bs : List Byte) (n : Nat) (r : WriteReturn) (s : State) : (takeReturn b bs n r s).txcnt = r.written := rfl
@[simp] theorem takeReturn_txidx (b : BufId) (bs : List Byte) (n : Nat) (r : WriteReturn) (s : State) : (takeReturn b bs n r s).txidx = s.txidx := rfl
@[simp] theorem takeReturn_tickcnt (b : BufId) (bs : List Byte) (n : Nat) (r : WriteReturn) (s : State) : (takeReturn b bs n r s).tickcnt = s.tickcnt := rfl
@[simp] theorem takeReturn_txticks (b : BufId) (bs : List Byte) (n : Nat) (r : WriteReturn) (s : State) : (takeReturn b bs n r s).txticks = s.txticks := rfl
@[simp] theorem takeReturn_ret (b : BufId) (bs : List Byte) (n : Nat) (r : WriteReturn) (s : State) : (takeReturn b bs n r s).ret = none := rfl
@[simp] theorem takeReturn_hold (b : BufId) (bs : List Byte) (n : Nat) (r : WriteReturn) (s : State) : (takeReturn b bs n r s).hold = s.hold := rfl
@[simp] theorem takeReturn_acceptLog (b : BufId) (bs : List Byte) (n : Nat) (r : WriteReturn) (s : State) : (takeReturn b bs n r s).acceptLog = s.acceptLog ++ [.write b bs n] := rfl
@[simp] theorem takeReturn_wire (b : BufId) (bs : List Byte) (n : Nat) (r : WriteReturn) (s : State) : (takeReturn b bs n r s).wire = s.wire := rfl
@[simp] theorem takeReturn_resp (b : BufId) (bs : List Byte) (n : Nat) (r : WriteReturn) (s : State) : (takeReturn b bs n r s).resp = s.resp := rfl
@[simp] theorem takeReturn_port (b : BufId) (bs : List Byte) (n : Nat) (r : WriteReturn) (s : State) : (takeReturn b bs n r s).port = s.port := rfl
@[simp] theorem takeReturn_wireFaults (b : BufId) (bs : List Byte) (n : Nat) (r : WriteReturn) (s : State) : (takeReturn b bs n r s).wireFaults = s.wireFaults := rfl
@[simp] theorem takeReturn_staleCycle (b : BufId) (bs : List Byte) (n : Nat) (r : WriteReturn) (s : State) : (takeReturn b bs n r s).staleCycle = s.staleCycle := rfl
@[simp] theorem takeReturn_symOut (b : BufId) (bs : List Byte) (n : Nat) (r : WriteReturn) (s : State) : (takeReturn b bs n r s).symOut = s.symOut := rfl
@[simp] theorem takeReturn_setter (b : BufId) (bs : List Byte) (n : Nat) (r : WriteReturn) (s : State) : (takeReturn b bs n r s).setter = s.setter := rfl
@[simp] theorem takeReturn_sched (b : BufId) (bs : List Byte) (n : Nat) (r : WriteReturn) (s : State) : (takeReturn b bs n r s).sched = s.sched := rfl
@[simp] theorem takeReturn_draws (b : BufId) (bs : List Byte) (n : Nat) (r : WriteReturn) (s : State) : (takeReturn b bs n r s).draws = s.draws := rfl
@[simp] theorem takeReturn_frameEpoch (b : BufId) (bs : List Byte) (n : Nat) (r : WriteReturn) (s : State) : (takeReturn b bs n r s).frameEpoch = s.frameEpoch := rfl

/-! ### answerLookup -/

@[simp] theorem answerLookup_cfg (g : Group) (s : State) : (answerLookup g s).cfg = s.cfg := rfl
@[simp] theorem answerLookup_strip (g : Group) (s : State) : (answerLookup g s).strip = s.strip := rfl
@[simp] theorem answerLookup_frame (g : Group) (s : State) : (answerLookup g s).frame = s.frame := rfl
@[simp] theorem answerLookup_resetBuf (g : Group) (s : State) : (answerLookup g s).resetBuf = s.resetBuf := rfl
@[simp] theorem answerLookup_seq (g : Group) (s : State) : (answerLookup g s).seq = s.seq := rfl
@[simp] theorem answerLookup_inited (g : Group) (s : State) : (answerLookup g s).inited = s.inited := rfl
@[simp] theorem answerLookup_fault (g : Group) (s : State) : (answerLookup g s).fault = s.fault := rfl
@[simp] theorem answerLookup_faultKind (g : Group) (s : State) : (answerLookup g s).faultKind = s.faultKind := rfl
@[simp] theorem answerLookup_faultStage (g : Group) (s : State) : (answerLookup g s).faultStage = s.faultStage := rfl
@[simp] theorem answerLookup_txcnt (g : Group) (s : State) : (answerLookup g s).txcnt = s.txcnt := rfl
@[simp] theorem answerLookup_txidx (g : Group) (s : State) : (answerLookup g s).txidx = s.txidx := rfl
@[simp] theorem answerLookup_tickcnt (g : Group) (s : State) : (answerLookup g s).tickcnt = s.tickcnt := rfl
@[simp] theorem answerLookup_txticks (g : Group) (s : State) : (answerLookup g s).txticks = s.txticks := rfl
@[simp] theorem answerLookup_ret (g : Group) (s : State) : (answerLookup g s).ret = s.ret := rfl
@[simp] theorem answerLookup_hold (g : Group) (s : State) : (answerLookup g s).hold = s.hold := rfl
@[simp] theorem answerLookup_acceptLog (g : Group) (s : State) : (answerLookup g s).acceptLog = s.acceptLog := rfl
@[simp] theorem answerLookup_wire (g : Group) (s : State) : (answerLookup g s).wire = s.wire := rfl
@[simp] theorem answerLookup_resp (g : Group) (s : State) : (answerLookup g s).resp = s.resp := rfl
@[simp] theorem answerLookup_port (g : Group) (s : State) : (answerLookup g s).port = s.port := rfl
@[simp] theorem answerLookup_wireFaults (g : Group) (s : State) : (answerLookup g s).wireFaults = s.wireFaults := rfl
@[simp] theorem answerLookup_staleCycle (g : Group) (s : State) : (answerLookup g s).staleCycle = s.staleCycle := rfl
@[simp] theorem answerLookup_symOut (g : Group) (s : State) : (answerLookup g s).symOut = symLookup s.cfg.sym g := rfl
@[simp] theorem answerLookup_setter (g : Group) (s : State) : (answerLookup g s).setter = s.setter := rfl
@[simp] theorem answerLookup_sched (g : Group) (s : State) : (answerLookup g s).sched = s.sched := rfl
@[simp] theorem answerLookup_draws (g : Group) (s : State) : (answerLookup g s).draws = s.draws := rfl
@[simp] theorem answerLookup_frameEpoch (g : Group) (s : State) : (answerLookup g s).frameEpoch = s.frameEpoch := rfl

/-! ### initialise -/

@[simp] theorem initialise_cfg (s : State) : (initialise s).cfg = s.cfg := rfl
@[simp] theorem initialise_strip (s : State) : (initialise s).strip = s.strip := rfl
@[simp] theorem initialise_frame (s : State) : (initialise s).frame = [] := rfl
@[simp] theorem initialise_resetBuf (s : State) : (initialise s).resetBuf = List.replicate s.cfg.resetLen 0 := rfl
@[simp] theorem initialise_seq (s : State) : (initialise s).seq = s.seq := rfl
@[simp] theorem initialise_inited (s : State) : (initialise s).inited = true := rfl
@[simp] theorem initialise_fault (s : State) : (initialise s).fault = s.fault := rfl
@[simp] theorem initialise_faultKind (s : State) : (initialise s).faultKind = s.faultKind := rfl
@[simp] theorem initialise_faultStage (s : State) : (initialise s).faultStage = s.faultStage := rfl
@[simp] theorem initialise_txcnt (s : State) : (initialise s).txcnt = s.txcnt := rfl
@[simp] theorem initialise_txidx (s : State) : (initialise s).txidx = s.txidx := rfl
@[simp] theorem initialise_tickcnt (s : State) : (initialise s).tickcnt = s.tickcnt := rfl
@[simp] theorem initialise_txticks (s : State) : (initialise s).txticks = s.txticks := rfl
@[simp] theorem initialise_ret (s : State) : (initialise s).ret = s.ret := rfl
@[simp] theorem initialise_hold (s : State) : (initialise s).hold = ⟨[], false⟩ := rfl
@[simp] theorem initialise_acceptLog (s : State) : (initialise s).acceptLog = s.acceptLog := rfl
@[simp] theorem initialise_wire (s : State) : (initialise s).wire = s.wire := rfl
@[simp] theorem initialise_resp (s : State) : (initialise s).resp = s.resp := rfl
@[simp] theorem initialise_port (s : State) : (initialise s).port = s.port := rfl
@[simp] theorem initialise_wireFaults (s : State) : (initialise s).wireFaults = s.wireFaults := rfl
@[simp] theorem initialise_staleCycle (s : State) : (initialise s).staleCycle = false := rfl
@[simp] theorem initialise_symOut (s : State) : (initialise s).symOut = s.symOut := rfl
@[simp] theorem initialise_setter (s : State) : (initialise s).setter = s.setter := rfl
@[simp] theorem initialise_sched (s : State) : (initialise s).sched = s.sched := rfl
@[simp] theorem initialise_draws (s : State) : (initialise s).draws = s.draws := rfl
@[simp] theorem initialise_frameEpoch (s : State) : (initialise s).frameEpoch = s.frameEpoch + 1 := rfl

/-! ### returnWrite -/

@[simp] theorem returnWrite_cfg (r : WriteReturn) (s : State) : (returnWrite r s).cfg = s.cfg := rfl
@[simp] theorem returnWrite_strip (r : WriteReturn) (s : State) : (returnWrite r s).strip = s.strip := rfl
@[simp] theorem returnWrite_frame (r : WriteReturn) (s : State) : (returnWrite r s).frame = s.frame := rfl
@[simp] theorem returnWrite_resetBuf (r : WriteReturn) (s : State) : (returnWrite r s).resetBuf = s.resetBuf := rfl
@[simp] theorem returnWrite_seq (r : WriteReturn) (s : State) : (returnWrite r s).seq = s.seq := rfl
@[simp] theorem returnWrite_inited (r : WriteReturn) (s : State) : (returnWrite r s).inited = s.inited := rfl
@[simp] theorem returnWrite_fault (r : WriteReturn) (s : State) : (returnWrite r s).fault = s.fault := rfl
@[simp] theorem returnWrite_faultKind (r : WriteReturn) (s : State) : (returnWrite r s).faultKind = s.faultKind := rfl
@[simp] theorem returnWrite_faultStage (r : WriteReturn) (s : State) : (returnWrite r s).faultStage = s.faultStage := rfl
@[simp] theorem returnWrite_txcnt (r : WriteReturn) (s : State) : (returnWrite r s).txcnt = s.txcnt := rfl
@[simp] theorem returnWrite_txidx (r : WriteReturn) (s : State) : (returnWrite r s).txidx = 0 := rfl
@[simp] theorem returnWrite_tickcnt (r : WriteReturn) (s : State) : (returnWrite r s).tickcnt = s.tickcnt := rfl
@[simp] theorem returnWrite_txticks (r : WriteReturn) (s : State) : (returnWrite r s).txticks = 0 := rfl
@[simp] theorem returnWrite_ret (r : WriteReturn) (s : State) : (returnWrite r s).ret = some r := rfl
@[simp] theorem returnWrite_hold (r : WriteReturn) (s : State) : (returnWrite r s).hold = s.hold := rfl
@[simp] theorem returnWrite_acceptLog (r : WriteReturn) (s : State) : (returnWrite r s).acceptLog = s.acceptLog := rfl
@[simp] theorem returnWrite_wire (r : WriteReturn) (s : State) : (returnWrite r s).wire = s.wire := rfl
@[simp] theorem returnWrite_resp (r : WriteReturn) (s : State) : (returnWrite r s).resp = s.resp := rfl
@[simp] theorem returnWrite_port (r : WriteReturn) (s : State) : (returnWrite r s).port = s.port := rfl
@[simp] theorem returnWrite_wireFaults (r : WriteReturn) (s : State) : (returnWrite r s).wireFaults = s.wireFaults := rfl
@[simp] theorem returnWrite_staleCycle (r : WriteReturn) (s : State) : (returnWrite r s).staleCycle = s.staleCycle := rfl
@[simp] theorem returnWrite_symOut (r : WriteReturn) (s : State) : (returnWrite r s).symOut = s.symOut := rfl
@[simp] theorem returnWrite_setter (r : WriteReturn) (s : State) : (returnWrite r s).setter = s.setter := rfl
@[simp] theorem returnWrite_sched (r : WriteReturn) (s : State) : (returnWrite r s).sched = s.sched := rfl
@[simp] theorem returnWrite_draws (r : WriteReturn) (s : State) : (returnWrite r s).draws = s.draws := rfl
@[simp] theorem returnWrite_frameEpoch (r : WriteReturn) (s : State) : (returnWrite r s).frameEpoch = s.frameEpoch := rfl

/-! ### acceptByte -/

@[simp] theorem acceptByte_cfg (v : Byte) (s : State) : (acceptByte v s).cfg = s.cfg := rfl
@[simp] theorem acceptByte_strip (v : Byte) (s : State) : (acceptByte v s).strip = s.strip := rfl
@[simp] theorem acceptByte_frame (v : Byte) (s : State) : (acceptByte v s).frame = s.frame := rfl
@[simp] theorem acceptByte_resetBuf (v : Byte) (s : State) : (acceptByte v s).resetBuf = s.resetBuf := rfl
@[simp] theorem acceptByte_seq (v : Byte) (s : State) : (acceptByte v s).seq = s.seq := rfl
@[simp] theorem acceptByte_inited (v : Byte) (s : State) : (acceptByte v s).inited = s.inited := rfl
@[simp] theorem acceptByte_fault (v : Byte) (s : State) : (acceptByte v s).fault = s.fault := rfl
@[simp] theorem acceptByte_faultKind (v : Byte) (s : State) : (acceptByte v s).faultKind = s.faultKind := rfl
@[simp] theorem acceptByte_faultStage (v : Byte) (s : State) : (acceptByte v s).faultStage = s.faultStage := rfl
@[simp] theorem acceptByte_txcnt (v : Byte) (s : State) : (acceptByte v s).txcnt = s.txcnt := rfl
@[simp] theorem acceptByte_txidx (v : Byte) (s : State) : (acceptByte v s).txidx = s.txidx + 1 := rfl
@[simp] theorem acceptByte_tickcnt (v : Byte) (s : State) : (acceptByte v s).tickcnt = s.tickcnt := rfl
@[simp] theorem acceptByte_txticks (v : Byte) (s : State) : (acceptByte v s).txticks = s.txticks := rfl
@[simp] theorem acceptByte_ret (v : Byte) (s : State) : (acceptByte v s).ret = s.ret := rfl
@[simp] theorem acceptByte_hold (v : Byte) (s : State) : (acceptByte v s).hold = ⟨s.hold.pending ++ [v], true⟩ := rfl
@[simp] theorem acceptByte_acceptLog (v : Byte) (s : State) : (acceptByte v s).acceptLog = s.acceptLog := rfl
@[simp] theorem acceptByte_wire (v : Byte) (s : State) : (acceptByte v s).wire = s.wire := rfl
@[simp] theorem acceptByte_resp (v : Byte) (s : State) : (acceptByte v s).resp = s.resp := rfl
@[simp] theorem acceptByte_port (v : Byte) (s : State) : (acceptByte v s).port = s.port := rfl
@[simp] theorem acceptByte_wireFaults (v : Byte) (s : State) : (acceptByte v s).wireFaults = s.wireFaults := rfl
@[simp] theorem acceptByte_staleCycle (v : Byte) (s : State) : (acceptByte v s).staleCycle = s.staleCycle := rfl
@[simp] theorem acceptByte_symOut (v : Byte) (s : State) : (acceptByte v s).symOut = s.symOut := rfl
@[simp] theorem acceptByte_setter (v : Byte) (s : State) : (acceptByte v s).setter = s.setter := rfl
@[simp] theorem acceptByte_sched (v : Byte) (s : State) : (acceptByte v s).sched = s.sched := rfl
@[simp] theorem acceptByte_draws (v : Byte) (s : State) : (acceptByte v s).draws = s.draws := rfl
@[simp] theorem acceptByte_frameEpoch (v : Byte) (s : State) : (acceptByte v s).frameEpoch = s.frameEpoch := rfl

/-! ### afterMove -/

@[simp] theorem afterMove_cfg (s : State) : (afterMove s).cfg = s.cfg := by
  unfold afterMove; split <;> rfl
@[simp] theorem afterMove_strip (s : State) : (afterMove s).strip = s.strip := by
  unfold afterMove; split <;> rfl
@[simp] theorem afterMove_frame (s : State) : (afterMove s).frame = s.frame := by
  unfold afterMove; split <;> rfl
@[simp] theorem afterMove_resetBuf (s : State) : (afterMove s).resetBuf = s.resetBuf := by
  unfold afterMove; split <;> rfl
@[simp] theorem afterMove_seq (s : State) : (afterMove s).seq = s.seq := by
  unfold afterMove; split <;> rfl
@[simp] theorem afterMove_inited (s : State) : (afterMove s).inited = s.inited := by
  unfold afterMove; split <;> rfl
@[simp] theorem afterMove_fault (s : State) : (afterMove s).fault = s.fault := by
  unfold afterMove; split <;> rfl
@[simp] theorem afterMove_faultKind (s : State) : (afterMove s).faultKind = s.faultKind := by
  unfold afterMove; split <;> rfl
@[simp] theorem afterMove_faultStage (s : State) : (afterMove s).faultStage = s.faultStage := by
  unfold afterMove; split <;> rfl
@[simp] theorem afterMove_txcnt (s : State) : (afterMove s).txcnt = s.txcnt := by
  unfold afterMove; split <;> rfl
@[simp] theorem afterMove_txidx (s : State) : (afterMove s).txidx = s.txidx := by
  unfold afterMove; split <;> rfl
@[simp] theorem afterMove_tickcnt (s : State) : (afterMove s).tickcnt = s.tickcnt := by
  unfold afterMove; split <;> rfl
@[simp] theorem afterMove_txticks (s : State) : (afterMove s).txticks = s.txticks := by
  unfold afterMove; split <;> rfl
@[simp] theorem afterMove_ret (s : State) : (afterMove s).ret = s.ret := by
  unfold afterMove; split <;> rfl
@[simp] theorem afterMove_hold (s : State) : (afterMove s).hold = s.hold := by
  unfold afterMove; split <;> rfl
@[simp] theorem afterMove_acceptLog (s : State) : (afterMove s).acceptLog = s.acceptLog := by
  unfold afterMove; split <;> rfl
@[simp] theorem afterMove_wire (s : State) : (afterMove s).wire = s.wire := by
  unfold afterMove; split <;> rfl
@[simp] theorem afterMove_resp (s : State) : (afterMove s).resp = s.resp := by
  unfold afterMove; split <;> rfl
@[simp] theorem afterMove_port (s : State) : (afterMove s).port = s.port := by
  unfold afterMove; split <;> rfl
@[simp] theorem afterMove_wireFaults (s : State) : (afterMove s).wireFaults = s.wireFaults := by
  unfold afterMove; split <;> rfl
@[simp] theorem afterMove_staleCycle (s : State) : (afterMove s).staleCycle = s.staleCycle := by
  unfold afterMove; split <;> rfl
@[simp] theorem afterMove_symOut (s : State) : (afterMove s).symOut = s.symOut := by
  unfold afterMove; split <;> rfl
@[simp] theorem afterMove_setter (s : State) : (afterMove s).setter = s.setter := by
  unfold afterMove; split <;> rfl
@[simp] theorem afterMove_frameEpoch (s : State) : (afterMove s).frameEpoch = s.frameEpoch := by
  unfold afterMove; split <;> rfl

theorem nextMove_cons (s : State) (m : Move) (ms : List Move) (h : s.sched = m :: ms) : nextMove s = m := by
  simp [nextMove, h]

theorem afterMove_cons (s : State) (m : Move) (ms : List Move) (h : s.sched = m :: ms) :
    afterMove s = { s with sched := ms } := by
  simp [afterMove, h]

end Sys2Proof.Machine
end

