-- ==== Sys2Proof/Laws/Memory.lean ====
section
/-! SUPPORT. The laws of the byte memory: a read after a write, the canonical form, the addresses listed; and what
MemWrite leaves of the frame. -/

namespace Sys2Proof.Machine

@[simp] theorem Memory.byteAt_nil (a : Nat) : Memory.byteAt [] a = none := rfl

theorem Memory.byteAt_write (m : Memory) (a : Nat) (v : Byte) (b : Nat) :
    Memory.byteAt (Memory.write m a v) b = if b = a then some v else Memory.byteAt m b := by
  induction m with
  | nil => simp [Memory.write, Memory.byteAt]
  | cons c m ih =>
    by_cases h1 : a < c.1
    · simp [Memory.write, Memory.byteAt, h1]
    · by_cases h2 : a = c.1
      · subst h2
        by_cases h3 : b = c.1 <;> simp [Memory.write, Memory.byteAt, h3]
      · simp only [Memory.write, h1, h2, if_false, Memory.byteAt, ih]
        split <;> split <;> simp_all

theorem Memory.mem_write {m : Memory} {a : Nat} {v : Byte} {c : Host.Cell} (h : c ∈ Memory.write m a v) :
    c = (a, v) ∨ c ∈ m := by
  induction m with
  | nil => simpa [Memory.write] using h
  | cons d m ih =>
    unfold Memory.write at h
    split at h
    · simpa using h
    · split at h
      · simp at h ⊢; tauto
      · simp at h ⊢
        rcases h with h | h
        · tauto
        · rcases ih h with h | h <;> tauto

/-- Every write keeps the canonical form. -/
theorem Memory.wf_write {m : Memory} (h : Memory.wf m) (a : Nat) (v : Byte) : Memory.wf (Memory.write m a v) := by
  induction m with
  | nil => simp [Memory.write, Memory.wf]
  | cons d m ih =>
    simp only [Memory.wf, List.pairwise_cons] at h
    obtain ⟨hd, hm⟩ := h
    unfold Memory.write
    split
    · rename_i hlt
      simp only [Memory.wf, List.pairwise_cons, List.mem_cons]
      refine ⟨?_, hd, hm⟩
      rintro c (rfl | hc)
      · exact hlt
      · exact lt_trans hlt (hd c hc)
    · split
      · rename_i heq
        simp only [Memory.wf, List.pairwise_cons]
        exact ⟨fun c hc => by rw [heq]; exact hd c hc, hm⟩
      · rename_i hlt hne
        simp only [Memory.wf, List.pairwise_cons]
        refine ⟨fun c hc => ?_, ih hm⟩
        rcases Memory.mem_write hc with rfl | hc
        · show d.1 < a; omega
        · exact hd c hc

theorem Memory.wf_writeBytes {m : Memory} (h : Memory.wf m) (a : Nat) (vs : List Byte) :
    Memory.wf (Memory.writeBytes m a vs) := by
  induction vs generalizing m a with
  | nil => exact h
  | cons v vs ih => exact ih (Memory.wf_write h a v) (a + 1)

theorem Memory.mem_writeBytes {m : Memory} {a : Nat} {vs : List Byte} {c : Host.Cell}
    (h : c ∈ Memory.writeBytes m a vs) : (a ≤ c.1 ∧ c.1 < a + vs.length) ∨ c ∈ m := by
  induction vs generalizing m a with
  | nil => exact .inr h
  | cons v vs ih =>
    rcases ih h with ⟨h1, h2⟩ | h1
    · left; simp; omega
    · rcases Memory.mem_write h1 with rfl | h1
      · left; simp
      · exact .inr h1

/-- What every address reads as after bytes were written at `a`. -/
theorem Memory.byteAt_writeBytes (m : Memory) (a : Nat) (vs : List Byte) (b : Nat) :
    Memory.byteAt (Memory.writeBytes m a vs) b =
      if a ≤ b ∧ b < a + vs.length then vs[b - a]? else Memory.byteAt m b := by
  induction vs generalizing m a with
  | nil => simp [Memory.writeBytes]
  | cons v vs ih =>
    simp only [Memory.writeBytes, ih, Memory.byteAt_write, List.length_cons]
    by_cases h1 : b = a
    · subst h1; simp
    · by_cases h2 : a + 1 ≤ b ∧ b < a + 1 + vs.length
      · have h3 : a ≤ b ∧ b < a + (vs.length + 1) := by omega
        have h4 : b - a = (b - (a + 1)) + 1 := by omega
        simp only [h2, h3, and_self, if_true]
        rw [h4, List.getElem?_cons_succ]
      · have h3 : ¬ (a ≤ b ∧ b < a + (vs.length + 1)) := by omega
        rw [if_neg h2, if_neg h1, if_neg h3]

theorem readFrame_length (s : State) (a n : Nat) : (readFrame s a n).length = n := by
  simp [readFrame]

theorem readFrame_getElem? (s : State) (a n i : Nat) :
    (readFrame s a n)[i]? = if i < n then some (frameByte s (a + i)) else none := by
  by_cases h : i < n
  · simp [readFrame, h]
  · simp [readFrame, h]

/-- A read of the frame that lists every byte of `bs` reads `bs`. -/
theorem readFrame_eq {s : State} {bs : List Byte} {n : Nat} (hn : n ≤ bs.length)
    (h : ∀ a, a < n → Memory.byteAt s.frame a = bs[a]?) : readFrame s 0 n = bs.take n := by
  apply List.ext_getElem?
  intro i
  rw [readFrame_getElem?, List.getElem?_take]
  by_cases hi : i < n
  · have h1 : i < bs.length := by omega
    simp [hi, frameByte, h i hi, h1]
  · simp [hi]

end Sys2Proof.Machine
end

