-- ==== Sys2Proof/Laws/Ops.lean ====
section
/-! SUPPORT. What each shared operation and each instruction can do, said once: if it answers `next t`, one of the
listed cases holds. Provers cite these instead of unfolding a meaning. -/

namespace Sys2Proof.Machine

/-! ### The shared operations -/

theorem commandGate_next {w : CmdWord} {k : State → Out} {s t : State} (h : commandGate w k s = .next t) :
    (busy s = true ∧ t = holdWord w s) ∨
    (busy s = false ∧ refusesFaulted s = true ∧ t = respond .faulted s) ∨
    (busy s = false ∧ refusesFaulted s = false ∧ k s = .next t) := by
  unfold commandGate at h
  cases hb : busy s
  · cases hf : refusesFaulted s
    · right; right; simpa [hb, hf] using h
    · right; left; simpa [hb, hf, eq_comm] using h
  · left; simpa [hb, eq_comm] using h

theorem commandGate_open {w : CmdWord} {k : State → Out} {s : State} (hb : busy s = false)
    (hf : refusesFaulted s = false) : commandGate w k s = k s := by
  simp [commandGate, hb, hf]

theorem blockingWrite_next {b : BufId} {g : FaultStage} {n : Nat} {bs : Nat → List Byte} {done : State → State}
    {s t : State} (h : blockingWrite b g n bs done s = .next t) :
    (s.ret = none ∧ t = s) ∨
    (∃ r, s.ret = some r ∧ r.written = n ∧ t = done (takeReturn b (bs r.written) n r s)) ∨
    (∃ r, s.ret = some r ∧ r.written < n ∧
      t = faultEntry (returnKind r) g (takeReturn b (bs r.written) n r s)) := by
  unfold blockingWrite at h
  split at h
  · left; rename_i hr; simp at h; exact ⟨hr, h.symm⟩
  · rename_i r hr
    split at h
    · rename_i hw; right; left; simp at h; exact ⟨r, hr, hw, h.symm⟩
    · split at h
      · rename_i hw; right; right; simp at h; exact ⟨r, hr, hw, h.symm⟩
      · simp at h

theorem memWriteFrame_some {a : Nat} {v : List Byte} {s t : State} (h : memWriteFrame a v s = some t) :
    a + v.length ≤ frameLen s ∧ t = { s with frame := Memory.writeBytes s.frame a v } := by
  unfold memWriteFrame at h
  split at h
  · simp at h; exact ⟨‹_›, h.symm⟩
  · simp at h

theorem memWriteStrip_some {p : Nat} {c : Colour} {s t : State} (h : memWriteStrip p c s = some t) :
    p < s.strip.length ∧ t = { s with strip := s.strip.set p (pixelOf c) } := by
  unfold memWriteStrip at h
  split at h
  · simp at h; exact ⟨‹_›, h.symm⟩
  · simp at h

theorem currentWrite_cases {s : State} {b : BufId} {n : Nat} (h : currentWrite s = some (b, n)) :
    s.ret = none ∧
    ((s.seq = .txFrame ∧ b = .frameBuf ∧ n = frameLen s) ∨ (s.seq = .txReset ∧ b = .resetBuf ∧ n = resetLen s)) := by
  unfold currentWrite at h
  split at h
  · simp at h
  · rename_i hr
    refine ⟨hr, ?_⟩
    split at h <;> simp_all

/-- When no write is in progress. -/
theorem currentWrite_none {s : State} :
    currentWrite s = none ↔ s.ret ≠ none ∨ (s.seq ≠ .txFrame ∧ s.seq ≠ .txReset) := by
  unfold currentWrite
  cases s.ret <;> cases s.seq <;> simp

/-! ### The commands -/

theorem execInit_next {s t : State} (h : exec .init s = .next t) :
    (busy s = true ∧ t = holdWord (commandWord .init) s) ∨
    (busy s = false ∧ refusesFaulted s = true ∧ t = respond .faulted s) ∨
    (busy s = false ∧ refusesFaulted s = false ∧ s.inited = true ∧ t = respond .alreadyInitialised s) ∨
    (busy s = false ∧ refusesFaulted s = false ∧ s.inited = false ∧ t = respond .ok (initialise s)) := by
  simp only [exec, execInit] at h
  rcases commandGate_next h with h | h | ⟨hb, hf, h⟩
  · exact .inl h
  · exact .inr (.inl h)
  · right; right
    cases hi : s.inited <;> simp [hi] at h <;> simp [hb, hf, h]

theorem execSetpix_next {pos : Pos} {color : Colour} {s t : State} (h : exec (.setpix pos color) s = .next t) :
    (busy s = true ∧ t = holdWord (commandWord (.setpix pos color)) s) ∨
    (busy s = false ∧ refusesFaulted s = true ∧ t = respond .faulted s) ∨
    (busy s = false ∧ refusesFaulted s = false ∧ s.cfg.n ≤ stripIndex pos ∧ t = respond .posOutOfRange s) ∨
    (busy s = false ∧ refusesFaulted s = false ∧ stripIndex pos < s.cfg.n ∧ stripIndex pos < s.strip.length ∧
      t = respond .ok { s with strip := s.strip.set (stripIndex pos) (pixelOf color) }) := by
  simp only [exec, execSetpix] at h
  rcases commandGate_next h with h | h | ⟨hb, hf, h⟩
  · exact .inl h
  · exact .inr (.inl h)
  · right; right
    by_cases hn : s.cfg.n ≤ stripIndex pos
    · simp [hn] at h
      exact .inl ⟨hb, hf, hn, h.symm⟩
    · simp only [hn, if_false] at h
      cases hw : memWriteStrip (stripIndex pos) color s with
      | none => simp [hw] at h
      | some u =>
        obtain ⟨hlt, rfl⟩ := memWriteStrip_some hw
        simp [hw] at h
        exact .inr ⟨hb, hf, by omega, hlt, h.symm⟩

theorem execUpdate_next {s t : State} (h : exec .update s = .next t) :
    (busy s = true ∧ t = holdWord (commandWord .update) s) ∨
    (busy s = false ∧ refusesFaulted s = true ∧ t = respond .faulted s) ∨
    (busy s = false ∧ refusesFaulted s = false ∧ s.inited = false ∧ t = respond .notInitialised s) ∨
    (busy s = false ∧ refusesFaulted s = false ∧ s.inited = true ∧ t = { s with seq := .encode, resp := none }) := by
  simp only [exec, execUpdate] at h
  rcases commandGate_next h with h | h | ⟨hb, hf, h⟩
  · exact .inl h
  · exact .inr (.inl h)
  · right; right
    cases hi : s.inited <;> simp [hi] at h <;> simp [hb, hf, h]

/-! ### The micro-operations -/

theorem execEncode_next {s t : State} (h : exec .encode s = .next t) :
    s.seq = .encode ∧ s.strip.length = s.cfg.n ∧ (encodeFrame s.cfg.sym s.strip).length ≤ frameLen s ∧
    t = beginFrameWrite { s with frame := Memory.writeBytes s.frame 0 (encodeFrame s.cfg.sym s.strip) } := by
  simp only [exec, execEncode] at h
  split at h
  · rename_i hs
    split at h
    · rename_i hl
      split at h
      · rename_i u hw
        obtain ⟨hb, rfl⟩ := memWriteFrame_some hw
        simp at h
        exact ⟨hs, hl, by omega, h.symm⟩
      · simp at h
    · simp at h
  · simp at h

theorem execTxframe_next {s t : State} (h : exec .txframe s = .next t) :
    s.seq = .txFrame ∧
    ((s.ret = none ∧ t = s) ∨
     (∃ r, s.ret = some r ∧ r.written = frameLen s ∧
       t = { takeReturn .frameBuf (readFrame s 0 r.written) (frameLen s) r s with seq := .txReset }) ∨
     (∃ r, s.ret = some r ∧ r.written < frameLen s ∧
       t = faultEntry (returnKind r) .frame (takeReturn .frameBuf (readFrame s 0 r.written) (frameLen s) r s))) := by
  simp only [exec, execTxframe] at h
  split at h
  · exact ⟨‹_›, blockingWrite_next h⟩
  · simp at h

theorem execTxreset_next {s t : State} (h : exec .txreset s = .next t) :
    s.seq = .txReset ∧
    ((s.ret = none ∧ t = s) ∨
     (∃ r, s.ret = some r ∧ r.written = resetLen s ∧
       t = { takeReturn .resetBuf (readResetBuf s 0 r.written) (resetLen s) r s with
             tickcnt := s.cfg.settleTicks, seq := .settle }) ∨
     (∃ r, s.ret = some r ∧ r.written < resetLen s ∧
       t = faultEntry (returnKind r) .reset (takeReturn .resetBuf (readResetBuf s 0 r.written) (resetLen s) r s))) := by
  simp only [exec, execTxreset] at h
  split at h
  · exact ⟨‹_›, blockingWrite_next h⟩
  · simp at h

theorem execSettle_next {s t : State} (h : exec .settle s = .next t) :
    s.seq = .settle ∧ 0 < s.tickcnt ∧ t = { s with tickcnt := s.tickcnt - 1 } := by
  simp only [exec, execSettle] at h
  split at h
  · rename_i hs; simp at h; exact ⟨hs.1, hs.2, h.symm⟩
  · simp at h

theorem execClear_next {s t : State} (h : exec .clear s = .next t) :
    s.seq = .settle ∧ s.tickcnt = 0 ∧
    t = respond .ok { periphClear s with acceptLog := s.acceptLog ++ [.clear], seq := .idle } := by
  simp only [exec, execClear] at h
  split at h
  · rename_i hs; simp at h; exact ⟨hs.1, hs.2, h.symm⟩
  · simp at h

/-! ### Decoding in the places it is done -/

/-- A decoded command word is the word of its instruction. -/
theorem commandWord_of_decode {w : CmdWord} {i : Instr} (h : decodeCmd48 w = .ok i) : commandWord i = w := by
  unfold decodeCmd48 at h
  have hw := Laws.cmdWordOf_fields w
  split at h
  · rename_i h1
    split at h
    · rename_i h2; cases h; rw [← hw, h1, h2.1, h2.2]; rfl
    · cases h
  · split at h
    · rename_i h1; cases h; rw [h1] at hw; exact hw
    · split at h
      · rename_i h1
        split at h
        · rename_i h2; cases h; rw [← hw, h1, h2.1, h2.2]; rfl
        · cases h
      · cases h

/-- A command word decodes to a command. -/
theorem decodeCmd48_command {w : CmdWord} {i : Instr} (h : decodeCmd48 w = .ok i) :
    i = .init ∨ (∃ p c, i = .setpix p c) ∨ i = .update := by
  unfold decodeCmd48 at h
  split at h
  · split at h <;> cases h; exact .inl rfl
  · split at h
    · cases h; exact .inr (.inl ⟨_, _, rfl⟩)
    · split at h
      · split at h <;> cases h; exact .inr (.inr rfl)
      · cases h

/-- What the selector selects in each state (R71). -/
theorem decode_usel (s : State) :
    decodeUsel4 (usel s) =
      match s.seq with
      | .idle => .error .noMicroOp
      | .encode => .ok .encode
      | .txFrame => .ok .txframe
      | .txReset => .ok .txreset
      | .settle => if s.tickcnt = 0 then .ok .clear else .ok .settle
      | .fault => .error .noMicroOp := by
  unfold usel tickZero
  by_cases h : s.tickcnt = 0 <;> cases s.seq <;> simp [h, seqCode] <;> decide

end Sys2Proof.Machine
end

