-- ==== Sys2Proof/Laws/PerInstr.lean ====
section
/-! SUPPORT. The family RoundTrip, one lemma per constructor: the decoder reads back what the encoder writes, with
every operand at every value. -/

namespace Sys2Proof.Laws

/-- Decoding the encoding of an instruction gives it back. -/
def RoundTrip.Statement (i : Instr) : Prop := i.wf = true → decode (Sys2Proof.encode i) = .ok i

theorem RoundTrip.init : RoundTrip.Statement .init := fun _ => by decide

theorem RoundTrip.setpix (pos : Pos) (color : Colour) : RoundTrip.Statement (.setpix pos color) := fun _ => by
  simp [decode, Sys2Proof.encode, decodeCmd48]

theorem RoundTrip.update : RoundTrip.Statement .update := fun _ => by decide

theorem RoundTrip.encode : RoundTrip.Statement .encode := fun _ => by decide

theorem RoundTrip.txframe : RoundTrip.Statement .txframe := fun _ => by decide

theorem RoundTrip.txreset : RoundTrip.Statement .txreset := fun _ => by decide

theorem RoundTrip.settle : RoundTrip.Statement .settle := fun _ => by decide

theorem RoundTrip.clear : RoundTrip.Statement .clear := fun _ => by decide

theorem RoundTrip.sym0 : RoundTrip.Statement .sym0 := fun _ => by decide

theorem RoundTrip.sym1 : RoundTrip.Statement .sym1 := fun _ => by decide

theorem RoundTrip.sym2 : RoundTrip.Statement .sym2 := fun _ => by decide

theorem RoundTrip.sym3 : RoundTrip.Statement .sym3 := fun _ => by decide

end Sys2Proof.Laws
end

