-- ==== Sys2Proof/Laws/Step.lean ====
section
/-! SUPPORT. Everything one move can do, said once: `Effect m s t` lists the cases, and `runMove_effect` and
`step_effect` say that a step that answers a next state is one of them. Every invariant is a case analysis of
`Effect`. -/

namespace Sys2Proof.Machine

/-- The changes of state a move can make. -/
inductive Effect : Move → State → State → Prop where
  /-- The move's step is not enabled, a command is held, the sequencer waits, or `STATUS` is sampled. -/
  | nothing (m : Move) (s : State) (hm : m ≠ .reset) : Effect m s s
  | presented (w : CmdWord) (s : State) : Effect (.present w) s { s with port := s.port ++ [w] }
  | setCalled (pos : Option Int) (hex : List Char) (o : SetOutcome) (s : State)
      (h : setOutcome s.cfg.n pos hex = some o) : Effect (.set pos hex) s (recordCall o s)
  | wasReset (s : State) : Effect .reset s (resetEvent s)
  /-- A command is refused: its word is taken, and nothing else but the response changes. -/
  | refused (w : CmdWord) (rest : List CmdWord) (r : Resp) (s : State) (hp : s.port = w :: rest)
      (hb : busy s = false) (hr : r ≠ .ok) (hn : r ≠ .transmissionFault)
      (hf : refusesFaulted s = true → r = .faulted) :
      Effect .command s (respond r (takeWord rest s))
  | initialised (w : CmdWord) (rest : List CmdWord) (s : State) (hp : s.port = w :: rest)
      (hd : decodeCmd48 w = .ok .init) (hb : busy s = false) (hf : refusesFaulted s = false)
      (hi : s.inited = false) : Effect .command s (respond .ok (initialise (takeWord rest s)))
  | pixelWritten (w : CmdWord) (rest : List CmdWord) (pos : Pos) (color : Colour) (s : State)
      (hp : s.port = w :: rest) (hd : decodeCmd48 w = .ok (.setpix pos color)) (hb : busy s = false)
      (hf : refusesFaulted s = false) (hn : stripIndex pos < s.cfg.n) (hl : stripIndex pos < s.strip.length) :
      Effect .command s
        { takeWord rest s with strip := s.strip.set (stripIndex pos) (pixelOf color), resp := some .ok }
  | cycleStarted (w : CmdWord) (rest : List CmdWord) (s : State) (hp : s.port = w :: rest)
      (hd : decodeCmd48 w = .ok .update) (hb : busy s = false) (hf : refusesFaulted s = false)
      (hi : s.inited = true) : Effect .command s { takeWord rest s with seq := .encode, resp := none }
  | frameEncoded (s : State) (hs : s.seq = .encode) (hl : s.strip.length = s.cfg.n)
      (hb : (encodeFrame s.cfg.sym s.strip).length ≤ frameLen s) :
      Effect .sequence s
        (beginFrameWrite { s with frame := Memory.writeBytes s.frame 0 (encodeFrame s.cfg.sym s.strip) })
  | frameTaken (r : WriteReturn) (s : State) (hs : s.seq = .txFrame) (hr : s.ret = some r)
      (hw : r.written = frameLen s) :
      Effect .sequence s
        { takeReturn .frameBuf (readFrame s 0 r.written) (frameLen s) r s with seq := .txReset }
  | frameShort (r : WriteReturn) (s : State) (hs : s.seq = .txFrame) (hr : s.ret = some r)
      (hw : r.written < frameLen s) :
      Effect .sequence s
        (faultEntry (returnKind r) .frame (takeReturn .frameBuf (readFrame s 0 r.written) (frameLen s) r s))
  | resetTaken (r : WriteReturn) (s : State) (hs : s.seq = .txReset) (hr : s.ret = some r)
      (hw : r.written = resetLen s) :
      Effect .sequence s
        { takeReturn .resetBuf (readResetBuf s 0 r.written) (resetLen s) r s with
          tickcnt := s.cfg.settleTicks, seq := .settle }
  | resetShort (r : WriteReturn) (s : State) (hs : s.seq = .txReset) (hr : s.ret = some r)
      (hw : r.written < resetLen s) :
      Effect .sequence s
        (faultEntry (returnKind r) .reset (takeReturn .resetBuf (readResetBuf s 0 r.written) (resetLen s) r s))
  | settled (s : State) (hs : s.seq = .settle) (ht : 0 < s.tickcnt) :
      Effect .tick s { s with tickcnt := s.tickcnt - 1 }
  | cleared (s : State) (hs : s.seq = .settle) (ht : s.tickcnt = 0) :
      Effect .sequence s (respond .ok { periphClear s with acceptLog := s.acceptLog ++ [.clear], seq := .idle })
  | counted (which : BufId) (n t : Nat) (s : State) (hc : currentWrite s = some (which, n))
      (ht : s.cfg.txTimeout = some t) (hlt : s.txticks < t) :
      Effect .tick s { s with txticks := s.txticks + 1 }
  | accepted (which : BufId) (n : Nat) (v : Byte) (s : State) (hc : currentWrite s = some (which, n))
      (hi : s.txidx < n) (hh : s.hold.pending.length < s.cfg.holdCap)
      (ht : timeoutElapsed s = false) (hv : offeredByte s which s.txidx = some v) :
      Effect .accept s (acceptByte v s)
  | completed (which : BufId) (n : Nat) (s : State) (hc : currentWrite s = some (which, n)) (hi : s.txidx = n) :
      Effect .complete s (returnWrite ⟨n, false⟩ s)
  | gaveUp (which : BufId) (n : Nat) (s : State) (hc : currentWrite s = some (which, n)) (hi : s.txidx < n)
      (ht : timeoutElapsed s = true) : Effect .giveUp s (returnWrite ⟨s.txidx, true⟩ s)
  | wasCut (which : BufId) (n : Nat) (s : State) (hc : currentWrite s = some (which, n)) (hi : s.txidx < n)
      (ht : timeoutElapsed s = false) : Effect .cutShort s (returnWrite ⟨s.txidx, false⟩ s)
  | shifted (v : Byte) (rest : List Byte) (s : State) (hp : s.hold.pending = v :: rest) :
      Effect .shift s
        { s with
          hold := ⟨rest, s.hold.dirty⟩
          wire := s.wire ++ [.byte (shiftedByte s v)]
          draws := if showsAnyByte s then s.draws + 1 else s.draws }
  | wentIdle (s : State) (hp : s.hold.pending = []) (hb : lastIsByte s.wire = true) :
      Effect .idle s
        { s with
          wire := s.wire ++ [.gap]
          wireFaults := if gapUnderruns s then s.wireFaults ++ [.underrun] else s.wireFaults }
  | lookedUp (g : Group) (s : State) : Effect (.lookup g) s (answerLookup g s)

theorem exec_lookup (g : Group) (s : State) : exec (decodeLut2 g) s = .next (answerLookup g s) := by
  rcases group_cases g with rfl | rfl | rfl | rfl <;> rfl

theorem takeCommand_effect {s t : State} (h : takeCommand s = .next t) : Effect .command s t := by
  unfold takeCommand at h
  split at h
  · cases h; exact .nothing _ _ (by simp)
  · rename_i w rest hp
    have hheld (hb : busy s = true) : Effect .command s (holdWord w (takeWord rest s)) := by
      rw [holdWord_takeWord hp hb]; exact .nothing _ _ (by simp)
    have hopen {r : Resp} (hf : refusesFaulted s = false) : refusesFaulted s = true → r = .faulted := by simp [hf]
    have hfaulted (hb : busy s = false) : Effect .command s (respond .faulted (takeWord rest s)) :=
      .refused w rest .faulted s hp hb (by simp) (by simp) (fun _ => rfl)
    split at h
    · rename_i i hd
      have hcw := commandWord_of_decode hd
      rcases decodeCmd48_command hd with rfl | ⟨p, c, rfl⟩ | rfl
      · rcases execInit_next h with ⟨hb, rfl⟩ | ⟨hb, _, rfl⟩ | ⟨hb, hf, hi, rfl⟩ | ⟨hb, hf, hi, rfl⟩
        · rw [hcw]; exact hheld hb
        · exact hfaulted hb
        · exact .refused w rest .alreadyInitialised s hp hb (by simp) (by simp) (hopen hf)
        · exact .initialised w rest s hp hd hb hf hi
      · rcases execSetpix_next h with ⟨hb, rfl⟩ | ⟨hb, _, rfl⟩ | ⟨hb, hf, hn, rfl⟩ | ⟨hb, hf, hn, hl, rfl⟩
        · rw [hcw]; exact hheld hb
        · exact hfaulted hb
        · exact .refused w rest .posOutOfRange s hp hb (by simp) (by simp) (hopen hf)
        · exact .pixelWritten w rest p c s hp hd hb hf hn hl
      · rcases execUpdate_next h with ⟨hb, rfl⟩ | ⟨hb, _, rfl⟩ | ⟨hb, hf, hi, rfl⟩ | ⟨hb, hf, hi, rfl⟩
        · rw [hcw]; exact hheld hb
        · exact hfaulted hb
        · exact .refused w rest .notInitialised s hp hb (by simp) (by simp) (hopen hf)
        · exact .cycleStarted w rest s hp hd hb hf hi
    · rcases commandGate_next h with ⟨hb, rfl⟩ | ⟨hb, _, rfl⟩ | ⟨hb, hf, h⟩
      · exact hheld hb
      · exact hfaulted hb
      · cases h; exact .refused w rest .illegalCommand s hp hb (by simp) (by simp) (hopen hf)

theorem sequencerStep_effect {s t : State} (h : sequencerStep s = .next t) : Effect .sequence s t := by
  have hnone : Effect .sequence s s := .nothing _ _ (by simp)
  unfold sequencerStep at h
  rw [decode_usel] at h
  cases hs : s.seq <;> simp only [hs] at h
  · cases h; exact hnone
  · obtain ⟨_, hl, hb, rfl⟩ := execEncode_next h
    exact .frameEncoded s hs hl hb
  · obtain ⟨_, ⟨_, rfl⟩ | ⟨r, hr, hw, rfl⟩ | ⟨r, hr, hw, rfl⟩⟩ := execTxframe_next h
    · exact hnone
    · exact .frameTaken r s hs hr hw
    · exact .frameShort r s hs hr hw
  · obtain ⟨_, ⟨_, rfl⟩ | ⟨r, hr, hw, rfl⟩ | ⟨r, hr, hw, rfl⟩⟩ := execTxreset_next h
    · exact hnone
    · exact .resetTaken r s hs hr hw
    · exact .resetShort r s hs hr hw
  · by_cases ht : s.tickcnt = 0
    · simp only [ht, if_true] at h
      obtain ⟨_, _, rfl⟩ := execClear_next h
      exact .cleared s hs ht
    · simp only [ht, if_false, if_true] at h
      cases h; exact hnone
  · cases h; exact hnone

theorem countWriteTick_effect (s : State) : Effect .tick s (countWriteTick s) := by
  have hnone : Effect .tick s s := .nothing _ _ (by simp)
  unfold countWriteTick
  split
  · rename_i x t hc ht
    split
    · exact .counted x.1 x.2 t s hc ht ‹_›
    · exact hnone
  · exact hnone
  · exact hnone

theorem tickStep_effect {s t : State} (h : tickStep s = .next t) : Effect .tick s t := by
  unfold tickStep at h
  split at h
  · split at h
    · rename_i i hd hi
      subst hi
      obtain ⟨hs, ht, rfl⟩ := execSettle_next h
      exact .settled s hs ht
    · cases h; exact countWriteTick_effect s
  · cases h; exact countWriteTick_effect s

/-- Everything a move can do. -/
theorem runMove_effect {m : Move} {s t : State} (h : runMove m s = .next t) : Effect m s t := by
  have hnone : m ≠ .reset → Effect m s s := .nothing m s
  cases m with
  | present w => cases h; exact .presented w s
  | set pos hex =>
    simp only [runMove, callSetter] at h
    split at h
    · rename_i o ho; cases h; exact .setCalled pos hex o s ho
    · cases h
  | sample => cases h; exact hnone (by simp)
  | reset => cases h; exact .wasReset s
  | command => exact takeCommand_effect h
  | sequence => exact sequencerStep_effect h
  | tick => exact tickStep_effect h
  | accept =>
    simp only [runMove, periphAccept] at h
    split at h
    · cases h; exact hnone (by simp)
    · rename_i which n hc
      split at h
      · rename_i hg
        split at h
        · rename_i v hv; cases h; exact .accepted which n v s hc hg.1 hg.2.1 hg.2.2 hv
        · cases h
      · cases h; exact hnone (by simp)
  | complete =>
    simp only [runMove, periphComplete] at h
    split at h
    · cases h; exact hnone (by simp)
    · rename_i which n hc
      split at h <;> cases h
      · exact .completed which n s hc ‹_›
      · exact hnone (by simp)
  | giveUp =>
    simp only [runMove, periphGiveUp] at h
    split at h
    · cases h; exact hnone (by simp)
    · rename_i which n hc
      split at h <;> cases h
      · rename_i hg; exact .gaveUp which n s hc hg.1 hg.2
      · exact hnone (by simp)
  | cutShort =>
    simp only [runMove, periphCutShort] at h
    split at h
    · cases h; exact hnone (by simp)
    · rename_i which n hc
      split at h <;> cases h
      · rename_i hg; exact .wasCut which n s hc hg.1 hg.2
      · exact hnone (by simp)
  | shift =>
    simp only [runMove, periphShift] at h
    split at h
    · cases h; exact hnone (by simp)
    · rename_i v rest hp; cases h; exact .shifted v rest s hp
  | idle =>
    simp only [runMove, periphIdle] at h
    split at h
    · rename_i hg; cases h; exact .wentIdle s hg.1 hg.2
    · cases h; exact hnone (by simp)
  | lookup g =>
    simp only [runMove, exec_lookup] at h
    cases h; exact .lookedUp g s

/-- Everything a step can do. -/
theorem step_effect {s t : State} (h : step s = .next t) : Effect (nextMove s) (afterMove s) t :=
  runMove_effect h

end Sys2Proof.Machine
end

