-- ==== Sys2Proof/Laws/Premises.lean ====
section
/-! SUPPORT. What the premise P1 gives (spec/43_peripheral_and_wire.md R155: "under P1 every write returns n"): no move
under it returns a write short, and a write in progress returns its full length before the moves are over. -/

namespace Sys2Proof.Machine

/-- P1 is stronger than what the safety statements use of it. -/
theorem PremiseP1.fullWriteMove {s : State} {n : Nat} {ms : List Move} (h : PremiseP1 s n ms) :
    ∀ m ∈ ms, Machine.fullWriteMove s.cfg m :=
  fun _ hm => ⟨fun he => h.sized.2 (he ▸ hm), fun _ => h.unbounded⟩

/-! ### Runs by their moves -/

theorem Moves.append {as bs : List Move} {s t u : State} (h : Moves as s t) (h' : Moves bs t u) :
    Moves (as ++ bs) s u := by
  induction h with
  | none => exact h'
  | more s t _ ms hs _ ih => exact .more s t u _ hs (ih h')

theorem Moves.split {as bs : List Move} {s u : State} (h : Moves (as ++ bs) s u) :
    ∃ t, Moves as s t ∧ Moves bs t u := by
  generalize hl : as ++ bs = l at h
  induction h generalizing as with
  | none s =>
    obtain ⟨rfl, rfl⟩ := List.append_eq_nil_iff.1 hl
    exact ⟨s, .none s, .none s⟩
  | more s t u ms hs hm ih =>
    cases as with
    | nil => exact ⟨s, .none s, by rw [List.nil_append] at hl; rw [hl]; exact .more s t u ms hs hm⟩
    | cons a as =>
      rw [List.cons_append, List.cons.injEq] at hl
      obtain ⟨rfl, hl⟩ := hl
      obtain ⟨v, hv, hv'⟩ := ih hl
      exact ⟨v, .more s t v _ hs hv, hv'⟩

/-- The first move of a run and what follows it. -/
theorem Moves.head {m : Move} {ms : List Move} {s u : State} (h : Moves (m :: ms) s u) :
    ∃ t, nextMove s = m ∧ step s = .next t ∧ Moves ms t u := by
  cases h with
  | more _ t _ _ hs hm => exact ⟨t, rfl, hs, hm⟩

/-! ### A write under P1 -/

/-- A write of `n` bytes is in progress, without a bound, on a holding buffer that has a place. -/
structure Writing (n : Nat) (s : State) : Prop where
  inProgress : ∃ which, currentWrite s = some (which, n)
  accepted : s.txidx ≤ n
  unbounded : s.cfg.txTimeout = none
  capacity : 0 < s.cfg.holdCap
  pending : s.hold.pending.length ≤ s.cfg.holdCap

/-- `HOLD` has room. -/
def hasRoom (s : State) : Prop := s.hold.pending.length < s.cfg.holdCap

/-- How such a write goes on in one step: accepted bytes stay accepted, a completion with all bytes accepted returns it,
the shifter makes room, room is lost to an accepted byte only, and the acceptor uses it. -/
structure GoesOn (n : Nat) (s t : State) : Prop where
  writing : Writing n t
  grows : s.txidx ≤ t.txidx
  notDone : nextMove s = .complete → s.txidx < n
  shifted : nextMove s = .shift → hasRoom t
  keepsRoom : hasRoom s → hasRoom t ∨ s.txidx < t.txidx
  uses : nextMove s = .accept → hasRoom s → s.txidx = n ∨ s.txidx < t.txidx

theorem writing_afterMove {n : Nat} {s : State} (h : Writing n s) : Writing n (afterMove s) := by
  obtain ⟨⟨w, h1⟩, h2, h3, h4, h5⟩ := h
  exact ⟨⟨w, by simpa [currentWrite, frameLen, resetLen] using h1⟩, by simpa, by simpa, by simpa, by simpa⟩

/-- Everything a step can do to such a write, reset and a cut apart: it returns in full, or goes on. -/
theorem writing_step {n : Nat} {s t : State} (h : Writing n s) (hs : step s = .next t) (hr : nextMove s ≠ .reset)
    (hc : nextMove s ≠ .cutShort) : t.ret = some ⟨n, false⟩ ∨ GoesOn n s t := by
  have hw := writing_afterMove h
  have e1 := afterMove_txidx s
  have e2 : hasRoom s ↔ hasRoom (afterMove s) := by simp [hasRoom]
  unfold step at hs
  suffices H : t.ret = some ⟨n, false⟩ ∨ Writing n t ∧ (afterMove s).txidx ≤ t.txidx ∧
      (nextMove s = .complete → (afterMove s).txidx < n) ∧ (nextMove s = .shift → hasRoom t) ∧
      (hasRoom (afterMove s) → hasRoom t ∨ (afterMove s).txidx < t.txidx) ∧
      (nextMove s = .accept → hasRoom (afterMove s) → (afterMove s).txidx = n ∨ (afterMove s).txidx < t.txidx) by
    rcases H with H | ⟨a, b, c, d, e, f⟩
    · exact .inl H
    · rw [e1] at b c e f; rw [← e2] at e f; exact .inr ⟨a, b, c, d, e, f⟩
  generalize nextMove s = m at hs hr hc ⊢
  generalize afterMove s = u at hs hw ⊢
  clear h e1 e2
  obtain ⟨⟨w, h1⟩, h2, h3, h4, h5⟩ := hw
  have same {v : State} (e1 : v.seq = u.seq) (e2 : v.ret = u.ret) (e3 : v.cfg = u.cfg) (e4 : v.txidx = u.txidx)
      (e5 : v.hold.pending.length ≤ u.hold.pending.length) : Writing n v :=
    ⟨⟨w, by simpa [currentWrite, frameLen, resetLen, e1, e2, e3] using h1⟩, by omega, by rw [e3]; exact h3,
      by rw [e3]; exact h4, by rw [e3]; omega⟩
  have hto : timeoutElapsed u = false := by simp [timeoutElapsed, h3]
  have goes (e1 : t.seq = u.seq) (e2 : t.ret = u.ret) (e3 : t.cfg = u.cfg) (e4 : t.txidx = u.txidx)
      (e5 : t.hold.pending.length ≤ u.hold.pending.length) (n1 : m ≠ .complete) (n2 : m ≠ .shift) (n3 : m ≠ .accept) :
      t.ret = some ⟨n, false⟩ ∨ Writing n t ∧ u.txidx ≤ t.txidx ∧ (m = .complete → u.txidx < n) ∧
      (m = .shift → hasRoom t) ∧ (hasRoom u → hasRoom t ∨ u.txidx < t.txidx) ∧
      (m = .accept → hasRoom u → u.txidx = n ∨ u.txidx < t.txidx) :=
    .inr ⟨same e1 e2 e3 e4 e5, by omega, fun h => absurd h n1, fun h => absurd h n2,
      fun h => .inl (by unfold hasRoom at *; rw [e3]; omega), fun h => absurd h n3⟩
  have hb : busy u = true := by
    rcases (currentWrite_cases h1).2 with ⟨h, _⟩ | ⟨h, _⟩ <;> simp [busy, h]
  have hseq := currentWrite_cases h1
  by_cases ma : m = .accept
  · subst ma
    simp only [runMove, periphAccept, h1, hto, and_true] at hs
    split at hs
    · rename_i hg
      split at hs
      · rename_i v _
        cases hs
        refine .inr ⟨⟨⟨w, h1⟩, ?_, h3, h4, ?_⟩, ?_, by simp, by simp, ?_, ?_⟩
        · simp; omega
        · simp; omega
        · simp
        · intro _; right; simp
        · intro _ _; right; simp
      · cases hs
    · rename_i hg
      cases hs
      refine .inr ⟨⟨⟨w, h1⟩, h2, h3, h4, h5⟩, le_refl _, by simp, by simp, fun h => .inl h, ?_⟩
      intro _ hroom; unfold hasRoom at hroom; left; omega
  by_cases mc : m = .complete
  · subst mc
    simp only [runMove, periphComplete, h1] at hs
    split at hs
    · cases hs; left; simp
    · cases hs
      exact .inr ⟨⟨⟨w, h1⟩, h2, h3, h4, h5⟩, le_refl _, fun _ => by omega, by simp, fun h => .inl h, by simp⟩
  by_cases ms : m = .shift
  · subst ms
    simp only [runMove, periphShift] at hs
    split at hs
    · rename_i hp
      cases hs
      exact .inr ⟨⟨⟨w, h1⟩, h2, h3, h4, h5⟩, le_refl _, by simp, fun _ => by simp [hasRoom, hp]; exact h4,
        fun h => .inl h, by simp⟩
    · rename_i v rest hp
      cases hs
      rw [hp] at h5; simp at h5
      refine .inr ⟨⟨⟨w, h1⟩, h2, h3, h4, ?_⟩, le_refl _, by simp, fun _ => ?_, fun _ => .inl ?_, by simp⟩
      · simp; omega
      · simp [hasRoom]; omega
      · simp [hasRoom]; omega
  have h := runMove_effect hs
  cases h <;> first
    | exact absurd rfl hr
    | exact absurd rfl hc
    | exact absurd rfl ma
    | exact absurd rfl mc
    | exact absurd rfl ms
    | exact goes rfl rfl rfl rfl (le_refl _) mc ms ma
    | (exfalso; simp_all)

/-- In a run the write has returned in full at some point. -/
def ReturnsFull (n : Nat) (ms : List Move) (s t : State) : Prop :=
  ∃ as bs u, ms = as ++ bs ∧ Moves as s u ∧ Moves bs u t ∧ u.ret = some ⟨n, false⟩

theorem ReturnsFull.after {n : Nat} {as bs : List Move} {s t u : State} (h : Moves as s t) (h' : ReturnsFull n bs t u) :
    ReturnsFull n (as ++ bs) s u := by
  obtain ⟨xs, ys, v, rfl, hx, hy, hv⟩ := h'
  exact ⟨as ++ xs, ys, v, by rw [List.append_assoc], h.append hx, hy, hv⟩

theorem ReturnsFull.before {n : Nat} {as bs : List Move} {s t u : State} (h : ReturnsFull n as s t)
    (h' : Moves bs t u) : ReturnsFull n (as ++ bs) s u := by
  obtain ⟨xs, ys, v, rfl, hx, hy, hv⟩ := h
  exact ⟨xs, ys ++ bs, v, by rw [List.append_assoc], hx, hy.append h', hv⟩

/-- Along a run a write returns in full, or goes on with every property its steps keep. -/
theorem writing_moves {n : Nat} {P : State → Prop} (hP : ∀ s t, GoesOn n s t → P s → P t) {ms : List Move} {s t : State}
    (h : Moves ms s t) (hw : Writing n s) (hs : P s) (hr : .reset ∉ ms) (hc : .cutShort ∉ ms) :
    ReturnsFull n ms s t ∨ (Writing n t ∧ P t) := by
  induction h with
  | none s => exact .inr ⟨hw, hs⟩
  | more s u t ms hst hm ih =>
    simp only [List.mem_cons, not_or] at hr hc
    rcases writing_step hw hst (Ne.symm hr.1) (Ne.symm hc.1) with hret | hg
    · exact .inl ⟨[nextMove s], ms, u, rfl, .more s u u [] hst (.none u), hm, hret⟩
    · rcases ih hg.writing (hP _ _ hg hs) hr.2 hc.2 with h | h
      · exact .inl (h.after (as := [nextMove s]) (.more s u u [] hst (.none u)))
      · exact .inr h

/-- One step of a run, as part of it. -/
theorem writing_one {n : Nat} {m : Move} {ms : List Move} {s t : State} (h : Moves (m :: ms) s t) (hw : Writing n s)
    (hr : m ≠ .reset) (hc : m ≠ .cutShort) :
    ReturnsFull n (m :: ms) s t ∨ ∃ u, nextMove s = m ∧ GoesOn n s u ∧ Moves [m] s u ∧ Moves ms u t := by
  obtain ⟨u, rfl, hu, hm⟩ := h.head
  rcases writing_step hw hu hr hc with hret | hg
  · exact .inl ⟨[nextMove s], ms, u, rfl, .more s u u [] hu (.none u), hm, hret⟩
  · exact .inr ⟨u, rfl, hg, .more s u u [] hu (.none u), hm⟩

/-- With as many rounds to come as bytes are not accepted, the write returns in full. -/
theorem returns_full {n k : Nat} {ms : List Move} {s t : State} (hw : Writing n s) (h : Moves ms s t)
    (hr : .reset ∉ ms) (hc : .cutShort ∉ ms) (hl : liveFor k ms) (hk : n ≤ s.txidx + k) : ReturnsFull n ms s t := by
  induction k generalizing ms s with
  | zero =>
    obtain ⟨as, bs, rfl⟩ := List.append_of_mem hl
    simp only [List.mem_append, List.mem_cons, not_or] at hr hc
    obtain ⟨u, ha, hb⟩ := h.split
    rcases writing_moves (P := fun v => n ≤ v.txidx) (fun _ _ g p => le_trans p g.grows) ha hw (by omega) hr.1 hc.1 with h | ⟨hw, hn⟩
    · exact h.before hb
    · rcases writing_one hb hw (by simp) (by simp) with h | ⟨v, hm, hg, _⟩
      · exact .after ha h
      · have := hg.notDone hm; omega
  | succ k ih =>
    obtain ⟨as, bs, cs, rfl, hl⟩ := hl
    simp only [List.mem_append, List.mem_cons, not_or] at hr hc
    obtain ⟨u, ha, h⟩ := h.split
    rcases writing_moves (P := fun v => s.txidx ≤ v.txidx) (fun _ _ g p => le_trans p g.grows) ha hw (le_refl _) hr.1 hc.1
      with hret | ⟨hw1, h1⟩
    · exact hret.before h
    refine .after ha ?_
    rcases writing_one h hw1 (by simp) (by simp) with hret | ⟨v, hm, hg, hv, h⟩
    · exact hret
    refine .after hv ?_
    have hroom := hg.shifted hm
    have hge := hg.grows
    obtain ⟨x, hb, h⟩ := h.split
    rcases writing_moves (P := fun v => s.txidx ≤ v.txidx ∧ (hasRoom v ∨ s.txidx < v.txidx))
      (fun _ _ g p => ⟨le_trans p.1 g.grows, by
        have := g.grows
        rcases p.2 with q | q
        · rcases g.keepsRoom q with q | q
          · exact .inl q
          · exact .inr (by omega)
        · exact .inr (by omega)⟩) hb hg.writing ⟨by omega, .inl hroom⟩ hr.2.2.1 hc.2.2.1 with hret | ⟨hw2, h2, h3⟩
    · exact hret.before h
    refine .after hb ?_
    rcases writing_one h hw2 (by simp) (by simp) with hret | ⟨y, hm, hg, hy, h⟩
    · exact hret
    refine .after hy (ih hg.writing h hr.2.2.2.2 hc.2.2.2.2 hl ?_)
    have := hg.grows
    rcases h3 with h3 | h3
    · rcases hg.uses hm h3 with h | h <;> omega
    · omega

/-- "Under P1 every write returns n" (R155). -/
theorem write_returns_under_P1 {s t : State} {which : BufId} {n : Nat} {ms : List Move} (hi : Inv s)
    (hc : currentWrite s = some (which, n)) (hp : PremiseP1 s n ms) (hr : .reset ∉ ms) (h : Moves ms s t) :
    ReturnsFull n ms s t :=
  returns_full ⟨⟨which, hc⟩, hi.txidxBound which n hc, hp.unbounded, by
      have := hi.cfgWf; simp [Params.wf] at this; omega, hi.holdCap⟩ h hr hp.sized.2 hp.live (by omega)

end Sys2Proof.Machine
end

