-- ==== Sys2Proof/Laws/Safety.lean ====
section
/-! SUPPORT. The invariant as a check a kernel can evaluate, so that a concrete state is shown to meet it by one
evaluation; the conditions of the wire-level faults, written out; that taking a move from the schedule changes none of
the predicates of Sys2Proof/Safety.lean; and that no step leaves the end of a run (R213). -/

namespace Sys2Proof.Machine

/-- The clauses of `Inv`, evaluated. -/
def invCheck (s : State) : Bool :=
  s.cfg.wf && decide (s.strip.length = s.cfg.n) && decide (s.resetBuf = List.replicate s.cfg.resetLen 0)
  && decide (Memory.wf s.frame) && decide (∀ c ∈ s.frame, c.1 < frameLen s)
  && (!holdsFrame s || decide (∀ a, a < frameLen s → Memory.byteAt s.frame a = (encodeFrame s.cfg.sym s.strip)[a]?))
  && decide (s.fault = true ↔ s.seq = .fault) && decide (s.faultKind = .none ↔ s.fault = false)
  && (s.inited || decide (s.seq = .idle)) && decide (s.txcnt ≤ max (frameLen s) (resetLen s))
  && (match currentWrite s with
      | some (_, n) => decide (s.txidx ≤ n)
      | none => decide (s.txidx = 0 ∧ s.txticks = 0))
  && (match s.cfg.txTimeout with
      | some t => decide (s.txticks ≤ t)
      | none => true)
  && (match s.ret with
      | some r =>
        decide ((s.seq = .txFrame ∧ r.written ≤ frameLen s) ∨ (s.seq = .txReset ∧ r.written ≤ resetLen s))
        && (!r.timedOut || decide (s.cfg.txTimeout ≠ none ∧ (s.seq = .txFrame → r.written < frameLen s) ∧
              (s.seq = .txReset → r.written < resetLen s)))
      | none => true)
  && decide (s.tickcnt ≤ s.cfg.settleTicks) && (decide (s.seq = .settle) || decide (s.tickcnt = 0))
  && decide (s.hold.pending.length ≤ s.cfg.holdCap) && (s.hold.dirty || decide (s.hold.pending = []))
  && (!s.inited || !(decide (s.seq = .idle) || decide (s.seq = .encode)
        || (decide (s.seq = .txFrame) && decide (s.ret = none) && decide (s.txidx = 0))) || holdClear s)
  && !s.staleCycle && decide (.staleHold ∉ s.wireFaults)
  && (!busy s || decide (s.resp = none))
  && s.setter.all (fun c => c.status.isSome || if c.ahead = 0 then busy s || decide (s.resp ≠ none)
        else decide (s.port[c.ahead - 1]? = some (cmdWordOf 0x03 0 0)))

/-- A state that passes the check meets the invariant. -/
theorem inv_of_check {s : State} (h : invCheck s = true) : Inv s := by
  simp only [invCheck, Bool.and_eq_true, decide_eq_true_eq, Bool.or_eq_true, Bool.not_eq_true'] at h
  obtain ⟨⟨⟨⟨⟨⟨⟨⟨⟨⟨⟨⟨⟨⟨⟨⟨⟨⟨⟨⟨⟨h1, h2⟩, h3⟩, h4⟩, h5⟩, h6⟩, h7⟩, h8⟩, h9⟩, h10⟩, h11⟩, h12⟩, h13⟩, h14⟩, h15⟩, h16⟩,
    h17⟩, h18⟩, h19⟩, h20⟩, h21⟩, h22⟩ := h
  refine ⟨h1, h2, h3, h4, h5, ?_, h7, h8, ?_, h10, ?_, ?_, ?_, ?_, ?_, h14, ?_, h16, ?_, ?_, ⟨h19, h20⟩, ?_, ?_⟩
  · intro hh; simpa [hh] using h6
  · intro hi; simpa [hi] using h9
  · intro w n hc; simpa [hc] using h11
  · intro hc; simpa [hc] using h11
  · intro t ht; simpa [ht] using h12
  · intro r hr; simp only [hr, Bool.and_eq_true, decide_eq_true_eq] at h13; exact h13.1
  · intro r hr ht
    simp only [hr, Bool.and_eq_true, decide_eq_true_eq, Bool.or_eq_true, ht] at h13
    simpa using h13.2
  · intro hs; simpa [hs] using h15
  · intro hd; simpa [hd] using h17
  · intro hi hb
    rcases h18 with (h | h) | h
    · simp [hi] at h
    · rcases hb with hb | hb | ⟨hb, hr, ht⟩
      · simp [hb] at h
      · simp [hb] at h
      · simp [hb, hr, ht] at h
    · exact h
  · intro hb; simpa [hb] using h21
  · intro c hc hn
    have hw := List.all_eq_true.1 h22 c hc
    simp only [hn, Option.isSome_none, Bool.false_or] at hw
    refine ⟨fun ha => ?_, fun ha hb => ?_⟩
    · rw [if_neg (by omega)] at hw; simpa using hw
    · rw [if_pos ha, hb] at hw; simpa using hw

/-! ### The conditions of the wire-level faults, written out -/

theorem holdClear_eq_true_iff (s : State) : holdClear s = true ↔ s.hold.pending = [] ∧ s.hold.dirty = false := by
  simp [holdClear]

theorem holdClear_eq_false_iff (s : State) : holdClear s = false ↔ s.hold.pending ≠ [] ∨ s.hold.dirty = true := by
  unfold holdClear; cases s.hold.pending <;> simp

theorem gapUnderruns_eq_true_iff (s : State) :
    gapUnderruns s = true ↔ s.seq = .txFrame ∧ s.ret = none ∧ 0 < s.txidx ∧ s.txidx < 12 * s.cfg.n := by
  simp only [gapUnderruns, Bool.and_eq_true, decide_eq_true_eq, Option.isNone_iff_eq_none, and_assoc]
  rfl

/-! ### Taking a move from the schedule -/

theorem inv_afterMove {s : State} (h : Inv s) : Inv (afterMove s) := by
  obtain ⟨h1, h2, h3, h4, h5, h6, h7, h8, h9, h10, h11, h12, h13, h14, h15, h16, h17, h18, h19, h20, h21, h22, h23⟩ := h
  unfold afterMove
  split <;>
    exact ⟨h1, h2, h3, h4, h5, h6, h7, h8, h9, h10, h11, h12, h13, h14, h15, h16, h17, h18, h19, h20, h21, h22, h23⟩

theorem busy_afterMove (s : State) : busy (afterMove s) = busy s := by simp [busy]

theorem holdClear_afterMove (s : State) : holdClear (afterMove s) = holdClear s := by simp [holdClear]

theorem gapUnderruns_afterMove (s : State) : gapUnderruns (afterMove s) = gapUnderruns s := by
  unfold afterMove; split <;> rfl

theorem frameByte_afterMove (s : State) (a : Nat) : frameByte (afterMove s) a = frameByte s a := by simp [frameByte]

theorem cycleLog_afterMove (L : List LogEntry) (s : State) : cycleLog L (afterMove s) ↔ cycleLog L s := by
  unfold cycleLog frameEntry resetEntry cycleFrame frameLen resetLen holdClear
  simp only [afterMove_seq]
  cases s.seq <;> simp

theorem cycleWire_afterMove (W : List WireEvent) (F : List WireFault) (s : State) :
    cycleWire W F (afterMove s) ↔ cycleWire W F s := by
  unfold cycleWire fullReturn acceptedInCycle cycleFrame acceptedCount frameLen resetLen
  simp

/-! ### What is sent -/

theorem Inv.wireHasMeaning {s : State} (h : Inv s) : wireHasMeaning s := by
  refine ⟨h.neverStale.1, fun hs => ?_⟩
  cases hi : s.inited
  · simp [h.initFirst hi] at hs
  · have := h.cleanStart hi (.inr (.inl hs))
    simp [holdClear] at this; exact this.1

/-- Such a byte is sent as it is, and draws no free value. -/
theorem showsAnyByte_eq_false {s : State} (h : wireHasMeaning s) (hp : s.hold.pending ≠ []) :
    showsAnyByte s = false := by
  simp only [showsAnyByte, h.1, Bool.false_or, decide_eq_false_iff_not]
  exact fun hs => hp (h.2 hs)

/-! ### The end of a run -/

theorem goodEnd_not_fault {s : State} (h : s.seq = .fault) : ¬ goodEnd s := fun g => by
  have := g.2.1; simp [h] at this

/-- At a good end the next move is no command of the host, and after it there is still none. -/
theorem noFurtherCommand_afterMove {s : State} (h : noFurtherCommand s) :
    hostCommand (nextMove s) = false ∧ noFurtherCommand (afterMove s) := by
  obtain ⟨hp, hs, hf⟩ := h
  unfold nextMove afterMove noFurtherCommand
  split
  · rename_i m rest hr
    rw [hr] at hs
    exact ⟨hs m (by simp), hp, fun x hx => hs x (by simp [hx]), hf⟩
  · rename_i hr
    exact ⟨hf _ (le_refl _), hp, by simp [hr], fun k hk => hf k (by simp at hk; omega)⟩

/-- A run that is over stays so, whatever step comes. -/
theorem goodEnd_step {s t : State} (h : goodEnd s) (hs : step s = .next t) : goodEnd t := by
  obtain ⟨hn, h1, h2, h3, h4, h5⟩ := h
  obtain ⟨hm, hn⟩ := noFurtherCommand_afterMove hn
  have he := step_effect hs
  have g : goodEnd (afterMove s) :=
    ⟨hn, by simpa, by simpa [currentWrite, frameLen, resetLen] using h2, by simpa, by simpa, by simpa⟩
  revert g hm he
  generalize nextMove s = m
  generalize afterMove s = u
  clear hs hn h1 h2 h3 h4 h5
  intro hm he g
  obtain ⟨⟨hp, hq, hf⟩, h1, h2, h3, h4, h5⟩ := g
  cases he <;> first
    | simp [hostCommand] at hm; done
    | simp_all; done
    | exact ⟨⟨hp, hq, hf⟩, h1, h2, h3, h4, h5⟩
    | exact ⟨⟨rfl, hq, fun k hk => hf k (by simp [resetEvent] at hk; omega)⟩, rfl, rfl, rfl, rfl, rfl⟩

/-! ### Wire events -/

@[simp] theorem wireBytes_append (a b : List WireEvent) : wireBytes (a ++ b) = wireBytes a ++ wireBytes b := by
  induction a with
  | nil => rfl
  | cons e a ih => cases e <;> simp [wireBytes, ih]

/-- Gaps are counted against the bytes that went before. -/
theorem gapFree_append (n k : Nat) (a b : List WireEvent) :
    gapFree n k (a ++ b) = (gapFree n k a && gapFree n (k + (wireBytes a).length) b) := by
  induction a generalizing k with
  | nil => simp [gapFree, wireBytes]
  | cons e a ih =>
    cases e
    · simp only [List.cons_append, gapFree, ih, wireBytes, List.length_cons]
      congr 2; omega
    · simp only [List.cons_append, gapFree, ih, wireBytes, Bool.and_assoc]

theorem lastIsByte_append_byte (es : List WireEvent) (v : Byte) : lastIsByte (es ++ [.byte v]) = true := by
  induction es with
  | nil => rfl
  | cons e es ih => cases es with
    | nil => cases e <;> rfl
    | cons f es => cases e <;> exact ih

theorem lastIsByte_append_gap (es : List WireEvent) : lastIsByte (es ++ [.gap]) = false := by
  induction es with
  | nil => rfl
  | cons e es ih => cases es with
    | nil => cases e <;> rfl
    | cons f es => cases e <;> exact ih

end Sys2Proof.Machine
end

