-- ==== Sys2Proof/Tests/Slice0.lean ====
section
/-! SUPPORT. The model's own tests: the checks on parameters with an ill-formed instance for each, every
constructor's decoding from a word written out, one-step tests whose expected values are those of
spec/95_test_vectors.md, and a witness for the hypotheses of every statement that has some. -/

namespace Sys2Proof.Machine.Tests

/-! ### Helpers -/

/-- A property of the next state. -/
def nextIs (o : Out) (p : State → Bool) : Bool :=
  match o with
  | .next t => p t
  | .fault _ => false
  | .refused _ => false

/-- An instance of one LED, with short constants and a finite `TX_TIMEOUT`. -/
def one : Params := { Config.defaultParams with n := 1, holdCap := 12, resetLen := 2, settleTicks := 2, txTimeout := some 3 }

/-- The frame of one red pixel (S2). -/
def redFrame : List Byte := [0x88, 0x88, 0x88, 0x88, 0xEE, 0xEE, 0xEE, 0xEE, 0x88, 0x88, 0x88, 0x88]

/-- Idle, initialised, one red pixel. -/
def idle1 : State := { State.resetOf one with inited := true, strip := [⟨0xFF, 0, 0⟩] }

/-- The cycle has started. -/
def enc1 : State := { idle1 with seq := .encode }

/-- The same with `HOLD` not clear. -/
def stale1 (residue : List Byte) : State := { enc1 with hold := ⟨residue, true⟩ }

/-- The frame write, `k` bytes accepted and none sent. -/
def frm1 (k : Nat) : State :=
  { idle1 with seq := .txFrame, frame := (List.range 12).zip redFrame, txidx := k, hold := ⟨redFrame.take k, decide (0 < k)⟩ }

/-- The reset write, `k` bytes accepted, the frame sent. -/
def rst1 (k : Nat) : State :=
  { idle1 with seq := .txReset, frame := (List.range 12).zip redFrame, txidx := k, txcnt := 12,
               hold := ⟨List.replicate k 0, true⟩, wire := redFrame.map .byte }

/-- The delay, `k` ticks to go. -/
def set1 (k : Nat) : State :=
  { idle1 with seq := .settle, frame := (List.range 12).zip redFrame, txcnt := 2, tickcnt := k, hold := ⟨[], true⟩ }

/-- The fault of a frame write that returned 5 (V12). -/
def flt1 : State :=
  { idle1 with seq := .fault, fault := true, faultKind := .shortWrite, frame := (List.range 12).zip redFrame, txcnt := 5,
               hold := ⟨[], true⟩ }

/-- A write has returned. -/
def returned (w : Nat) (late : Bool) (s : State) : State := { s with ret := some ⟨w, late⟩, txidx := 0 }

/-- A move is next. -/
def will (m : Move) (s : State) : State := { s with sched := [m] }

/-- A word waits at the port, and the port moves next. -/
def offers (w : CmdWord) (s : State) : State := { s with port := [w], sched := [.command] }

/-! ### WellFormed: each check refuses an ill-formed instance -/

theorem test_wf_accepts_default : Config.defaultParams.validated = true := by decide
theorem test_wf_refuses_no_leds : { one with n := 0, holdCap := 0 }.wf = false := by decide
theorem test_wf_refuses_too_many_leds : { one with n := 65537, holdCap := 786444 }.wf = false := by decide
theorem test_wf_accepts_largest_strip : { one with n := 65536, holdCap := 786432 }.wf = true := by decide
theorem test_wf_refuses_empty_reset_buffer : { one with resetLen := 0 }.wf = false := by decide
theorem test_wf_refuses_equal_symbols : { one with sym := ⟨0x88, 0x8E, 0xE8, 0x88⟩ }.wf = false := by decide
theorem test_wf_refuses_zero_symbol : { one with sym := ⟨0x88, 0x8E, 0, 0xEE⟩ }.wf = false := by decide
theorem test_wf_refuses_other_capacity : { one with holdCap := 13 }.wf = false := by decide
theorem test_wf_refuses_short_reset_time : { one with tResetMin := 5329 }.validated = false := by decide
theorem test_wf_holds_of_every_instruction : (Instr.setpix 65535 0xFFFFFF).wf = true := by decide

/-! ### Decoding: a word of every constructor, written out bit by bit from its format -/

theorem test_decode_init :
    decodeCmd48 0b000000010000000000000000000000000000000000000000 = .ok .init := by decide
theorem test_decode_setpix :
    decodeCmd48 0b000000100000000000000010000100100011010001010110 = .ok (.setpix 2 0x123456) := by decide
theorem test_decode_update :
    decodeCmd48 0b000000110000000000000000000000000000000000000000 = .ok .update := by decide
theorem test_decode_encode : decodeUsel4 0b0010 = .ok .encode ∧ decodeUsel4 0b0011 = .ok .encode := by decide
theorem test_decode_txframe : decodeUsel4 0b0100 = .ok .txframe ∧ decodeUsel4 0b0101 = .ok .txframe := by decide
theorem test_decode_txreset : decodeUsel4 0b0110 = .ok .txreset ∧ decodeUsel4 0b0111 = .ok .txreset := by decide
theorem test_decode_settle : decodeUsel4 0b1000 = .ok .settle := by decide
theorem test_decode_clear : decodeUsel4 0b1001 = .ok .clear := by decide
theorem test_decode_sym : decodeLut2 0b00 = .sym0 ∧ decodeLut2 0b01 = .sym1 ∧ decodeLut2 0b10 = .sym2 ∧
    decodeLut2 0b11 = .sym3 := by decide
theorem test_decode_no_micro_operation :
    decodeUsel4 0b0000 = .error .noMicroOp ∧ decodeUsel4 0b1111 = .error .noMicroOp ∧
    decodeUsel4 0b1010 = .error .neverOccurs ∧ decodeUsel4 0b1101 = .error .neverOccurs := by decide
/-- V8 and P5. -/
theorem test_decode_reserved :
    decodeCmd48 0x070000000000 = .error .illegalCommand ∧ decodeCmd48 0x030000000001 = .error .illegalCommand ∧
    decodeCmd48 0x010000000001 = .error .illegalCommand ∧ decodeCmd48 0 = .error .illegalCommand := by decide
/-- P2's words, as the encoder writes them. -/
theorem test_encode_setpix : Sys2Proof.encode (.setpix 2 0x00FF00) = .cmd48 0x02000200FF00 := by decide

/-! ### Fetching a table word -/

theorem test_fetch_command :
    nextIs (step (State.reset.withFetchWord 48 0x020002123456)) (fun t => t.strip == [⟨0, 0, 0⟩, ⟨0, 0, 0⟩, ⟨0x12, 0x34, 0x56⟩])
      = true := by decide
theorem test_fetch_selector :
    nextIs (step (State.reset.withFetchWord 4 0b0010)) (fun t => t.seq == .txFrame) = true := by decide
theorem test_fetch_lookup :
    nextIs (step (State.reset.withFetchWord 2 0b11)) (fun t => t.symOut == 0xEE) = true := by decide

/-! ### The encoder -/

/-- V2. -/
theorem test_channel : encodeChannel Config.defaultSym 0x1B = [0x88, 0x8E, 0xE8, 0xEE] ∧
    encodeChannel Config.defaultSym 0x40 = [0x8E, 0x88, 0x88, 0x88] := by decide
/-- V4. -/
theorem test_pixel : encodePixel Config.defaultSym ⟨0x12, 0x34, 0x56⟩ =
    [0x88, 0xEE, 0x8E, 0x88, 0x88, 0x8E, 0x88, 0xE8, 0x8E, 0x8E, 0x8E, 0xE8] := by decide
/-- V6. -/
theorem test_decode_channel : decodeChannel Config.defaultSym [0xEE, 0xE8, 0x8E, 0x88] = some 0xE4 ∧
    decodeChannel Config.defaultSym [0x88, 0x8E, 0x00, 0xEE] = none ∧ decodeSymbol Config.defaultSym 0x8F = none := by
  decide
/-- V7. -/
theorem test_wire_bits : wireBits [0x8E, 0xE8] =
    [true, false, false, false, true, true, true, false, true, true, true, false, true, false, false, false] := by decide

/-! ### One step of each instruction -/

/-- V11: INIT after reset. -/
theorem test_init : nextIs (exec .init State.reset) (fun t => statusWord t == 0x0108 && t.acceptLog == [] && holdClear t)
    = true := by decide
/-- V11: a second INIT. -/
theorem test_init_twice : nextIs (exec .init idle1) (fun t => t.resp == some .alreadyInitialised) = true := by decide
/-- V10: the last position; red is the most significant byte. -/
theorem test_setpix : nextIs (exec (.setpix 2 0x123456) State.reset)
    (fun t => t.strip == [⟨0, 0, 0⟩, ⟨0, 0, 0⟩, ⟨0x12, 0x34, 0x56⟩] && t.resp == some .ok) = true := by decide
/-- V10: one past the last position. -/
theorem test_setpix_out_of_range : nextIs (exec (.setpix 3 0x111111) State.reset)
    (fun t => t.strip == State.reset.strip && t.resp == some .posOutOfRange) = true := by decide
/-- V9. -/
theorem test_update : nextIs (exec .update idle1) (fun t => statusWord t == 0x0009) = true := by decide
/-- V11: UPDATE before INIT. -/
theorem test_update_before_init : nextIs (exec .update State.reset)
    (fun t => statusWord t == 0x0100 && respCode (t.resp.getD .ok) == 3) = true := by decide
/-- S2. -/
theorem test_encode : nextIs (exec .encode enc1) (fun t => readFrame t 0 12 == redFrame && statusWord t == 0x000A)
    = true := by decide
/-- P3, step c, for one pixel. -/
theorem test_txframe : nextIs (exec .txframe (returned 12 false (frm1 12)))
    (fun t => t.txcnt == 12 && t.acceptLog == [.write .frameBuf redFrame 12] && statusWord t == 0x000B) = true := by decide
/-- V12: the frame write returns 5. -/
theorem test_txframe_short : nextIs (exec .txframe (returned 5 false (frm1 5)))
    (fun t => t.txcnt == 5 && t.acceptLog == [.write .frameBuf [0x88, 0x88, 0x88, 0x88, 0xEE] 12]
      && statusWord t == 0x003F && t.resp == some .transmissionFault) = true := by decide
/-- P3, step d, with Z = 2. -/
theorem test_txreset : nextIs (exec .txreset (returned 2 false (rst1 2)))
    (fun t => t.txcnt == 2 && t.tickcnt == 2 && t.acceptLog == [.write .resetBuf [0, 0] 2] && statusWord t == 0x000C)
    = true := by decide
/-- P6: the reset write gives up. -/
theorem test_txreset_timeout : nextIs (exec .txreset (returned 1 true (rst1 1)))
    (fun t => t.txcnt == 1 && t.acceptLog == [.write .resetBuf [0] 2] && statusWord t == 0x00DF) = true := by decide
/-- V13. -/
theorem test_settle : nextIs (exec .settle (set1 2)) (fun t => t.tickcnt == 1) = true := by decide
/-- P3, step g. -/
theorem test_clear : nextIs (exec .clear (set1 0))
    (fun t => statusWord t == 0x0108 && holdClear t && t.acceptLog == [.clear] && t.resp == some .ok) = true := by decide
/-- V15: a clear with bytes pending. -/
theorem test_clear_truncates : nextIs (exec .clear { set1 0 with hold := ⟨[0x88], true⟩ })
    (fun t => t.wireFaults == [.truncatedByClear] && t.wire == []) = true := by decide
/-- V1. -/
theorem test_symbols : nextIs (exec .sym0 State.reset) (fun t => t.symOut == 0x88) = true ∧
    nextIs (exec .sym1 State.reset) (fun t => t.symOut == 0x8E) = true ∧
    nextIs (exec .sym2 State.reset) (fun t => t.symOut == 0xE8) = true ∧
    nextIs (exec .sym3 State.reset) (fun t => t.symOut == 0xEE) = true := by decide

/-! ### One step of each other agent -/

/-- V15: with `HOLD` full the acceptor waits. -/
theorem test_accept_waits : nextIs (step (will .accept { rst1 0 with hold := ⟨redFrame, true⟩ }))
    (fun t => t.hold.pending == redFrame && t.txidx == 0) = true := by decide
/-- V15: a shift, then the line goes idle once. -/
theorem test_shift_and_idle :
    nextIs (step (will .shift (frm1 1))) (fun t => t.hold == ⟨[], true⟩ && t.wire == [.byte 0x88]) = true ∧
    nextIs (step (will .idle { set1 1 with wire := [.byte 0] })) (fun t => t.wire == [.byte 0, .gap]) = true ∧
    nextIs (step (will .idle { set1 1 with wire := [.byte 0, .gap] })) (fun t => t.wire == [.byte 0, .gap]) = true := by
  decide
/-- V15: an idle line between frame bytes is an underrun. -/
theorem test_underrun : nextIs (step (will .idle { frm1 1 with hold := ⟨[], true⟩, wire := [.byte 0x88] }))
    (fun t => t.wireFaults == [.underrun]) = true := by decide
/-- R159, U7: a frame write that begins with `HOLD` not clear is `StaleHold`, whatever it accepts later; and residue sent
before it has begun, or after, is any value. -/
theorem test_stale_hold :
    nextIs (exec .encode (stale1 [])) (fun t => t.wireFaults == [.staleHold] && t.staleCycle) = true ∧
    step (will .shift (stale1 [0x88])) =
      .next { stale1 [] with wire := [.byte (Config.freeWireByte 0)], draws := 1 } := by
  exact ⟨by decide, rfl⟩

/-- R213: a run is not over while the host has a command, waiting or still to present. -/
theorem test_good_end : ¬ goodEnd (will (.present 0x030000000000) idle1) ∧ ¬ goodEnd (offers 0x030000000000 idle1) ∧
    ¬ goodEnd flt1 :=
  ⟨fun h => absurd (h.1.2.1 _ (List.mem_singleton.2 rfl)) (by decide), fun h => absurd h.1.1 (by decide),
    goodEnd_not_fault rfl⟩

/-- V14. -/
theorem test_setter :
    setOutcome 3 (some 0) ['0', '0', '0', '0', 'f', 'f'] = some (.issued 0 0x0000FF) ∧
    setOutcome 3 none ['0', '0', '0', '0', 'f', 'f'] = some (.issued 0 0x0000FF) ∧
    setOutcome 3 (some 2) ['F', 'F', '0', '0', 'f', 'f'] = some (.issued 2 0xFF00FF) ∧
    setOutcome 3 (some 1) ['f', 'f'] = some (.issued 1 0x0000FF) ∧
    setOutcome 3 (some 3) ['f', 'f', 'f', 'f', 'f', 'f'] = some .badPosition ∧
    setOutcome 3 (some (-1)) ['f', 'f', 'f', 'f', 'f', 'f'] = some .badPosition ∧
    setOutcome 3 (some 0) ['f', 'f', '0', '0', 'z', 'z'] = some .badColour ∧
    setOutcome 3 (some 0) ['1', '2', '3', '4', '5', 'g'] = some .badColour ∧
    setOutcome 3 (some 5) ['z', 'z'] = some .badPosition := by decide
/-- V14: what the source does not classify is refused. -/
theorem test_setter_unclassified :
    setOutcome 3 (some 0) [] = none ∧ setOutcome 3 (some 0) ['1', '2', '3', '4', '5', '6', '7'] = none ∧
    setOutcome 3 (some 0) ['0', 'x', 'f', 'f', '0', '0', '0', '0'] = none ∧
    setOutcome 3 (some 0) ['-', 'f', 'f'] = none ∧ setOutcome 3 (some 0) [' ', 'f', 'f'] = none := by decide
/-- V9. -/
theorem test_status : statusWord flt1 = 0x003F ∧ statusWord { flt1 with faultKind := .timeout, faultStage := .reset } = 0x00DF ∧
    statusWord (rst1 0) = 0x000B ∧ statusWord State.reset = 0x0100 := by decide
/-- A call of the setter with `k` words to go up to its UPDATE. -/
def call (k : Nat) : SetCall := ⟨.issued 0 0x0000FF, k, 7, none⟩
/-- The UPDATE of a call of the setter is being executed. -/
def calledFrom (s : State) : State := { s with setter := [call 0] }
/-- R132, R135: a validation error returns 1 and issues nothing; valid arguments return nothing yet. -/
theorem test_set_call :
    nextIs (step (will (.set (some 1) ['f', 'f']) idle1)) (fun t => t.port == [] && t.setter.map (setStatus · t) == [some 1])
      = true ∧
    nextIs (step (will (.set none ['f', 'f']) idle1)) (fun t => t.port == [0x0200000000FF, 0x030000000000] &&
      t.setter.map (setStatus · t) == [none]) = true := by decide
/-- R132: SET returns 0 when its refresh has completed (V14's first row), and nothing while it runs. -/
theorem test_set_returns : (calledFrom (set1 1)).setter.map (setStatus · (set1 1)) = [none] ∧
    nextIs (step (will .sequence (calledFrom (set1 0)))) (fun t => t.setter.map (setStatus · t) == [some 0]) = true := by
  decide
/-- R109: with `TX_TIMEOUT` = 3, after three ticks the acceptor takes nothing and a short return is a timeout's. -/
theorem test_write_past_its_bound :
    nextIs (step (will .accept { frm1 5 with txticks := 3 })) (fun t => t.txidx == 5 && t.hold.pending.length == 5) = true ∧
    nextIs (step (will .cutShort { frm1 5 with txticks := 3 })) (fun t => t.ret == none) = true ∧
    nextIs (step (will .giveUp { frm1 5 with txticks := 3 })) (fun t => t.ret == some ⟨5, true⟩) = true := by decide
/-- R134: the prefix is `0x` alone; assumption 21 for the tab. -/
theorem test_unsettled_beginnings : parseColour ['0', 'X', 'f'] = .reject ∧ parseColour ['0', 'x', 'f'] = .noMeaning ∧ parseColour ['\t', 'f'] = .noMeaning ∧
    parseColour ['x', 'f'] = .reject := by decide

/-! ### Witnesses: the hypotheses of every statement that has some are met together -/

theorem inv_idle1 : Inv idle1 := inv_of_check (by decide)
theorem inv_enc1 : Inv enc1 := inv_of_check (by decide)
theorem inv_frm1 : Inv (frm1 11) ∧ Inv (frm1 0) := ⟨inv_of_check (by decide), inv_of_check (by decide)⟩
theorem inv_rst1 : Inv (rst1 1) := inv_of_check (by decide)
theorem inv_set1 : Inv (set1 0) := inv_of_check (by decide)
theorem inv_flt1 : Inv flt1 := inv_of_check (by decide)

/-- A reserved word, at the edges of the three reserved ranges. -/
theorem witness_CommandWordMap :
    ((0x010000000001 : CmdWord) &&& 0xFFFFFFFFFFFF ≠ 0x010000000000 ∧
      (0x010000000001 : CmdWord) &&& 0xFF0000000000 ≠ 0x020000000000 ∧
      (0x010000000001 : CmdWord) &&& 0xFFFFFFFFFFFF ≠ 0x030000000000) ∧
    ((0x040000000000 : CmdWord) &&& 0xFFFFFFFFFFFF ≠ 0x010000000000 ∧
      (0x040000000000 : CmdWord) &&& 0xFF0000000000 ≠ 0x020000000000 ∧
      (0x040000000000 : CmdWord) &&& 0xFFFFFFFFFFFF ≠ 0x030000000000) := by decide
theorem witness_SelectorMap : enc1.seq = .encode ∧ (frm1 0).seq = .txFrame ∧ (rst1 0).seq = .txReset ∧
    ((set1 1).seq = .settle ∧ 0 < (set1 1).tickcnt) ∧ ((set1 0).seq = .settle ∧ (set1 0).tickcnt = 0) ∧
    (idle1.seq = .idle ∨ idle1.seq = .fault) ∧ (flt1.seq = .idle ∨ flt1.seq = .fault) ∧
    (0b1010 : Usel).extractLsb' 1 3 = 5 ∧ (0b1101 : Usel).extractLsb' 1 3 = 6 := by decide
theorem witness_DecodeEncodeAgree : (Instr.setpix 65535 0xFFFFFF).wf = true ∧
    decodeCmd48 0x02FFFFFFFFFF = .ok (.setpix 65535 0xFFFFFF) ∧ decodeUsel4 0b0011 = .ok .encode := by decide
theorem witness_TableRowsAreTheDecoder : ∃ r ∈ cmd48Rows, ∃ q ∈ cmd48Rows,
    rowMatches r 0x02FFFFFFFFFF = true ∧ rowMatches q 0x02FFFFFFFFFF = true :=
  ⟨⟨"SETPIX", 0x020000000000, 0xFF0000000000⟩, by decide, ⟨"SETPIX", 0x020000000000, 0xFF0000000000⟩, by decide,
    by decide, by decide⟩
theorem witness_SymLookupAnswersTheEntry : Config.defaultSym.injective = true ∧
    symLookup Config.defaultSym 3 = symLookup Config.defaultSym 3 := by decide
theorem witness_ChannelOrderIsGreenRedBlue : idle1.strip[0]? = some ⟨0xFF, 0, 0⟩ := by decide
theorem witness_FrameLayout : idle1.strip[0]? = some ⟨0xFF, 0, 0⟩ ∧ 3 < 4 ∧ 2 < 3 := by decide
theorem witness_FrameRoundTrip : Config.defaultSym.injective = true := by decide
theorem witness_OnlyEntriesAreSymbols : (0xEE : Byte) ∈ encodeFrame Config.defaultSym idle1.strip ∧
    Config.defaultSym.nonzero = true ∧ (0x8F : Byte) ≠ Config.defaultSym.t0 ∧ (0x8F : Byte) ≠ Config.defaultSym.t1 ∧
    (0x8F : Byte) ≠ Config.defaultSym.t2 ∧ (0x8F : Byte) ≠ Config.defaultSym.t3 ∧
    (0x8F : Byte) ∈ ([0x88, 0x8E, 0x8F, 0xEE] : List Byte) := by decide
theorem witness_EncoderInjectiveWithImage : Config.defaultSym.injective = true ∧
    (redFrame.length = 12 * 1 ∧ ∀ b ∈ redFrame, b = 0x88 ∨ b = 0x8E ∨ b = 0xE8 ∨ b = 0xEE) := by decide
theorem witness_WireBitsOfAFrame : redFrame[11]? = some 0x88 ∧ 7 < 8 := by decide
theorem witness_MemoryPrimitives : 0 < idle1.strip.length ∧ idle1.strip.length ≤ 1 ∧
    0 + redFrame.length ≤ 12 * idle1.cfg.n ∧ 12 * idle1.cfg.n < 1 + redFrame.length ∧
    (Inv idle1 ∧ 0 + 2 ≤ idle1.cfg.resetLen) :=
  ⟨by decide, by decide, by decide, by decide, inv_idle1, by decide⟩

theorem witness_InitInitialises :
    (State.reset.seq = .idle ∧ State.reset.fault = false ∧ State.reset.inited = false) ∧
    ({ idle1 with fault := true }.seq = .idle ∧ { idle1 with fault := true }.fault = true) ∧
    (idle1.seq = .idle ∧ idle1.fault = false ∧ idle1.inited = true) := by decide
theorem witness_SetpixWritesOnePixel :
    (State.reset.seq = .idle ∧ State.reset.fault = false ∧ (2 : Pos).toNat < State.reset.cfg.n ∧
      State.reset.strip.length = State.reset.cfg.n) ∧
    ({ idle1 with fault := true }.seq = .idle ∧ { idle1 with fault := true }.fault = true) ∧
    (State.reset.seq = .idle ∧ State.reset.fault = false ∧ State.reset.cfg.n ≤ (3 : Pos).toNat) := by decide
theorem witness_UpdateStartsTheCycle : idle1.seq = .idle ∧ idle1.fault = false ∧ idle1.inited = true := by decide
theorem witness_RefusedCommandsChangeNothing :
    ((flt1.seq = .idle ∨ flt1.seq = .fault) ∧ (flt1.fault = true ∨ flt1.seq = .fault)) ∧
    ((idle1.seq = .idle ∨ idle1.seq = .fault) ∧ decodeCmd48 0x040000000000 = .error .illegalCommand) ∧
    (idle1.seq = .idle ∧ idle1.fault = false ∧ idle1.inited = true) ∧
    (idle1.seq = .idle ∧ idle1.fault = false ∧ idle1.cfg.n ≤ (1 : Pos).toNat) ∧
    (State.reset.seq = .idle ∧ State.reset.fault = false ∧ State.reset.inited = false) := by decide
theorem witness_ReservedWordsAreRefused :
    let s := offers 0x010000000001 idle1; let u := offers 0x040000000000 flt1; let v := offers 0x020001FFFFFF idle1
    (nextMove s = .command ∧ s.port = [0x010000000001] ∧ s.seq = .idle ∧ cmdOp 0x010000000001 = 0x01 ∧
      cmdColour 0x010000000001 ≠ 0) ∧
    (nextMove u = .command ∧ u.port = [0x040000000000] ∧ u.seq = .fault ∧ cmdOp 0x040000000000 ≠ 0x01 ∧
      cmdOp 0x040000000000 ≠ 0x02 ∧ cmdOp 0x040000000000 ≠ 0x03) ∧
    (nextMove v = .command ∧ v.port = [0x020001FFFFFF] ∧ v.seq = .idle ∧ v.fault = false ∧
      cmdOp 0x020001FFFFFF = 0x02 ∧ v.cfg.n ≤ (cmdPos 0x020001FFFFFF).toNat) := by decide
theorem witness_BusyPortHoldsEveryWord :
    (nextMove (offers 0x030000000000 enc1) = .command ∧ (offers 0x030000000000 enc1).seq = .encode) ∧
    (nextMove (offers 0 (frm1 0)) = .command ∧ (offers 0 (frm1 0)).seq = .txFrame) ∧
    (nextMove (offers 0 (rst1 0)) = .command ∧ (offers 0 (rst1 0)).seq = .txReset) ∧
    (nextMove (offers 0 (set1 0)) = .command ∧ (offers 0 (set1 0)).seq = .settle) ∧
    (nextMove (offers 0 flt1) = .command ∧ (offers 0 flt1).port = [0] ∧ (offers 0 flt1).seq = .fault) := by decide
theorem witness_CommandFrames : (∃ t, exec .init State.reset = .next t) ∧ (∃ t, exec (.setpix 0 7) idle1 = .next t) ∧
    (∃ t, exec .update idle1 = .next t) := ⟨⟨_, rfl⟩, ⟨_, rfl⟩, ⟨_, rfl⟩⟩

theorem witness_EncodeFillsTheFrame : enc1.seq = .encode ∧ enc1.strip.length = enc1.cfg.n ∧
    enc1.hold.pending = [] ∧ enc1.hold.dirty = false ∧
    enc1.strip[0]? = some ⟨0xFF, 0, 0⟩ ∧ 2 < 3 ∧ 3 < 4 ∧ 12 * enc1.cfg.n ≤ 12 := by decide
theorem witness_TxframeTakesTheWrittenCount : let s := returned 12 false (frm1 12); let u := returned 11 true (frm1 11)
    ((frm1 12).seq = .txFrame ∧ (frm1 12).ret = none) ∧
    (s.seq = .txFrame ∧ s.ret = some ⟨12, false⟩ ∧ 12 = 12 * s.cfg.n) ∧
    (u.seq = .txFrame ∧ u.ret = some ⟨11, true⟩ ∧ 11 < 12 * u.cfg.n) := by decide
theorem witness_TxresetTakesTheWrittenCount : let s := returned 2 false (rst1 2); let u := returned 1 false (rst1 1)
    ((rst1 2).seq = .txReset ∧ (rst1 2).ret = none) ∧
    (s.seq = .txReset ∧ s.ret = some ⟨2, false⟩ ∧ 2 = s.cfg.resetLen ∧
      s.resetBuf = List.replicate s.cfg.resetLen 0) ∧
    (u.seq = .txReset ∧ u.ret = some ⟨1, false⟩ ∧ 1 < u.cfg.resetLen ∧
      u.resetBuf = List.replicate u.cfg.resetLen 0) := by decide
theorem witness_WrittenCountIsChecked :
    let s := will .sequence (returned 12 false (frm1 12)); let u := will .sequence (returned 1 true (rst1 1))
    (Inv s ∧ nextMove s = .sequence ∧ s.ret = some ⟨12, false⟩ ∧ s.seq = .txFrame ∧ 12 = 12 * s.cfg.n) ∧
    (Inv u ∧ nextMove u = .sequence ∧ u.ret = some ⟨1, true⟩ ∧ u.seq = .txReset ∧ 2 = u.cfg.resetLen) :=
  ⟨⟨inv_of_check (by decide), by decide, by decide, by decide, by decide⟩,
    ⟨inv_of_check (by decide), by decide, by decide, by decide, by decide⟩⟩
theorem witness_UnreturnedWriteBlocksTheSequencer :
    let s := will .sequence (frm1 0); let u := will .accept (rst1 0)
    (s.seq = .txFrame ∧ s.ret = none ∧ nextMove s = .sequence) ∧
    (u.seq = .txReset ∧ u.ret = none ∧ (∃ t, step u = .next t) ∧ nextMove u ≠ .complete ∧ nextMove u ≠ .giveUp ∧
      nextMove u ≠ .cutShort ∧ nextMove u ≠ .reset) :=
  ⟨by decide, by decide, by decide, ⟨_, rfl⟩, by decide, by decide, by decide, by decide⟩
theorem witness_SettleCountsTicks : let s := { set1 2 with sched := [.tick, .tick, .idle] }
    ((set1 1).seq = .settle ∧ 0 < (set1 1).tickcnt) ∧
    (s.seq = .settle ∧ 2 ≤ s.tickcnt ∧ s.sched = List.replicate 2 .tick ++ [.idle]) := by decide
theorem witness_ClearEndsTheCycle : (set1 0).seq = .settle ∧ (set1 0).tickcnt = 0 := by decide
theorem witness_MicroOperationFrames :
    ((∃ t, exec .encode enc1 = .next t) ∧ enc1.hold.pending = [] ∧ enc1.hold.dirty = false) ∧
    ((∃ t, exec .encode (stale1 []) = .next t) ∧ ((stale1 []).hold.pending ≠ [] ∨ (stale1 []).hold.dirty = true)) ∧
    (∃ t, exec .txframe (returned 12 false (frm1 12)) = .next t) ∧
    (∃ t, exec .txreset (returned 1 true (rst1 1)) = .next t) ∧
    (∃ t, exec .settle (set1 1) = .next t) ∧ (∃ t, exec .clear (set1 0) = .next t) :=
  ⟨⟨⟨_, rfl⟩, by decide⟩, ⟨⟨_, rfl⟩, by decide⟩, ⟨_, rfl⟩, ⟨_, rfl⟩, ⟨_, rfl⟩, ⟨_, rfl⟩⟩
theorem witness_UnselectedMicroOperationsStop : idle1.seq ≠ .encode ∧ idle1.seq ≠ .txFrame ∧ idle1.seq ≠ .txReset ∧
    ¬ ((set1 0).seq = .settle ∧ 0 < (set1 0).tickcnt) ∧ ¬ ((set1 1).seq = .settle ∧ (set1 1).tickcnt = 0) := by decide

theorem witness_AcceptorTakesTheOfferedByte :
    let s := will .accept (frm1 11); let u := will .accept { rst1 1 with txticks := 2 }; let v := will .accept (frm1 12)
    let w := will .accept { rst1 1 with txticks := 3 }
    (Inv s ∧ nextMove s = .accept ∧ s.ret = none ∧ s.seq = .txFrame ∧ s.txidx < 12 * s.cfg.n ∧
      s.hold.pending.length < s.cfg.holdCap ∧ s.cfg.txTimeout = some 3 ∧ s.txticks < 3) ∧
    (Inv u ∧ nextMove u = .accept ∧ u.ret = none ∧ u.seq = .txReset ∧ u.txidx < u.cfg.resetLen ∧
      u.hold.pending.length < u.cfg.holdCap ∧ u.cfg.txTimeout = some 3 ∧ u.txticks < 3) ∧
    (Inv v ∧ nextMove v = .accept ∧ v.seq = .txFrame ∧ 12 * v.cfg.n ≤ v.txidx ∧ v.cfg.holdCap ≤ v.hold.pending.length) ∧
    (Inv w ∧ nextMove w = .accept ∧ w.cfg.txTimeout = some 3 ∧ 3 ≤ w.txticks) :=
  ⟨⟨inv_of_check (by decide), by decide, by decide, by decide, by decide, by decide, by decide, by decide⟩,
    ⟨inv_of_check (by decide), by decide, by decide, by decide, by decide, by decide, by decide, by decide⟩,
    ⟨inv_of_check (by decide), by decide, by decide, by decide, by decide⟩,
    ⟨inv_of_check (by decide), by decide, by decide, by decide⟩⟩
theorem witness_WritesReturnTheAcceptedCount :
    let s := will .complete (frm1 12); let u := will .giveUp { rst1 1 with txticks := 3 }
    let v := will .cutShort { frm1 0 with txticks := 2 }; let w := will .accept { frm1 11 with txticks := 3 }
    (s.ret = none ∧ s.seq = .txFrame ∧ 12 = 12 * s.cfg.n ∧ nextMove s = .complete ∧ s.txidx = 12) ∧
    (u.ret = none ∧ u.seq = .txReset ∧ 2 = u.cfg.resetLen ∧ nextMove u = .giveUp ∧ u.txidx < 2 ∧
      u.cfg.txTimeout = some 3 ∧ 3 ≤ u.txticks) ∧
    (v.ret = none ∧ v.seq = .txFrame ∧ 12 = 12 * v.cfg.n ∧ nextMove v = .cutShort ∧ v.txidx < 12 ∧
      v.cfg.txTimeout = some 3 ∧ v.txticks < 3) ∧
    (w.ret = none ∧ w.seq = .txFrame ∧ 12 = 12 * w.cfg.n ∧ w.cfg.txTimeout = some 3 ∧ 3 ≤ w.txticks ∧ w.txidx < 12 ∧
      (∃ t, step w = .next t) ∧ nextMove w ≠ .giveUp ∧ nextMove w ≠ .reset) :=
  ⟨by decide, by decide, by decide, by decide, by decide, by decide, by decide, by decide, by decide, ⟨_, rfl⟩, by decide,
    by decide⟩
theorem witness_ShifterAndIdleLine :
    let s := will .shift (frm1 1); let u := will .shift (set1 0)
    let v := will .idle { set1 0 with wire := [.byte 0] }; let w := will .idle { set1 0 with wire := [.byte 0, .gap] }
    ((s.staleCycle = false ∧ s.seq ≠ .encode) ∧ nextMove s = .shift ∧ s.hold.pending = [0x88]) ∧
    (nextMove u = .shift ∧ u.hold.pending = []) ∧
    (nextMove v = .idle ∧ v.hold.pending = [] ∧ v.wire = [] ++ [.byte 0]) ∧
    (nextMove w = .idle ∧ w.wire = [.byte 0] ++ [.gap]) := by decide
theorem witness_PeripheralIsFirstInFirstOut : wireHasMeaning (will .accept (frm1 1)) ∧
    nextMove (will .accept (frm1 1)) ≠ .reset ∧ ∃ t, step (will .accept (frm1 1)) = .next t :=
  ⟨⟨rfl, by decide⟩, by decide, _, rfl⟩
theorem witness_PeripheralFrames : nextMove (will .shift (frm1 1)) = .shift ∧ ∃ t, step (will .shift (frm1 1)) = .next t :=
  ⟨by decide, _, rfl⟩
theorem witness_TicksCountForSettleAndTheBound :
    let s := will .tick (set1 1); let u := will .tick { frm1 0 with txticks := 2 }
    let v := will .tick { frm1 0 with txticks := 3 }; let w := will .tick (set1 0)
    (nextMove s = .tick ∧ s.seq = .settle ∧ 0 < s.tickcnt) ∧
    (nextMove u = .tick ∧ u.seq = .txFrame ∧ u.ret = none ∧ u.cfg.txTimeout = some 3 ∧ u.txticks < 3) ∧
    (nextMove v = .tick ∧ v.seq = .txFrame ∧ v.cfg.txTimeout = some 3 ∧ 3 ≤ v.txticks) ∧
    (nextMove w = .tick ∧ w.seq = .settle ∧ w.tickcnt = 0) := by decide

theorem witness_StepRunsTheCommand : nextMove (offers 0x02FFFFFFFFFF idle1) = .command ∧
    (offers 0x02FFFFFFFFFF idle1).port = [0x02FFFFFFFFFF] ∧
    decode (.cmd48 0x02FFFFFFFFFF) = .ok (.setpix 65535 0xFFFFFF) ∧ (Instr.setpix 65535 0xFFFFFF).wf = true := by decide
theorem witness_StepRunsTheSelected : nextMove (will .sequence (set1 0)) = .sequence ∧
    decode (.usel4 (usel (will .sequence (set1 0)))) = .ok .clear ∧ Instr.clear ≠ .settle ∧
    nextMove (will .tick (set1 1)) = .tick ∧ decode (.usel4 (usel (will .tick (set1 1)))) = .ok .settle ∧
    nextMove (will (.lookup 3) idle1) = .lookup 3 ∧ decode (.lut2 3) = .ok .sym3 := by decide
theorem witness_PresentedWordsWaitInOrder : nextMove (will (.present 7) enc1) = .present 7 ∧
    nextMove (offers 0x030000000000 idle1) ≠ .reset ∧ ∃ t, step (offers 0x030000000000 idle1) = .next t ∧
    nextMove (will (.set none ['f']) idle1) = .set none ['f'] ∧ (will (.set none ['f']) idle1).port = [] ∧
    busy (will (.set none ['f']) idle1) = false ∧ ∃ u, step (will (.set none ['f']) idle1) = .next u :=
  ⟨by decide, by decide, _, rfl, by decide, by decide, by decide, _, rfl⟩
theorem witness_StatusWordFields : nextMove (will .sample enc1) = .sample := by decide
theorem witness_ResetValues : nextMove (will .reset flt1) = .reset := by decide

theorem witness_InvariantHoldsAtReset : one.wf = true := by decide
theorem witness_StepKeepsInvariant : Inv (will .sequence enc1) ∧ ∃ t, step (will .sequence enc1) = .next t :=
  ⟨inv_of_check (by decide), _, rfl⟩
theorem witness_StepsNeverStop : Inv idle1 ∧ Inv (will (.set none []) idle1) ∧
    step (will (.set none []) idle1) = .refused .unclassifiedColour :=
  ⟨inv_idle1, inv_of_check (by decide), rfl⟩
theorem witness_SequencerTransitionTable : nextMove (will .sequence (set1 0)) ≠ .reset ∧
    ∃ t, step (will .sequence (set1 0)) = .next t := ⟨by decide, _, rfl⟩
theorem witness_OnlySetpixWritesStrip : nextMove (offers 0x0200000000FF idle1) ≠ .reset ∧
    ∃ t, step (offers 0x0200000000FF idle1) = .next t ∧ t.strip ≠ (offers 0x0200000000FF idle1).strip :=
  ⟨by decide, _, rfl, by decide⟩
theorem witness_FaultIsTerminal : let s := offers 0x030000000000 flt1
    (s.fault = true ∧ s.seq = .fault ∧ nextMove s ≠ .reset ∧ ∃ t, step s = .next t) ∧
    ((will .reset flt1).fault = true ∧ (will .reset flt1).seq = .fault ∧ nextMove (will .reset flt1) = .reset) :=
  ⟨⟨by decide, by decide, by decide, _, rfl⟩, by decide, by decide, by decide⟩
theorem witness_FaultsComeFromShortWrites : (will .sequence (returned 11 true (frm1 11))).fault = false ∧
    ∃ t, step (will .sequence (returned 11 true (frm1 11))) = .next t ∧ t.fault = true :=
  ⟨by decide, _, rfl, by decide⟩
/-- The default instance has no bound on its writes. -/
def unbounded : State := { State.reset with inited := true, seq := .txReset, ret := some ⟨47, false⟩, sched := [.sequence] }
theorem witness_NoTimeoutWithoutABound : unbounded.cfg.txTimeout = none ∧ unbounded.ret = some ⟨47, false⟩ ∧
    unbounded.faultKind ≠ .timeout ∧ ∃ t, step unbounded = .next t := ⟨by decide, by decide, by decide, _, rfl⟩
theorem witness_HistoriesOnlyGrow :
    let s := will .idle { frm1 11 with hold := ⟨[], true⟩, wire := [.byte 0x88] }; let u := will .sequence (stale1 [])
    (nextMove s ≠ .reset ∧ ∃ t, step s = .next t ∧ t.wireFaults = [] ++ [.underrun]) ∧
    (nextMove u ≠ .reset ∧ ∃ t, step u = .next t ∧ t.wireFaults = [] ++ [.staleHold]) :=
  ⟨⟨by decide, _, rfl, rfl⟩, by decide, _, rfl, rfl⟩
theorem witness_ConstantsNeverChange : (∃ t, step (will .reset idle1) = .next t) ∧
    (will .reset idle1).resetBuf = List.replicate (will .reset idle1).cfg.resetLen 0 := ⟨⟨_, rfl⟩, by decide⟩
theorem witness_InitedIsSetOnceByInit :
    (∃ t, step (offers 0x010000000000 State.reset) = .next t ∧ t.inited = true ∧ State.reset.inited = false) ∧
    (∃ t, step (will .reset idle1) = .next t ∧ t.inited = false ∧ idle1.inited = true) :=
  ⟨⟨_, rfl, by decide, by decide⟩, ⟨_, rfl, by decide, by decide⟩⟩

/-! A whole cycle of the smallest instance, for the statements about cycles. -/

/-- One LED, one reset byte, no delay. -/
def tiny : State := { idle1 with cfg := { one with resetLen := 1, settleTicks := 0 }, resetBuf := [0] }

/-- The moves by which every byte is accepted and sent. -/
def goodMoves : List Move :=
  [.sequence] ++ (List.replicate 12 [Move.accept, Move.shift]).flatten ++ [.complete, .sequence, .accept, .shift, .complete,
    .sequence, .sequence]

/-- A frame write that returns before its first byte is accepted. -/
def badMoves : List Move := [.sequence, .cutShort, .sequence]

/-- The state in which the cycle has started and these moves follow. -/
def started (ms : List Move) : State := { tiny with seq := .encode, resp := none, sched := ms }

/-- A run of a cycle, evaluated. -/
def runCycle (allowed : Move → Bool) : Nat → State → Option State
  | 0, s => some s
  | k + 1, s =>
    if busy s && allowed (nextMove s) then
      match step s with
      | .next t => runCycle allowed k t
      | .fault _ => none
      | .refused _ => none
    else none

theorem cycleRun_of_runCycle {ok : Move → Bool} {allowed : Move → Prop} (hok : ∀ m, ok m = true → allowed m) {k : Nat}
    {s t : State} (h : runCycle ok k s = some t) : CycleRun allowed s t := by
  induction k generalizing s with
  | zero => cases h; exact .here _
  | succ k ih =>
    unfold runCycle at h
    split at h
    · rename_i hg
      rw [Bool.and_eq_true] at hg
      split at h
      · rename_i u hu; exact .more _ u t hg.1 (hok _ hg.2) hu (ih h)
      · cases h
      · cases h
    · cases h

/-- The run and a property of its end, evaluated together. -/
theorem cycleRun_exists {ok : Move → Bool} {allowed : Move → Prop} (hok : ∀ m, ok m = true → allowed m) {k : Nat}
    {s : State} {P : State → Bool} (h : (runCycle ok k s).any P = true) : ∃ t, CycleRun allowed s t ∧ P t = true := by
  cases hr : runCycle ok k s with
  | none => rw [hr] at h; cases h
  | some t => rw [hr] at h; exact ⟨t, cycleRun_of_runCycle hok hr, h⟩

/-- What the start of a cycle must meet, for any moves to come. -/
theorem can_start (ms : List Move) :
    ∃ s, Inv s ∧ s.seq = .idle ∧ s.fault = false ∧ s.inited = true ∧ exec .update s = .next (started ms) :=
  ⟨{ tiny with sched := ms }, inv_of_check (by rfl), rfl, rfl, rfl, rfl⟩

theorem witness_StepKeepsCycleLog : Inv (started goodMoves) ∧ busy (started goodMoves) = true ∧
    cycleLog [] (started goodMoves) ∧ nextMove (started goodMoves) ≠ .reset ∧ ∃ t, step (started goodMoves) = .next t :=
  ⟨inv_of_check (by decide), by decide, show (started goodMoves).acceptLog = [] from rfl, by decide, _, rfl⟩
theorem witness_EveryCycleLogsFrameResetClear_succeeds : ∃ s u t, (Inv s ∧ s.seq = .idle ∧ s.fault = false ∧
    s.inited = true ∧ exec .update s = .next u) ∧ CycleRun (fun m => m ≠ .reset) u t ∧ decide (t.seq = .idle) = true := by
  obtain ⟨s, h⟩ := can_start goodMoves
  obtain ⟨t, ht⟩ := cycleRun_exists (ok := fun m => decide (m ≠ .reset)) (allowed := fun m => m ≠ .reset)
    (k := goodMoves.length) (s := started goodMoves) (P := fun t => decide (t.seq = .idle))
    (fun m h => by simpa using h) (by decide)
  exact ⟨s, _, t, h, ht⟩
theorem witness_EveryCycleLogsFrameResetClear_fails : ∃ s u t, (Inv s ∧ s.seq = .idle ∧ s.fault = false ∧
    s.inited = true ∧ exec .update s = .next u) ∧ CycleRun (fun m => m ≠ .reset) u t ∧ decide (t.seq = .fault) = true := by
  obtain ⟨s, h⟩ := can_start badMoves
  obtain ⟨t, ht⟩ := cycleRun_exists (ok := fun m => decide (m ≠ .reset)) (allowed := fun m => m ≠ .reset)
    (k := badMoves.length) (s := started badMoves) (P := fun t => decide (t.seq = .fault))
    (fun m h => by simpa using h) (by decide)
  exact ⟨s, _, t, h, ht⟩
theorem witness_StepKeepsCycleWire : Inv (started goodMoves) ∧ busy (started goodMoves) = true ∧
    cycleWire [] [] (started goodMoves) ∧ nextMove (started goodMoves) ≠ .reset ∧
    fullWriteMove (started goodMoves).cfg (nextMove (started goodMoves)) ∧ ∃ t, step (started goodMoves) = .next t :=
  ⟨inv_of_check (by decide), by decide, ⟨(fun _ h => nomatch h), [], [], rfl, rfl, fun _ => ⟨rfl, rfl⟩⟩, by decide,
    ⟨by decide, by decide⟩, _, rfl⟩
theorem witness_EveryCycleSendsFrameThenReset : ∃ s u t, (Inv s ∧ s.seq = .idle ∧ s.fault = false ∧
    s.inited = true ∧ exec .update s = .next u) ∧ CycleRun (fun m => m ≠ .reset ∧ fullWriteMove s.cfg m) u t ∧
    (decide (t.seq = .idle) && decide (t.wireFaults = [])) = true := by
  obtain ⟨s, h⟩ := can_start goodMoves
  obtain ⟨t, ht⟩ := cycleRun_exists (ok := fun m => decide (m ≠ .reset) && decide (m ≠ .cutShort) && decide (m ≠ .giveUp))
    (allowed := fun m => m ≠ .reset ∧ fullWriteMove s.cfg m) (k := goodMoves.length) (s := started goodMoves)
    (P := fun t => decide (t.seq = .idle) && decide (t.wireFaults = []))
    (fun m h => by simp [fullWriteMove] at h ⊢; tauto) (by decide)
  exact ⟨s, _, t, h, ht⟩
theorem witness_ACycleCanComplete : let s := offers 0x030000000000 idle1
    Inv s ∧ s.seq = .idle ∧ s.fault = false ∧ s.inited = true ∧ s.cfg.txTimeout ≠ some 0 ∧
    s.port = 0x030000000000 :: [] ∧ decodeCmd48 0x030000000000 = .ok .update :=
  ⟨inv_of_check (by decide), by decide, by decide, by decide, by decide, by decide, by decide⟩

theorem witness_SetterValidatesAndIssues :
    nextMove (will (.set (some (-1)) ['f']) State.reset) = .set (some (-1)) ['f'] ∧
    ¬ (0 ≤ (some (-1) : Option Int).getD 0 ∧ (some (-1) : Option Int).getD 0 < (State.reset.cfg.n : Int)) ∧
    ¬ (0 ≤ (some 3 : Option Int).getD 0 ∧ (some 3 : Option Int).getD 0 < (State.reset.cfg.n : Int)) ∧
    (0 ≤ (some 2 : Option Int).getD 0 ∧ (some 2 : Option Int).getD 0 < (State.reset.cfg.n : Int)) ∧
    (0 ≤ (none : Option Int).getD 0 ∧ (none : Option Int).getD 0 < (State.reset.cfg.n : Int)) ∧
    parseColour ['f', 'z'] = .reject ∧ parseColour ['f'] = .value 0x00000F := by decide
theorem witness_SetterValidatesAndIssues_return :
    let s := will .sequence (calledFrom (set1 0)); let u := will .command { State.reset with port := [0x030000000000], setter := [call 1] }
    (Inv s ∧ (∃ t, step s = .next t ∧ t.setter[0]? = some (call 0) ∧ setStatus (call 0) t = some 0) ∧
      nextMove s ≠ .reset ∧ s.setter[0]? = some (call 0) ∧ setStatus (call 0) s = none) ∧
    (Inv u ∧ (∃ t, step u = .next t ∧ t.setter[0]? = some (call 0) ∧ setStatus (call 0) t = some 0) ∧
      nextMove u ≠ .reset ∧ u.setter[0]? = some (call 1) ∧ setStatus (call 1) u = none) ∧
    (call 0 ∈ s.setter ∧ (call 0).status = none) :=
  ⟨⟨inv_of_check (by decide), ⟨_, rfl, by decide, by decide⟩, by decide, by decide, by decide⟩,
    ⟨inv_of_check (by decide), ⟨_, rfl, by decide, by decide⟩, by decide, by decide, by decide⟩, by decide, by decide⟩
/-- The premise P1 is met by moves that serve the reset write of one LED without a bound. -/
theorem witness_PremiseP1 :
    PremiseP1 { rst1 1 with cfg := { one with txTimeout := none } } 2 [.shift, .accept, .shift, .accept, .complete] :=
  ⟨by decide, ⟨[], [], [.shift, .accept, .complete], rfl, [], [], [.complete], rfl, by simp [liveFor]⟩, rfl⟩
/-- Six digits of either case. -/
def sixDigits : List Char := ['f', '0', '9', 'A', 'F', 'a']
theorem witness_ColourParsing : (sixDigits ≠ [] ∧ sixDigits.length ≤ 6 ∧ ∀ c ∈ sixDigits, (hexDigit c).isSome = true) ∧
    (['0', '0'] ≠ [] ∧ (∀ d ∈ ['0', '0'], (hexDigit d).isSome = true) ∧ hexDigit 'x' = none ∧ ['0', '0'] ≠ ['0']) ∧
    (['0'] ≠ [] ∧ (∀ d ∈ ['0'], (hexDigit d).isSome = true) ∧ hexDigit 'X' = none ∧ 'X' ≠ 'x') ∧
    (6 < ('1' :: sixDigits).length ∧ ∀ c ∈ '1' :: sixDigits, (hexDigit c).isSome = true) :=
  ⟨⟨by decide, by decide, List.all_eq_true.1 (by decide)⟩,
    ⟨by decide, List.all_eq_true.1 (by decide), by decide, by decide⟩,
    ⟨by decide, List.all_eq_true.1 (by decide), by decide, by decide⟩, by decide, List.all_eq_true.1 (by decide)⟩

end Sys2Proof.Machine.Tests
end

section
/-! SUPPORT. What a step can do to `STRIP`, the fields of the status word read back from the word, and the values of
the state after reset (spec/10_state.md R20, R30, R37). -/

namespace Sys2Proof.Machine

/-! ### Who writes `STRIP` (R20) -/

/-- No cycle is in progress, the oldest waiting word is a SETPIX, and `STRIP` in `t` is that of `s` with the word's
pixel set to the word's colour (R131). -/
def SetpixTaken (s t : State) : Prop :=
  busy s = false ∧ ∃ (w : CmdWord) (pos : Pos) (color : Colour),
    s.port.head? = some w ∧ decodeCmd48 w = .ok (.setpix pos color) ∧
    t.strip = s.strip.set pos.toNat (pixelOf color)

/-- Every move but reset and the command port's SETPIX leaves `STRIP` as it is. -/
theorem Effect.strip_cases {m : Move} {s t : State} (h : Effect m s t) :
    t.strip = s.strip ∨ m = .reset ∨ (m = .command ∧ SetpixTaken s t) := by
  cases h with
  | pixelWritten w rest pos color _ hp hd hb =>
    exact .inr (.inr ⟨rfl, hb, w, pos, color, by simp [hp], hd, rfl⟩)
  | wasReset => exact .inr (.inl rfl)
  | _ => exact .inl rfl

theorem setpixTaken_afterMove {s t : State} : SetpixTaken (afterMove s) t ↔ SetpixTaken s t := by
  simp [SetpixTaken, busy_afterMove]

/-- A step that changes `STRIP` is a reset, or the command port taking SETPIX outside a cycle. -/
theorem step_strip_cases {s t : State} (h : step s = .next t) (hne : t.strip ≠ s.strip) :
    nextMove s = .reset ∨ (nextMove s = .command ∧ SetpixTaken s t) := by
  rcases (step_effect h).strip_cases with hs | hs
  · exact absurd (hs.trans (afterMove_strip s)) hne
  · rwa [setpixTaken_afterMove] at hs

/-- Settles O47: of everything a step can do (`step_effect`), only reset and a SETPIX that the port takes write
`STRIP`. -/
theorem onlySetpixWritesStrip : Obligations.OnlySetpixWritesStrip := by
  refine ⟨fun s t h hne => ?_, fun s t h hr hne => ?_⟩
  · exact (step_strip_cases h hne).imp_right fun ⟨hm, hb, _⟩ => ⟨hm, hb⟩
  · obtain ⟨hm, hb, w, pos, color, hp, hd, hs⟩ := (step_strip_cases h hne).resolve_left hr
    refine ⟨hm, hb, w, pos, color, hp, hd, hs, fun i hi => ?_⟩
    rw [hs, List.getElem?_set_ne (Ne.symm hi)]

/-! ### The fields of the status word (R30) -/

/-- `READY` is the condition R30 states. -/
theorem ready_iff (s : State) : ready s = true ↔ s.seq = .idle ∧ s.fault = false := by
  simp [ready]

/-- Where each bit of the word comes from. -/
theorem statusWord_getLsbD (s : State) (i : Nat) : (statusWord s).getLsbD i =
    if i < 3 then (seqCode s.seq).getLsbD i
    else if i < 4 then s.inited
    else if i < 5 then s.fault
    else if i < 7 then (faultKindCode s.faultKind).getLsbD (i - 5)
    else if i < 8 then (faultStageCode s.faultStage).getLsbD (i - 7)
    else if i < 9 then ready s
    else false := by
  simp only [statusWord, BitVec.getLsbD_append, BitVec.getLsbD_ofBool]
  split_ifs <;> grind

/-- A field of the word is the value its bits spell. -/
theorem statusWord_field (s : State) (start : Nat) {len : Nat} {v : BitVec len}
    (h : ∀ i < len, (statusWord s).getLsbD (start + i) = v.getLsbD i) : (statusWord s).extractLsb' start len = v :=
  BitVec.eq_of_getLsbD_eq fun i hi => by simpa [hi] using h i hi

theorem statusWord_seq (s : State) : (statusWord s).extractLsb' 0 3 = seqCode s.seq :=
  statusWord_field s 0 fun i hi => by simp [statusWord_getLsbD, hi]

theorem statusWord_inited (s : State) : (statusWord s).getLsbD 3 = s.inited := by
  rw [statusWord_getLsbD]; rfl

theorem statusWord_fault (s : State) : (statusWord s).getLsbD 4 = s.fault := by
  rw [statusWord_getLsbD]; rfl

theorem statusWord_faultKind (s : State) : (statusWord s).extractLsb' 5 2 = faultKindCode s.faultKind :=
  statusWord_field s 5 fun i hi => by
    simp (disch := omega) only [statusWord_getLsbD, if_pos, if_neg, Nat.add_sub_cancel_left]

theorem statusWord_faultStage (s : State) : (statusWord s).extractLsb' 7 1 = faultStageCode s.faultStage :=
  statusWord_field s 7 fun i hi => by
    simp (disch := omega) only [statusWord_getLsbD, if_pos, if_neg, Nat.add_sub_cancel_left]

theorem statusWord_ready (s : State) : (statusWord s).getLsbD 8 = ready s := by
  rw [statusWord_getLsbD]; rfl

theorem statusWord_zeros (s : State) : (statusWord s).extractLsb' 9 7 = 0 :=
  statusWord_field s 9 fun i hi => by
    simp (disch := omega) only [statusWord_getLsbD, if_neg]
    simp

theorem statusWord_resetOf (p : Params) : statusWord (State.resetOf p) = 0x0100 :=
  calc statusWord (State.resetOf p) = statusWord State.reset := rfl
    _ = 0x0100 := by decide

theorem step_sample {s : State} (hm : nextMove s = .sample) : step s = .next (afterMove s) := by
  simp [step, hm, runMove]

/-- Settles O41: each field is read off `statusWord_getLsbD`, which says where every bit of the word comes from. -/
theorem statusWordFields : Obligations.StatusWordFields := by
  refine ⟨fun s => ⟨statusWord_seq s, ?_, ?_, statusWord_faultKind s, statusWord_faultStage s, ?_, statusWord_zeros s⟩,
    ⟨rfl, rfl, rfl, rfl, rfl⟩, statusWord_resetOf, fun s => step_sample⟩
  · rw [statusWord_inited]
  · rw [statusWord_fault]
  · rw [statusWord_ready, ready_iff]

/-! ### The values after reset (R37) -/

theorem atReset_resetOf (p : Params) : atReset p (State.resetOf p) :=
  ⟨rfl, rfl, rfl, rfl, rfl, rfl, rfl, rfl, rfl, rfl, rfl, statusWord_resetOf p, rfl, rfl⟩

/-- The environment's schedule and the counters of the free values are no part of the reset values, so the reset event
gives what reset gives. -/
theorem atReset_resetEvent (s : State) : atReset s.cfg (resetEvent s) := atReset_resetOf s.cfg

theorem step_reset {s : State} (hm : nextMove s = .reset) : step s = .next (resetEvent (afterMove s)) := by
  simp [step, hm, runMove]

/-- Settles O42: the reset event gives the state the reset values of its own instance, which taking the move from the
schedule leaves as it is. -/
theorem resetValues : Obligations.ResetValues := by
  refine ⟨atReset_resetOf, fun s hm => ⟨_, step_reset hm, ?_⟩⟩
  simpa using atReset_resetEvent (afterMove s)

end Sys2Proof.Machine
end

section
/-! SUPPORT. Where the bytes of a frame stand, reads after writes of the memory primitives, and what no step writes
(spec/20_memory.md R42, R51, R54). -/

namespace Sys2Proof.Machine

/-! ### The layout of a frame (R42) -/

@[simp] theorem encodeFrame_length (t : SymTable) (strip : List Pixel) :
    (encodeFrame t strip).length = 12 * strip.length := by
  induction strip with
  | nil => rfl
  | cons p ps ih => simp [ih]; omega

theorem encodeChannel_getElem? (t : SymTable) (c : Byte) {k : Nat} (hk : k < 4) :
    (encodeChannel t c)[k]? = some (symLookup t (group c k)) := by
  interval_cases k <;> rfl

theorem encodePixel_getElem? (t : SymTable) (p : Pixel) {j k : Nat} (hj : j < 3) (hk : k < 4) :
    (encodePixel t p)[4 * j + k]? = (encodeChannel t (channelOf p j))[k]? := by
  interval_cases j <;> interval_cases k <;> rfl

/-- The twelve bytes of a pixel stand together, those of pixel `i` from `12 * i` on. -/
theorem encodeFrame_getElem? (t : SymTable) {strip : List Pixel} {i m : Nat} {p : Pixel} (hp : strip[i]? = some p)
    (hm : m < 12) : (encodeFrame t strip)[12 * i + m]? = (encodePixel t p)[m]? := by
  induction strip generalizing i with
  | nil => simp at hp
  | cons q qs ih =>
    rw [encodeFrame_cons]
    cases i with
    | zero =>
      obtain rfl : q = p := by simpa using hp
      rw [Nat.mul_zero, Nat.zero_add, List.getElem?_append_left (by simpa using hm)]
    | succ i =>
      rw [List.getElem?_append_right (by simp; omega), encodePixel_length,
        show 12 * (i + 1) + m - 12 = 12 * i + m by omega]
      exact ih (by simpa using hp)

theorem frameAddr_eq (i j k : Nat) : frameAddr i j k = 12 * i + 4 * j + k := rfl

/-- The byte at `frameAddr i j k` is the table's entry of group `k` of channel slot `j` of pixel `i`. -/
theorem encodeFrame_frameAddr (t : SymTable) {strip : List Pixel} {i j k : Nat} {p : Pixel}
    (hp : strip[i]? = some p) (hj : j < 3) (hk : k < 4) :
    (encodeFrame t strip)[frameAddr i j k]? = some (symLookup t (group (channelOf p j) k)) := by
  rw [frameAddr_eq, Nat.add_assoc, encodeFrame_getElem? t hp (by omega), encodePixel_getElem? t p hj hk,
    encodeChannel_getElem? t _ hk]

/-- Pixel, slot and group are read off the address by division and remainder. -/
theorem frameAddr_fields (i : Nat) {j k : Nat} (hj : j < 3) (hk : k < 4) :
    frameAddr i j k / 12 = i ∧ frameAddr i j k % 12 / 4 = j ∧ frameAddr i j k % 4 = k := by
  rw [frameAddr_eq]
  omega

/-- Settles O10: `encodeFrame_frameAddr` at the three channel slots, `frameAddr_fields` for the way back from the
address, and the length of a frame, which leaves no room for other bytes. -/
theorem frameLayout : Obligations.FrameLayout :=
  ⟨fun t _ i _ hp k hk =>
    ⟨encodeFrame_frameAddr t (j := 0) hp (by decide) hk, encodeFrame_frameAddr t (j := 1) hp (by decide) hk,
      encodeFrame_frameAddr t (j := 2) hp (by decide) hk, fun j hj => ⟨frameAddr_eq i j k, frameAddr_fields i hj hk⟩⟩,
    encodeFrame_length⟩

/-! ### The memory primitives (R54) -/

/-- The three channels put together again are the word they were cut from (R67). -/
theorem colourOf_pixelOf (color : Colour) : colourOf (pixelOf color) = color := by
  have hrg : colourRed color ++ colourGreen color = color.extractLsb' 8 16 :=
    BitVec.extractLsb'_append_extractLsb'_eq_extractLsb' rfl
  have hrgb : color.extractLsb' 8 16 ++ colourBlue color = color.extractLsb' 0 24 :=
    BitVec.extractLsb'_append_extractLsb'_eq_extractLsb' rfl
  simp only [colourOf, pixelOf, hrg, hrgb, BitVec.extractLsb'_eq_self]

theorem memWriteStrip_of_lt {pos : Nat} {s : State} (color : Colour) (h : pos < s.strip.length) :
    memWriteStrip pos color s = some { s with strip := s.strip.set pos (pixelOf color) } := if_pos h

theorem memWriteStrip_of_le {pos : Nat} {s : State} (color : Colour) (h : s.strip.length ≤ pos) :
    memWriteStrip pos color s = none := if_neg (by omega)

theorem memReadStrip_set {pos : Nat} {s : State} (color : Colour) (h : pos < s.strip.length) :
    memReadStrip { s with strip := s.strip.set pos (pixelOf color) } pos = some color := by
  simp [memReadStrip, h, colourOf_pixelOf]

theorem memReadStrip_of_le {pos : Nat} {s : State} (h : s.strip.length ≤ pos) : memReadStrip s pos = none := by
  simp [memReadStrip, h]

theorem memWriteFrame_of_le {a : Nat} {v : List Byte} {s : State} (h : a + v.length ≤ frameLen s) :
    memWriteFrame a v s = some { s with frame := Memory.writeBytes s.frame a v } := if_pos h

theorem memWriteFrame_of_lt {a : Nat} {v : List Byte} {s : State} (h : frameLen s < a + v.length) :
    memWriteFrame a v s = none := if_neg (by omega)

/-- What byte `b` of `FRAME` reads as after `v` was written at `a`. -/
theorem frameByte_writeBytes (s : State) (a : Nat) (v : List Byte) (b : Nat) :
    frameByte { s with frame := Memory.writeBytes s.frame a v } b =
      if a ≤ b ∧ b < a + v.length then v.getD (b - a) 0 else frameByte s b := by
  simp only [frameByte, Memory.byteAt_writeBytes]
  split
  · rename_i hb
    have hlt : b - a < v.length := by omega
    simp [hlt]
  · rfl

theorem readFrame_writeBytes (s : State) (a : Nat) (v : List Byte) :
    readFrame { s with frame := Memory.writeBytes s.frame a v } a v.length = v := by
  refine List.ext_getElem? fun i => ?_
  rw [readFrame_getElem?, frameByte_writeBytes]
  by_cases hi : i < v.length <;> simp [hi]

/-- A reset buffer of zeros reads as zeros within its bound. -/
theorem readResetBuf_of_zeros {a n : Nat} {s : State} (hz : s.resetBuf = List.replicate s.cfg.resetLen 0)
    (h : a + n ≤ s.cfg.resetLen) : readResetBuf s a n = List.replicate n 0 := by
  rw [readResetBuf, hz, List.drop_replicate, List.take_replicate, Nat.min_eq_left (by omega)]

/-- Settles O15: the pixel's and the frame's reads after a write, each with its bound, and the reset buffer's zeros,
which the invariant gives. -/
theorem memoryPrimitives : Obligations.MemoryPrimitives := by
  refine ⟨fun pos color s h => ?_, fun pos color s h => ?_, fun a v s h => ?_, fun a v s h => ?_, fun a n s hi h => ?_⟩
  · refine ⟨_, memWriteStrip_of_lt color h, memReadStrip_set color h, ?_, fun i hi => ?_⟩
    · exact List.getElem?_set_self h
    · exact List.getElem?_set_ne (Ne.symm hi)
  · exact ⟨memWriteStrip_of_le color h, memReadStrip_of_le h⟩
  · refine ⟨_, memWriteFrame_of_le h, readFrame_writeBytes s a v, fun b hb => ?_⟩
    rw [frameByte_writeBytes, if_neg (by omega)]
  · exact memWriteFrame_of_lt h
  · exact readResetBuf_of_zeros hi.resetBufZero h

/-! ### What no step writes (R31, R51, R23) -/

theorem Effect.cfg_eq {m : Move} {s t : State} (h : Effect m s t) : t.cfg = s.cfg := by
  cases h <;> rfl

/-- Only INIT and reset write the reset buffer, and they write its zeros. -/
theorem Effect.resetBuf_cases {m : Move} {s t : State} (h : Effect m s t) :
    t.resetBuf = s.resetBuf ∨ t.resetBuf = List.replicate t.cfg.resetLen 0 := by
  cases h with
  | wasReset => exact .inr rfl
  | initialised => exact .inr rfl
  | _ => exact .inl rfl

/-- Settles O52: of everything a step can do (`step_effect`), nothing writes a constant, and INIT and reset alone write
the reset buffer. -/
theorem constantsNeverChange : Obligations.ConstantsNeverChange := by
  intro s t h
  have hcfg : t.cfg = s.cfg := (step_effect h).cfg_eq.trans (afterMove_cfg s)
  refine ⟨hcfg, fun hz => ?_⟩
  rcases (step_effect h).resetBuf_cases with hb | hb
  · rw [hb, afterMove_resetBuf, hz, hcfg]
  · exact hb

end Sys2Proof.Machine
end

section
/-! SUPPORT. The opcode map as match and mask and the selector's fields, the groups of a channel byte as bit slices,
what the decoders of symbols accept, and what the command port does with the word it takes (spec/30_encoding.md R63,
R68 to R71, R74). -/

namespace Sys2Proof.Machine

/-! ### The command word's opcode map (R69) -/

theorem cmdWordOf_and_cmdWordOf (op op' : Byte) (pos pos' : Pos) (color color' : Colour) :
    cmdWordOf op pos color &&& cmdWordOf op' pos' color' = cmdWordOf (op &&& op') (pos &&& pos') (color &&& color') :=
  BitVec.and_append.trans (congrArg (· ++ (color &&& color')) BitVec.and_append)

/-- The mask of `SETPIX` keeps the opcode and clears the two other fields. -/
theorem cmdWord_and_opMask (w : CmdWord) : w &&& 0xFF0000000000 = cmdWordOf (cmdOp w) 0 0 :=
  calc w &&& 0xFF0000000000
      = cmdWordOf (cmdOp w) (cmdPos w) (cmdColour w) &&& cmdWordOf (BitVec.allOnes 8) 0 0 := by
        rw [Laws.cmdWordOf_fields]; rfl
    _ = cmdWordOf (cmdOp w) 0 0 := by
        rw [cmdWordOf_and_cmdWordOf, BitVec.and_allOnes]; simp

theorem cmdWord_and_opMask_eq_iff (w : CmdWord) (op : Byte) :
    w &&& 0xFF0000000000 = cmdWordOf op 0 0 ↔ cmdOp w = op := by
  rw [cmdWord_and_opMask]
  exact ⟨fun h => by simpa using congrArg cmdOp h, fun h => by rw [h]⟩

theorem decodeCmd48_init_iff (w : CmdWord) : decodeCmd48 w = .ok .init ↔ w = 0x010000000000 :=
  ⟨fun h => (commandWord_of_decode h).symm, fun h => h ▸ Laws.RoundTrip.init rfl⟩

theorem decodeCmd48_update_iff (w : CmdWord) : decodeCmd48 w = .ok .update ↔ w = 0x030000000000 :=
  ⟨fun h => (commandWord_of_decode h).symm, fun h => h ▸ Laws.RoundTrip.update rfl⟩

theorem decodeCmd48_setpix_iff (w : CmdWord) (pos : Pos) (color : Colour) :
    decodeCmd48 w = .ok (.setpix pos color) ↔ cmdOp w = 0x02 ∧ pos = cmdPos w ∧ color = cmdColour w := by
  constructor
  · intro h
    obtain rfl : cmdWordOf 0x02 pos color = w := commandWord_of_decode h
    simp
  · rintro ⟨hop, rfl, rfl⟩
    simp [decodeCmd48, hop]

/-- The decoder of command words has one way to reject. -/
theorem decodeCmd48_error {w : CmdWord} {e : DecodeError} (h : decodeCmd48 w = .error e) : e = .illegalCommand := by
  unfold decodeCmd48 at h
  split_ifs at h <;> exact (Except.error.inj h).symm

/-- A word that decodes to none of the three commands is reserved (R70). -/
theorem decodeCmd48_illegal {w : CmdWord} (hi : decodeCmd48 w ≠ .ok .init)
    (hs : ∀ pos color, decodeCmd48 w ≠ .ok (.setpix pos color)) (hu : decodeCmd48 w ≠ .ok .update) :
    decodeCmd48 w = .error .illegalCommand := by
  cases hd : decodeCmd48 w with
  | error e => rw [decodeCmd48_error hd]
  | ok i =>
    rcases decodeCmd48_command hd with rfl | ⟨pos, color, rfl⟩ | rfl
    · exact absurd hd hi
    · exact absurd hd (hs pos color)
    · exact absurd hd hu

/-- Settles O2: the masks of INIT and UPDATE keep the whole word, that of SETPIX the opcode, and a decoded word is the
word of its instruction. -/
theorem commandWordMap : Obligations.CommandWordMap := by
  have hfull (w : CmdWord) : w &&& 0xFFFFFFFFFFFF = w := BitVec.and_allOnes
  have hop (w : CmdWord) : w &&& 0xFF0000000000 = 0x020000000000 ↔ cmdOp w = 0x02 := cmdWord_and_opMask_eq_iff w 0x02
  refine ⟨fun w => ⟨rfl, rfl, rfl⟩, fun op pos color => ?_, fun w => ?_, fun w pos color => ?_, fun w => ?_,
    fun w hi hs hu => ?_⟩
  · exact ⟨Laws.cmdOp_cmdWordOf op pos color, Laws.cmdPos_cmdWordOf op pos color,
      Laws.cmdColour_cmdWordOf op pos color⟩
  · rw [hfull]; exact decodeCmd48_init_iff w
  · rw [hop]; exact decodeCmd48_setpix_iff w pos color
  · rw [hfull]; exact decodeCmd48_update_iff w
  · rw [hfull] at hi hu
    rw [ne_eq, hop] at hs
    exact decodeCmd48_illegal (mt (decodeCmd48_init_iff w).1 hi)
      (fun pos color h => hs ((decodeCmd48_setpix_iff w pos color).1 h).1) (mt (decodeCmd48_update_iff w).1 hu)

/-! ### The selector (R71) -/

theorem usel_seq (s : State) : (usel s).extractLsb' 1 3 = seqCode s.seq := BitVec.extractLsb'_append_eq_left

theorem usel_tz (s : State) : (usel s).getLsbD 0 = tickZero s :=
  BitVec.getLsbD_append.trans (BitVec.getLsbD_ofBool (tickZero s) 0)

/-- The codes 5 and 6 are of no state, and a selector that holds one is rejected as such. -/
theorem decodeUsel4_neverOccurs {u : Usel} (h : u.extractLsb' 1 3 = 5 ∨ u.extractLsb' 1 3 = 6) :
    decodeUsel4 u = .error .neverOccurs := by
  rcases h with h | h <;> simp [decodeUsel4, h]

/-- Settles O3: the selector's two fields, and what it selects in each state, which `decode_usel` says. -/
theorem selectorMap : Obligations.SelectorMap := by
  refine ⟨⟨rfl, rfl, rfl, rfl, rfl, rfl, fun q => ?_⟩, fun s => ⟨usel_seq s, ?_⟩, fun s hs => ?_, fun s hs => ?_,
    fun s hs => ?_, fun s hs ht => ?_, fun s hs ht => ?_, fun s hs => ?_, fun u => decodeUsel4_neverOccurs⟩
  · cases q <;> decide
  · rw [usel_tz, tickZero, decide_eq_true_iff]
  · rw [decode_usel, hs]
  · rw [decode_usel, hs]
  · rw [decode_usel, hs]
  · rw [decode_usel, hs]; exact if_neg ht.ne'
  · rw [decode_usel, hs]; exact if_pos ht
  · rcases hs with hs | hs <;> rw [decode_usel, hs]

/-! ### The groups of a channel byte (R63) -/

/-- Two bits of a byte, shifted down and masked, are the slice of the byte where they stand. -/
theorem setWidth_ushiftRight_and_three (c : Byte) (k : Nat) :
    BitVec.setWidth 2 ((c >>> k) &&& 3) = c.extractLsb' k 2 :=
  calc BitVec.setWidth 2 ((c >>> k) &&& 3)
      = BitVec.setWidth 2 (c >>> k) &&& BitVec.allOnes 2 := BitVec.setWidth_and
    _ = BitVec.setWidth 2 (c >>> k) := BitVec.and_allOnes
    _ = c.extractLsb' k 2 := rfl

theorem group_eq_extractLsb' (c : Byte) (k : Nat) : group c k = c.extractLsb' (6 - 2 * k) 2 :=
  setWidth_ushiftRight_and_three c _

/-- Settles O7: each group is a slice of two bits, group 0 the topmost. -/
theorem channelIsFourGroupsBigEndian : Obligations.ChannelIsFourGroupsBigEndian := by
  intro t c
  have hslice (k : Nat) := (setWidth_ushiftRight_and_three c k).symm
  refine ⟨?_, hslice 6, hslice 4, hslice 2, ?_, rfl, rfl, rfl, rfl⟩
  · simp only [encodeChannel, group_eq_extractLsb', Nat.reduceMul, Nat.reduceSub]
  · simpa using hslice 0

end Sys2Proof.Machine

namespace Sys2Proof

/-! ### Symbols (R74) -/

/-- The four entries of the table. -/
def SymTable.entries (t : SymTable) : List Byte := [t.t0, t.t1, t.t2, t.t3]

theorem SymTable.mem_entries {t : SymTable} {b : Byte} :
    b ∈ t.entries ↔ b = t.t0 ∨ b = t.t1 ∨ b = t.t2 ∨ b = t.t3 := by
  simp [SymTable.entries]

theorem SymTable.zero_notMem_entries {t : SymTable} (h : t.nonzero = true) : (0 : Byte) ∉ t.entries := by
  simp only [SymTable.nonzero, Bool.and_eq_true, bne_iff_ne] at h
  obtain ⟨⟨⟨h0, h1⟩, h2⟩, h3⟩ := h
  rw [SymTable.mem_entries]
  rintro (hz | hz | hz | hz)
  · exact h0 hz.symm
  · exact h1 hz.symm
  · exact h2 hz.symm
  · exact h3 hz.symm

end Sys2Proof

namespace Sys2Proof.Machine

theorem mem_entries_of_mem_encodeChannel {t : SymTable} {c b : Byte} (h : b ∈ encodeChannel t c) :
    b ∈ t.entries := by
  have hsome : ∃ g, b = symLookup t g := by
    simp only [encodeChannel, List.mem_cons, List.not_mem_nil, or_false] at h
    rcases h with h | h | h | h <;> exact ⟨_, h⟩
  obtain ⟨g, rfl⟩ := hsome
  exact symLookup_mem t g

theorem mem_entries_of_mem_encodePixel {t : SymTable} {p : Pixel} {b : Byte} (h : b ∈ encodePixel t p) :
    b ∈ t.entries := by
  simp only [encodePixel, List.mem_append] at h
  rcases h with (h | h) | h <;> exact mem_entries_of_mem_encodeChannel h

theorem mem_entries_of_mem_encodeFrame {t : SymTable} {strip : List Pixel} {b : Byte} (h : b ∈ encodeFrame t strip) :
    b ∈ t.entries := by
  obtain ⟨p, -, hb⟩ := List.mem_flatMap.1 h
  exact mem_entries_of_mem_encodePixel hb

/-- A symbol that decodes is the entry of the group it decodes to. -/
theorem symLookup_of_decodeSymbol {t : SymTable} {b : Byte} {g : Group} (h : decodeSymbol t b = some g) :
    symLookup t g = b := by
  unfold decodeSymbol at h
  split at h
  · rename_i g' hg
    cases h
    have hmem : g ∈ allGroups.filter (fun g => symLookup t g == b) := by simp [hg]
    simpa using (List.mem_filter.1 hmem).2
  · cases h

theorem mem_entries_of_decodeSymbol {t : SymTable} {b : Byte} {g : Group} (h : decodeSymbol t b = some g) :
    b ∈ t.entries :=
  symLookup_of_decodeSymbol h ▸ symLookup_mem t g

theorem mem_entries_of_decodeChannel {t : SymTable} {bs : List Byte} {c : Byte} (h : decodeChannel t bs = some c) :
    ∀ b ∈ bs, b ∈ t.entries := by
  unfold decodeChannel at h
  split at h
  · rename_i s0 s1 s2 s3
    split at h
    · rename_i h0 h1 h2 h3
      simpa using ⟨mem_entries_of_decodeSymbol h0, mem_entries_of_decodeSymbol h1, mem_entries_of_decodeSymbol h2,
        mem_entries_of_decodeSymbol h3⟩
    · cases h
  · cases h

/-- An element of a list stands among its first `n` or among those behind them. -/
theorem mem_take_or_mem_drop {α : Type} {l : List α} {x : α} (h : x ∈ l) (n : Nat) : x ∈ l.take n ∨ x ∈ l.drop n :=
  List.mem_append.1 (by rwa [List.take_append_drop])

theorem mem_entries_of_decodePixel {t : SymTable} {bs : List Byte} {p : Pixel} (h : decodePixel t bs = some p) :
    ∀ b ∈ bs, b ∈ t.entries := by
  unfold decodePixel at h
  split at h
  · rename_i hg hr hb
    intro b hmem
    rcases mem_take_or_mem_drop hmem 4 with h4 | h4
    · exact mem_entries_of_decodeChannel hg b h4
    · rcases mem_take_or_mem_drop h4 4 with h8 | h8
      · exact mem_entries_of_decodeChannel hr b h8
      · exact mem_entries_of_decodeChannel hb b (by simpa using h8)
  · cases h

theorem mem_entries_of_decodeFrame {t : SymTable} {n : Nat} {bs : List Byte} {strip : List Pixel}
    (h : decodeFrame t n bs = some strip) : ∀ b ∈ bs, b ∈ t.entries := by
  induction n generalizing bs strip with
  | zero =>
    unfold decodeFrame at h
    split at h
    · rename_i hnil; simp [hnil]
    · cases h
  | succ n ih =>
    unfold decodeFrame at h
    split at h
    · rename_i hp hps
      intro b hmem
      rcases mem_take_or_mem_drop hmem 12 with h12 | h12
      · exact mem_entries_of_decodePixel hp b h12
      · exact ih hps b h12
    · cases h

/-- Settles O12: what the encoder emits and what each decoder accepts holds entries only, so a byte that is none is
emitted nowhere and decodes nowhere. -/
theorem onlyEntriesAreSymbols : Obligations.OnlyEntriesAreSymbols := by
  refine ⟨fun t strip b h => ?_, fun t strip hnz h => ?_, fun t b h0 h1 h2 h3 => ?_, rfl⟩
  · exact SymTable.mem_entries.1 (mem_entries_of_mem_encodeFrame h)
  · exact SymTable.zero_notMem_entries hnz (mem_entries_of_mem_encodeFrame h)
  · have hb : b ∉ t.entries := by simp [SymTable.mem_entries, h0, h1, h2, h3]
    refine ⟨?_, fun bs hmem => ⟨?_, ?_, fun n => ?_⟩⟩ <;> refine Option.eq_none_iff_forall_ne_some.2 fun _ h => hb ?_
    · exact mem_entries_of_decodeSymbol h
    · exact mem_entries_of_decodeChannel h b hmem
    · exact mem_entries_of_decodePixel h b hmem
    · exact mem_entries_of_decodeFrame h b hmem

/-! ### The word the command port takes (R70, R114, R175) -/

theorem busy_eq_false {s : State} (h : s.seq = .idle ∨ s.seq = .fault) : busy s = false := by
  rcases h with h | h <;> simp [busy, h]

theorem refusesFaulted_iff (s : State) : refusesFaulted s = true ↔ s.fault = true ∨ s.seq = .fault := by
  simp [refusesFaulted]

@[simp] theorem refusesFaulted_afterMove (s : State) : refusesFaulted (afterMove s) = refusesFaulted s := by
  simp [refusesFaulted]

/-- Outside a cycle a reserved word is answered, and nothing else is done with it. -/
theorem refuseIllegal_of_not_busy (w : CmdWord) {s : State} (hb : busy s = false) :
    refuseIllegal w s = .next (respond (if refusesFaulted s then .faulted else .illegalCommand) s) := by
  cases hf : refusesFaulted s <;> simp [refuseIllegal, commandGate, hb, hf]

theorem exec_setpix_outOfRange {pos : Pos} (color : Colour) {s : State} (hb : busy s = false)
    (hf : refusesFaulted s = false) (hn : s.cfg.n ≤ pos.toNat) :
    exec (.setpix pos color) s = .next (respond .posOutOfRange s) := by
  simp only [exec, execSetpix, commandGate_open hb hf]
  exact if_pos hn

theorem step_command_ok {s : State} {w : CmdWord} {rest : List CmdWord} {i : Instr} (hm : nextMove s = .command)
    (hp : s.port = w :: rest) (hd : decodeCmd48 w = .ok i) : step s = exec i (takeWord rest (afterMove s)) := by
  simp [step, hm, runMove, takeCommand, hp, hd]

theorem step_command_error {s : State} {w : CmdWord} {rest : List CmdWord} {e : DecodeError}
    (hm : nextMove s = .command) (hp : s.port = w :: rest) (hd : decodeCmd48 w = .error e) :
    step s = refuseIllegal w (takeWord rest (afterMove s)) := by
  simp [step, hm, runMove, takeCommand, hp, hd]

/-- The reserved words by their fields (R70). -/
theorem decodeCmd48_reserved {w : CmdWord}
    (h : cmdOp w ≠ 0x01 ∧ cmdOp w ≠ 0x02 ∧ cmdOp w ≠ 0x03 ∨
      (cmdOp w = 0x01 ∨ cmdOp w = 0x03) ∧ (cmdPos w ≠ 0 ∨ cmdColour w ≠ 0)) :
    decodeCmd48 w = .error .illegalCommand := by
  rcases h with ⟨h1, h2, h3⟩ | ⟨hop, hfields⟩
  · rw [decodeCmd48, if_neg h1, if_neg h2, if_neg h3]
  · have hf : ¬ (cmdPos w = 0 ∧ cmdColour w = 0) := by tauto
    rcases hop with hop | hop <;> simp only [decodeCmd48, hop, if_neg hf] <;> rfl

/-- Settles O20: the port decodes the word it takes, and outside a cycle a reserved word, or a SETPIX out of range, is
only answered. -/
theorem reservedWordsAreRefused : Obligations.ReservedWordsAreRefused := by
  refine ⟨fun s w rest hm hp hseq hres => ?_, fun s w rest hm hp hseq hfault hop hn => ?_⟩
  · have hb : busy (takeWord rest (afterMove s)) = false := by simpa [busy_afterMove] using busy_eq_false hseq
    refine ⟨_, (step_command_error hm hp (decodeCmd48_reserved hres)).trans (refuseIllegal_of_not_busy w hb), ?_⟩
    simp only [takeWord_refusesFaulted, refusesFaulted_afterMove, refusesFaulted_iff]
    rfl
  · have hb : busy (takeWord rest (afterMove s)) = false := by simpa [busy_afterMove] using busy_eq_false (.inl hseq)
    have hf : refusesFaulted (takeWord rest (afterMove s)) = false := by simp [refusesFaulted, hfault, hseq]
    have hd := (decodeCmd48_setpix_iff w _ _).2 ⟨hop, rfl, rfl⟩
    exact ⟨_, (step_command_ok hm hp hd).trans (exec_setpix_outOfRange _ hb hf (by simpa using hn)), rfl⟩

end Sys2Proof.Machine
end

section
/-! SUPPORT. The rows of the symbol table, the inverse of the encoder and its image, the blocks a frame and its wire
bits are made of (spec/40_encoder.md R80, R86 to R90). -/

namespace Sys2Proof

theorem SymTable.entries_nodup {t : SymTable} (h : t.injective = true) : t.entries.Nodup := by
  simpa [SymTable.injective, SymTable.entries, and_assoc] using h

end Sys2Proof

namespace Sys2Proof.Machine

/-! ### Lookups (R80) -/

theorem symLookup_eq_getElem (t : SymTable) (g : Group) : symLookup t g = t.entries[g.toNat]'g.isLt := by
  rcases group_cases g with rfl | rfl | rfl | rfl <;> rfl

/-- Pairwise distinct entries: no entry stands at two indices. -/
theorem symLookup_injective {t : SymTable} (h : t.injective = true) : Function.Injective (symLookup t) := by
  intro g g' hg
  rw [symLookup_eq_getElem, symLookup_eq_getElem] at hg
  exact BitVec.eq_of_toNat_eq ((SymTable.entries_nodup h).getElem_inj_iff.1 hg)

/-- Every entry is the entry of some group. -/
theorem exists_symLookup_eq {t : SymTable} {b : Byte} (h : b ∈ t.entries) : ∃ g, symLookup t g = b := by
  rcases SymTable.mem_entries.1 h with rfl | rfl | rfl | rfl
  · exact ⟨0, rfl⟩
  · exact ⟨1, rfl⟩
  · exact ⟨2, rfl⟩
  · exact ⟨3, rfl⟩

/-- Settles O6: each row's meaning is the lookup of its index, and the entries of an injective table are distinct. -/
theorem symLookupAnswersTheEntry : Obligations.SymLookupAnswersTheEntry :=
  ⟨fun _ => ⟨rfl, rfl, rfl, rfl⟩, fun _ => ⟨rfl, rfl, rfl, rfl⟩, fun _ h _ _ hg => symLookup_injective h hg⟩

/-! ### The length of a frame (R86) -/

/-- Settles O9: `encodeFrame_length`, and the lengths of a pixel's and a channel's encoding. -/
theorem frameLengthIsTwelvePerPixel : Obligations.FrameLengthIsTwelvePerPixel := fun t strip p c =>
  ⟨encodeFrame_length t strip, encodePixel_length t p, encodeChannel_length t c⟩

/-! ### Blocks of one length, and the channel order (R87) -/

/-- Dropping `i` blocks of one length drops the `i` items they belong to. -/
theorem drop_flatMap_of_length {α β : Type} {f : α → List β} {k : Nat} (hk : ∀ a, (f a).length = k) (l : List α)
    (i : Nat) : (l.flatMap f).drop (k * i) = (l.drop i).flatMap f := by
  induction i generalizing l with
  | zero => rfl
  | succ i ih =>
    cases l with
    | nil => simp
    | cons a l =>
      rw [Nat.mul_succ, Nat.add_comm, ← List.drop_drop, List.flatMap_cons, List.drop_left' (hk a), ih,
        List.drop_succ_cons]

/-- From block `i` on, a list of blocks of one length begins with the block of item `i`. -/
theorem drop_flatMap_of_getElem? {α β : Type} {f : α → List β} {k : Nat} (hk : ∀ a, (f a).length = k) {l : List α}
    {i : Nat} {a : α} (h : l[i]? = some a) : (l.flatMap f).drop (k * i) = f a ++ (l.drop (i + 1)).flatMap f := by
  obtain ⟨hi, rfl⟩ := List.getElem?_eq_some_iff.1 h
  rw [drop_flatMap_of_length hk, List.drop_eq_getElem_cons hi, List.flatMap_cons]

/-- Settles O8: from `12 * i` on a frame begins with the three channels of pixel `i`, four bytes each. -/
theorem channelOrderIsGreenRedBlue : Obligations.ChannelOrderIsGreenRedBlue := by
  intro t strip i p hp
  have hdrop : (encodeFrame t strip).drop (12 * i) = encodePixel t p ++ encodeFrame t (strip.drop (i + 1)) :=
    drop_flatMap_of_getElem? (encodePixel_length t) hp
  rw [← List.drop_drop, ← List.drop_drop, hdrop]
  exact ⟨rfl, rfl, rfl⟩

/-! ### The round trip (R88) -/

theorem group_getLsbD (c : Byte) (k : Nat) {i : Nat} (hi : i < 2) :
    (group c k).getLsbD i = c.getLsbD (6 - 2 * k + i) := by
  rw [group_eq_extractLsb', BitVec.getLsbD_extractLsb', decide_eq_true hi, Bool.true_and]

/-- A byte is its four groups put together, bit by bit. -/
theorem joinGroups_group (c : Byte) : joinGroups (group c 0) (group c 1) (group c 2) (group c 3) = c := by
  apply BitVec.eq_of_getLsbD_eq
  intro i hi
  interval_cases i <;> simp [joinGroups, group_eq_extractLsb']

/-- The groups of a byte put together from four are these four, bit by bit. -/
theorem group_joinGroups (g0 g1 g2 g3 : Group) :
    group (joinGroups g0 g1 g2 g3) 0 = g0 ∧ group (joinGroups g0 g1 g2 g3) 1 = g1 ∧
    group (joinGroups g0 g1 g2 g3) 2 = g2 ∧ group (joinGroups g0 g1 g2 g3) 3 = g3 := by
  refine ⟨?_, ?_, ?_, ?_⟩
  all_goals
    refine BitVec.eq_of_getLsbD_eq fun i hi => ?_
    rw [group_getLsbD _ _ hi]
    interval_cases i <;> simp [joinGroups]

/-- The one group with the entry of `g` is `g`. -/
theorem decodeSymbol_symLookup {t : SymTable} (h : t.injective = true) (g : Group) :
    decodeSymbol t (symLookup t g) = some g := by
  have hbeq : (fun g' => symLookup t g' == symLookup t g) = fun g' => g' == g := by
    funext g'
    rw [Bool.eq_iff_iff, beq_iff_eq, beq_iff_eq, (symLookup_injective h).eq_iff]
  have hfilter : allGroups.filter (fun g' => g' == g) = [g] := by
    rcases group_cases g with rfl | rfl | rfl | rfl <;> rfl
  rw [decodeSymbol, hbeq, hfilter]

theorem decodeChannel_encodeChannel {t : SymTable} (h : t.injective = true) (c : Byte) :
    decodeChannel t (encodeChannel t c) = some c := by
  simp only [encodeChannel, decodeChannel, decodeSymbol_symLookup h, joinGroups_group]

theorem decodePixel_encodePixel {t : SymTable} (h : t.injective = true) (p : Pixel) :
    decodePixel t (encodePixel t p) = some p := by
  have hg : (encodePixel t p).take 4 = encodeChannel t p.g := rfl
  have hr : ((encodePixel t p).drop 4).take 4 = encodeChannel t p.r := rfl
  have hb : (encodePixel t p).drop 8 = encodeChannel t p.b := rfl
  simp only [decodePixel, hg, hr, hb, decodeChannel_encodeChannel h]

theorem decodeFrame_encodeFrame {t : SymTable} (h : t.injective = true) (strip : List Pixel) :
    decodeFrame t strip.length (encodeFrame t strip) = some strip := by
  induction strip with
  | nil => rfl
  | cons p ps ih =>
    have htake : (encodePixel t p ++ encodeFrame t ps).take 12 = encodePixel t p :=
      List.take_left' (encodePixel_length t p)
    have hdrop : (encodePixel t p ++ encodeFrame t ps).drop 12 = encodeFrame t ps :=
      List.drop_left' (encodePixel_length t p)
    simp only [List.length_cons, decodeFrame, encodeFrame_cons, htake, hdrop, decodePixel_encodePixel h, ih]

/-- Settles O11: each decoder undoes its encoder, the frame's by induction over the strip. -/
theorem frameRoundTrip : Obligations.FrameRoundTrip := fun _ h =>
  ⟨decodeChannel_encodeChannel h, decodePixel_encodePixel h, decodeFrame_encodeFrame h⟩

/-! ### The image of the encoder (R89) -/

/-- What a decoder undoes is injective. -/
theorem injective_of_decode {α β : Type} {encode : α → β} {decode : β → Option α}
    (h : ∀ a, decode (encode a) = some a) : Function.Injective encode :=
  fun a b hab => Option.some.inj (by rw [← h a, hab, h b])

theorem encodeChannel_injective {t : SymTable} (h : t.injective = true) : Function.Injective (encodeChannel t) :=
  injective_of_decode (decodeChannel_encodeChannel h)

theorem encodePixel_injective {t : SymTable} (h : t.injective = true) : Function.Injective (encodePixel t) :=
  injective_of_decode (decodePixel_encodePixel h)

/-- Frames of one length have strips of one length, and one decoder undoes both. -/
theorem encodeFrame_injective {t : SymTable} (h : t.injective = true) : Function.Injective (encodeFrame t) := by
  intro s1 s2 hs
  have hlen : s1.length = s2.length := by simpa using congrArg List.length hs
  exact Option.some.inj <| calc
    some s1 = decodeFrame t s1.length (encodeFrame t s1) := (decodeFrame_encodeFrame h s1).symm
    _ = decodeFrame t s2.length (encodeFrame t s2) := by rw [hlen, hs]
    _ = some s2 := decodeFrame_encodeFrame h s2

theorem encodeChannel_joinGroups (t : SymTable) (g0 g1 g2 g3 : Group) :
    encodeChannel t (joinGroups g0 g1 g2 g3) = [symLookup t g0, symLookup t g1, symLookup t g2, symLookup t g3] := by
  obtain ⟨h0, h1, h2, h3⟩ := group_joinGroups g0 g1 g2 g3
  rw [encodeChannel, h0, h1, h2, h3]

/-- Any four entries are the encoding of a channel. -/
theorem exists_encodeChannel_eq {t : SymTable} {bs : List Byte} (hlen : bs.length = 4)
    (hbs : ∀ b ∈ bs, b ∈ t.entries) : ∃ c, encodeChannel t c = bs := by
  obtain ⟨b0, b1, b2, b3, rfl⟩ := List.length_eq_four.1 hlen
  simp only [List.forall_mem_cons] at hbs
  obtain ⟨h0, h1, h2, h3, -⟩ := hbs
  obtain ⟨g0, rfl⟩ := exists_symLookup_eq h0
  obtain ⟨g1, rfl⟩ := exists_symLookup_eq h1
  obtain ⟨g2, rfl⟩ := exists_symLookup_eq h2
  obtain ⟨g3, rfl⟩ := exists_symLookup_eq h3
  exact ⟨_, encodeChannel_joinGroups t g0 g1 g2 g3⟩

/-- Any twelve entries are the encoding of a pixel. -/
theorem exists_encodePixel_eq {t : SymTable} {bs : List Byte} (hlen : bs.length = 12)
    (hbs : ∀ b ∈ bs, b ∈ t.entries) : ∃ p, encodePixel t p = bs := by
  obtain ⟨g, hg⟩ := exists_encodeChannel_eq (t := t) (bs := bs.take 4) (by simp [hlen])
    fun b hb => hbs b (List.mem_of_mem_take hb)
  obtain ⟨r, hr⟩ := exists_encodeChannel_eq (t := t) (bs := (bs.drop 4).take 4) (by simp [hlen])
    fun b hb => hbs b (List.mem_of_mem_drop (List.mem_of_mem_take hb))
  obtain ⟨b, hb⟩ := exists_encodeChannel_eq (t := t) (bs := (bs.drop 4).drop 4) (by simp [hlen])
    fun b hb => hbs b (List.mem_of_mem_drop (List.mem_of_mem_drop hb))
  refine ⟨⟨r, g, b⟩, ?_⟩
  rw [encodePixel, hg, hr, hb, List.append_assoc, List.take_append_drop, List.take_append_drop]

/-- Any `12 * n` entries are the frame of a strip of `n` pixels. -/
theorem exists_encodeFrame_eq {t : SymTable} {n : Nat} {bs : List Byte} (hlen : bs.length = 12 * n)
    (hbs : ∀ b ∈ bs, b ∈ t.entries) : ∃ strip, strip.length = n ∧ encodeFrame t strip = bs := by
  induction n generalizing bs with
  | zero => exact ⟨[], rfl, (List.eq_nil_of_length_eq_zero hlen).symm⟩
  | succ n ih =>
    obtain ⟨p, hp⟩ := exists_encodePixel_eq (t := t) (bs := bs.take 12) (by simp [hlen, Nat.mul_succ])
      fun b hb => hbs b (List.mem_of_mem_take hb)
    obtain ⟨ps, rfl, hps⟩ := ih (bs := bs.drop 12) (by simp [hlen, Nat.mul_succ])
      fun b hb => hbs b (List.mem_of_mem_drop hb)
    exact ⟨p :: ps, rfl, by rw [encodeFrame_cons, hp, hps, List.take_append_drop]⟩

/-- Settles O13: a decoder undoes each encoder, a frame holds entries only, and entries are put together to a strip
twelve at a time. -/
theorem encoderInjectiveWithImage : Obligations.EncoderInjectiveWithImage := by
  intro t h
  refine ⟨fun _ _ hc => encodeChannel_injective h hc, fun _ _ hp => encodePixel_injective h hp,
    fun _ _ hs => encodeFrame_injective h hs, fun n bs => ?_⟩
  simp only [← SymTable.mem_entries]
  constructor
  · rintro ⟨hlen, hbs⟩
    exact exists_encodeFrame_eq hlen hbs
  · rintro ⟨strip, rfl, rfl⟩
    exact ⟨encodeFrame_length t strip, fun b hb => mem_entries_of_mem_encodeFrame hb⟩

/-! ### Wire bits (R90) -/

@[simp] theorem byteBits_length (v : Byte) : (byteBits v).length = 8 := rfl

theorem byteBits_getElem? (v : Byte) {j : Nat} (hj : j < 8) : (byteBits v)[j]? = some (v.getLsbD (7 - j)) := by
  interval_cases j <;> rfl

theorem wireBits_length (bs : List Byte) : (wireBits bs).length = 8 * bs.length := by
  simp [wireBits, List.length_flatMap, Nat.mul_comm]

/-- The eight wire bits of byte `i` stand together, from `8 * i` on. -/
theorem wireBits_getElem? {bs : List Byte} {i j : Nat} {b : Byte} (hb : bs[i]? = some b) (hj : j < 8) :
    (wireBits bs)[8 * i + j]? = some (b.getLsbD (7 - j)) := by
  rw [← List.getElem?_drop, wireBits, drop_flatMap_of_getElem? byteBits_length hb,
    List.getElem?_append_left (by simpa using hj), byteBits_getElem? b hj]

/-- The four wire bits of a data bit under the default table. -/
def dataBitSlot (d : Bool) : List Bool := [true, d, d, false]

/-- An entry of the default table holds the slots of its group's two bits. -/
theorem byteBits_symLookup_defaultSym (g : Group) : byteBits (symLookup Config.defaultSym g) =
    dataBitSlot (g.getLsbD 1) ++ dataBitSlot (g.getLsbD 0) := by
  rcases group_cases g with rfl | rfl | rfl | rfl <;> rfl

theorem wireBits_encodeChannel_defaultSym (c : Byte) :
    wireBits (encodeChannel Config.defaultSym c) = (byteBits c).flatMap dataBitSlot := by
  simp only [wireBits, encodeChannel, List.flatMap_cons, List.flatMap_nil, byteBits_symLookup_defaultSym,
    group_getLsbD c _ Nat.one_lt_two, group_getLsbD c _ Nat.two_pos, Nat.reduceMul, Nat.reduceSub, Nat.reduceAdd]
  rfl

theorem wireBits_encodePixel_defaultSym (p : Pixel) : wireBits (encodePixel Config.defaultSym p) =
    (byteBits p.g ++ byteBits p.r ++ byteBits p.b).flatMap dataBitSlot := by
  have happend (xs ys : List Byte) : wireBits (xs ++ ys) = wireBits xs ++ wireBits ys := List.flatMap_append
  simp only [encodePixel, happend, wireBits_encodeChannel_defaultSym, List.flatMap_append]

/-- Under the default table the wire bits of a frame are the slots of the strip's data bits, in their order. -/
theorem wireBits_encodeFrame_defaultSym (strip : List Pixel) :
    wireBits (encodeFrame Config.defaultSym strip) = (dataBits strip).flatMap dataBitSlot := by
  rw [wireBits, encodeFrame, dataBits, List.flatMap_assoc, List.flatMap_assoc]
  exact congrArg strip.flatMap (funext wireBits_encodePixel_defaultSym)

/-- Settles O14: eight bits for each byte, eight times the length of a frame, and the default table's slots. -/
theorem wireBitsOfAFrame : Obligations.WireBitsOfAFrame := by
  refine ⟨fun bs i j b hb hj => wireBits_getElem? hb hj, fun t strip => ?_, wireBits_encodeFrame_defaultSym⟩
  rw [wireBits_length, encodeFrame_length]
  omega

end Sys2Proof.Machine
end

section
/-! SUPPORT. What the command port does with the words that wait, and what the micro-operations do and leave unchanged,
one equation per case (spec/41_transmitter.md R102 to R106, R112, R114). -/

namespace Sys2Proof.Machine

/-! ### The port during a cycle and after a fault (R114) -/

theorem commandGate_busy (w : CmdWord) (k : State → Out) {s : State} (hb : busy s = true) :
    commandGate w k s = .next (holdWord w s) := if_pos hb

theorem commandGate_faulted (w : CmdWord) (k : State → Out) {s : State} (hb : busy s = false)
    (hf : refusesFaulted s = true) : commandGate w k s = .next (respond .faulted s) := by
  simp [commandGate, hb, hf]

/-- Each command goes through the gate with its own word. -/
theorem exec_eq_commandGate {w : CmdWord} {i : Instr} (hd : decodeCmd48 w = .ok i) :
    ∃ k, ∀ s, exec i s = commandGate w k s := by
  obtain rfl := commandWord_of_decode hd
  rcases decodeCmd48_command hd with rfl | ⟨pos, color, rfl⟩ | rfl <;> exact ⟨_, fun _ => rfl⟩

/-- The port takes its oldest word through the gate, whether it is a command or reserved. -/
theorem takeCommand_eq_commandGate {s : State} {w : CmdWord} {rest : List CmdWord} (hp : s.port = w :: rest) :
    ∃ k, takeCommand s = commandGate w k (takeWord rest s) := by
  cases hd : decodeCmd48 w with
  | ok i =>
    obtain ⟨k, hk⟩ := exec_eq_commandGate hd
    exact ⟨k, by simp [takeCommand, hp, hd, hk]⟩
  | error e => exact ⟨fun s => .next (respond .illegalCommand s), by simp only [takeCommand, hp, hd, refuseIllegal]⟩

theorem takeCommand_busy {s : State} (hb : busy s = true) : takeCommand s = .next s := by
  cases hp : s.port with
  | nil => simp [takeCommand, hp]
  | cons w rest =>
    obtain ⟨k, hk⟩ := takeCommand_eq_commandGate hp
    rw [hk, commandGate_busy w k (by simpa using hb), holdWord_takeWord hp hb]

theorem takeCommand_faulted {s : State} {w : CmdWord} {rest : List CmdWord} (hp : s.port = w :: rest)
    (hs : s.seq = .fault) : takeCommand s = .next (respond .faulted (takeWord rest s)) := by
  obtain ⟨k, hk⟩ := takeCommand_eq_commandGate hp
  rw [hk, commandGate_faulted w k (by simp [busy_eq_false (.inr hs)]) (by simp [refusesFaulted, hs])]

theorem busy_eq_true_iff (s : State) :
    busy s = true ↔ s.seq = .encode ∨ s.seq = .txFrame ∨ s.seq = .txReset ∨ s.seq = .settle := by
  unfold busy; cases s.seq <;> simp

theorem step_command {s : State} (hm : nextMove s = .command) : step s = takeCommand (afterMove s) := by
  simp [step, hm, runMove]

/-- Settles O21: every word goes through `commandGate`, which holds it during a cycle and answers it with `Faulted`
after a fault. -/
theorem busyPortHoldsEveryWord : Obligations.BusyPortHoldsEveryWord := by
  refine ⟨fun s hm hseq => ⟨?_, afterMove_port s⟩, fun s w rest hm hp hseq => ?_⟩
  · rw [step_command hm, takeCommand_busy (by rwa [busy_afterMove, busy_eq_true_iff])]
  · exact ⟨_, (step_command hm).trans (takeCommand_faulted (by simpa using hp) (by simpa using hseq)), rfl⟩

/-! ### The words that wait (R114, R210) -/

/-- The host moves that put words at the port. -/
def presentsWords (m : Move) : Prop := (∃ w, m = .present w) ∨ ∃ pos hex, m = .set pos hex

theorem setWords_length_le (o : SetOutcome) : (setWords o).length ≤ 2 := by
  cases o <;> simp [setWords]

/-- What a move does to the words that wait. -/
theorem Effect.port_cases {m : Move} {s t : State} (h : Effect m s t) :
    t.port = s.port ∨ m = .reset ∧ t.port = [] ∨
    (presentsWords m ∧ ∃ added : List CmdWord, t.port = s.port ++ added ∧ added.length ≤ 2) ∨
    (m = .command ∧ busy s = false ∧ ∃ w, s.port = w :: t.port) := by
  cases h with
  | presented w => exact .inr (.inr (.inl ⟨.inl ⟨w, rfl⟩, [w], rfl, by simp⟩))
  | setCalled pos hex o => exact .inr (.inr (.inl ⟨.inr ⟨pos, hex, rfl⟩, setWords o, rfl, setWords_length_le o⟩))
  | wasReset => exact .inr (.inl ⟨rfl, rfl⟩)
  | refused w _ _ _ hp hb => exact .inr (.inr (.inr ⟨rfl, hb, w, hp⟩))
  | initialised w _ _ hp _ hb => exact .inr (.inr (.inr ⟨rfl, hb, w, hp⟩))
  | pixelWritten w _ _ _ _ hp _ hb => exact .inr (.inr (.inr ⟨rfl, hb, w, hp⟩))
  | cycleStarted w _ _ hp _ hb => exact .inr (.inr (.inr ⟨rfl, hb, w, hp⟩))
  | _ => exact .inl rfl

theorem step_port_cases {s t : State} (h : step s = .next t) :
    t.port = s.port ∨ nextMove s = .reset ∧ t.port = [] ∨
    (presentsWords (nextMove s) ∧ ∃ added : List CmdWord, t.port = s.port ++ added ∧ added.length ≤ 2) ∨
    (nextMove s = .command ∧ busy s = false ∧ ∃ w, s.port = w :: t.port) := by
  simpa [busy_afterMove] using (step_effect h).port_cases

/-- Settles O40: `step_port_cases` says what a step can do to the words that wait, and under H7 words are added to an
empty port only, two at most. -/
theorem presentedWordsWaitInOrder : Obligations.PresentedWordsWaitInOrder := by
  refine ⟨fun s w hm => ?_, fun s t hst hr => ?_, fun s t hone hlen hst => ?_⟩
  · simp [step, hm, runMove]
  · rcases step_port_cases hst with hp | ⟨hm, -⟩ | ⟨-, added, hp, -⟩ | hp
    · exact .inl ⟨[], by simp [hp]⟩
    · exact absurd hm hr
    · exact .inl ⟨added, hp⟩
    · exact .inr hp
  · rcases step_port_cases hst with hp | ⟨-, hp⟩ | ⟨hm, added, hp, hadded⟩ | ⟨-, -, w, hp⟩
    · rwa [hp]
    · simp [hp]
    · rw [hp, (hone hm).1]; exact hadded
    · rw [hp, List.length_cons] at hlen; omega

/-! ### The micro-operations, one equation per case (R102 to R106) -/

/-- A frame write that begins on a clear `HOLD` leaves the model's two fields about the wire; one that does not is
recorded in both (R159). -/
theorem beginFrameWrite_clear {s : State} (hp : s.hold.pending = []) (hd : s.hold.dirty = false) :
    (beginFrameWrite s).staleCycle = s.staleCycle ∧ (beginFrameWrite s).wireFaults = s.wireFaults := by
  simp [holdClear, hp, hd]

theorem beginFrameWrite_stale {s : State} (h : s.hold.pending ≠ [] ∨ s.hold.dirty = true) :
    (beginFrameWrite s).staleCycle = true ∧ (beginFrameWrite s).wireFaults = s.wireFaults ++ [.staleHold] := by
  simp [(holdClear_eq_false_iff s).2 h]

/-- ENCODE writes the whole frame and the frame write begins (R102). -/
theorem exec_encode {s : State} (hs : s.seq = .encode) (hl : s.strip.length = s.cfg.n) :
    exec .encode s = .next
      (beginFrameWrite { s with frame := Memory.writeBytes s.frame 0 (encodeFrame s.cfg.sym s.strip) }) := by
  have hw : memWriteFrame 0 (encodeFrame s.cfg.sym s.strip) s = _ :=
    memWriteFrame_of_le (by simp [frameLen, pixelBytes, hl])
  simp only [exec, execEncode, if_pos hs, if_pos hl, hw]

theorem frameByte_beginFrameWrite (s : State) (a : Nat) : frameByte (beginFrameWrite s) a = frameByte s a := rfl

/-- What ENCODE leaves in `FRAME`: the encoding, and every byte behind it as it was. -/
theorem frameByte_encoded (s : State) (a : Nat) :
    frameByte (beginFrameWrite { s with frame := Memory.writeBytes s.frame 0 (encodeFrame s.cfg.sym s.strip) }) a =
      if a < 12 * s.strip.length then (encodeFrame s.cfg.sym s.strip).getD a 0 else frameByte s a := by
  rw [frameByte_beginFrameWrite, frameByte_writeBytes]
  simp

theorem readFrame_encoded {s : State} (hl : s.strip.length = s.cfg.n) :
    readFrame (beginFrameWrite { s with frame := Memory.writeBytes s.frame 0 (encodeFrame s.cfg.sym s.strip) })
      0 (12 * s.cfg.n) = encodeFrame s.cfg.sym s.strip := by
  rw [← hl, ← encodeFrame_length s.cfg.sym]
  exact readFrame_writeBytes s 0 _

/-- Settles O23: the frame reads as the bytes `exec_encode` writes, and the layout of a frame says where each entry
stands. -/
theorem encodeFillsTheFrame : Obligations.EncodeFillsTheFrame := by
  refine fun s hs hl => ⟨_, exec_encode hs hl, rfl, beginFrameWrite_clear, readFrame_encoded hl,
    fun i j k p hp hj hk => ?_, fun a ha => ?_⟩
  · have hb := encodeFrame_frameAddr s.cfg.sym hp hj hk
    have hlt := (List.getElem?_eq_some_iff.1 hb).1
    rw [frameByte_encoded, if_pos (by simpa using hlt), List.getD_eq_getElem?_getD, hb, Option.getD_some]
  · rw [frameByte_encoded, if_neg (by omega)]

section
variable {b : BufId} {g : FaultStage} {n : Nat} {bs : Nat → List Byte} {done : State → State} {s : State}
  {r : WriteReturn}

theorem blockingWrite_wait (hr : s.ret = none) : blockingWrite b g n bs done s = .next s := by
  simp [blockingWrite, hr]

theorem blockingWrite_full (hr : s.ret = some r) (hw : r.written = n) :
    blockingWrite b g n bs done s = .next (done (takeReturn b (bs r.written) n r s)) := by
  simp [blockingWrite, hr, hw]

theorem blockingWrite_short (hr : s.ret = some r) (hw : r.written < n) :
    blockingWrite b g n bs done s = .next (faultEntry (returnKind r) g (takeReturn b (bs r.written) n r s)) := by
  simp [blockingWrite, hr, hw, hw.ne]

end

theorem exec_txframe {s : State} (hs : s.seq = .txFrame) : exec .txframe s =
    blockingWrite .frameBuf .frame (frameLen s) (readFrame s 0) (fun t => { t with seq := .txReset }) s := if_pos hs

theorem exec_txreset {s : State} (hs : s.seq = .txReset) : exec .txreset s =
    blockingWrite .resetBuf .reset (resetLen s) (readResetBuf s 0)
      (fun t => { t with tickcnt := t.cfg.settleTicks, seq := .settle }) s := if_pos hs

/-- Settles O24: the three cases of a blocking write, of the frame buffer. -/
theorem txframeTakesTheWrittenCount : Obligations.TxframeTakesTheWrittenCount := by
  refine ⟨fun s hs hr => ?_, fun s r hs hr hw => ?_, fun s r hs hr hw => ?_⟩
  · exact (exec_txframe hs).trans (blockingWrite_wait hr)
  · rw [(exec_txframe hs).trans (blockingWrite_full hr hw), takeReturn, hw]; rfl
  · exact (exec_txframe hs).trans (blockingWrite_short hr hw)

/-- Settles O25: the three cases of a blocking write, of the reset buffer, which reads as zeros. -/
theorem txresetTakesTheWrittenCount : Obligations.TxresetTakesTheWrittenCount := by
  refine ⟨fun s hs hr => ?_, fun s r hs hr hw hz => ?_, fun s r hs hr hw hz => ?_⟩
  · exact (exec_txreset hs).trans (blockingWrite_wait hr)
  · rw [(exec_txreset hs).trans (blockingWrite_full hr hw), readResetBuf_of_zeros hz (by omega), takeReturn, hw]; rfl
  · rw [(exec_txreset hs).trans (blockingWrite_short hr hw), readResetBuf_of_zeros hz (by omega)]; rfl

theorem exec_settle {s : State} (hs : s.seq = .settle) (ht : 0 < s.tickcnt) :
    exec .settle s = .next { s with tickcnt := s.tickcnt - 1 } := if_pos ⟨hs, ht⟩

theorem exec_clear {s : State} (hs : s.seq = .settle) (ht : s.tickcnt = 0) : exec .clear s =
    .next (respond .ok { periphClear s with acceptLog := s.acceptLog ++ [.clear], seq := .idle }) := if_pos ⟨hs, ht⟩

/-- Settles O29: `exec_clear`, `PeriphClear` being what empties the holding buffer. -/
theorem clearEndsTheCycle : Obligations.ClearEndsTheCycle :=
  fun _ hs ht => ⟨_, exec_clear hs ht, rfl⟩

/-- Where SETTLE is selected a tick runs it (R105). -/
theorem step_tick_settle {s : State} (hm : nextMove s = .tick) (hs : s.seq = .settle) (ht : 0 < s.tickcnt) :
    step s = .next { afterMove s with tickcnt := s.tickcnt - 1 } := by
  have hd : decodeUsel4 (usel (afterMove s)) = .ok .settle := by simp [decode_usel, hs, ht.ne']
  rw [step, hm]
  simp only [runMove, tickStep, hd, if_true]
  rw [exec_settle (by simpa using hs) (by simpa using ht), afterMove_tickcnt]

theorem core_run_succ {k : Nat} {s t : State} (h : step s = .next t) : core.run (k + 1) s = core.run k t := by
  have hstep : core.step s = .next t := h
  simp only [Host.Core.run, hstep]

/-- `k` ticks in a row run SETTLE `k` times. -/
theorem run_ticks {k : Nat} {s : State} {rest : List Move} (hs : s.seq = .settle) (hk : k ≤ s.tickcnt)
    (hm : s.sched = List.replicate k .tick ++ rest) :
    core.run k s = .next { s with tickcnt := s.tickcnt - k, sched := rest } := by
  induction k generalizing s with
  | zero => subst hm; rfl
  | succ k ih =>
    have hstep := step_tick_settle (nextMove_cons s .tick _ hm) hs (by omega)
    rw [afterMove_cons s .tick _ hm] at hstep
    rw [core_run_succ hstep, ih (by exact hs) (by show k ≤ s.tickcnt - 1; omega) rfl, Nat.sub_sub, Nat.add_comm 1 k]

/-- Settles O28: one tick is `exec_settle`, and `k` ticks are an induction on `k`. -/
theorem settleCountsTicks : Obligations.SettleCountsTicks :=
  ⟨fun _ => exec_settle, fun _ _ _ => run_ticks⟩

/-! ### What the micro-operations leave unchanged (R112) -/

/-- Clearing `HOLD` records discarded bytes and nothing else. -/
theorem periphClear_wireFaults_eq (s : State) :
    ∃ l, (periphClear s).wireFaults = s.wireFaults ++ l ∧ .staleHold ∉ l := by
  by_cases hp : s.hold.pending = []
  · exact ⟨[], by simp [hp], by simp⟩
  · exact ⟨[.truncatedByClear], by simp [hp], by simp⟩

/-- Settles O30: for each micro-operation, the cases of what it can answer. -/
theorem microOperationFrames : Obligations.MicroOperationFrames := by
  refine ⟨fun s t h => ?_, fun s t h => ?_, fun s t h => ?_, fun s t h => ?_, fun s t h => ?_⟩
  · obtain ⟨-, hl, -, rfl⟩ := execEncode_next h
    refine ⟨rfl, beginFrameWrite_clear, beginFrameWrite_stale, fun a ha => ?_⟩
    rw [frameByte_encoded, if_neg (by omega)]
  · obtain ⟨-, ⟨-, rfl⟩ | ⟨r, -, -, rfl⟩ | ⟨r, -, -, rfl⟩⟩ := execTxframe_next h <;> exact ⟨rfl, fun _ => rfl⟩
  · obtain ⟨-, ⟨-, rfl⟩ | ⟨r, -, -, rfl⟩ | ⟨r, -, -, rfl⟩⟩ := execTxreset_next h <;> exact ⟨rfl, fun _ => rfl⟩
  · obtain ⟨-, -, rfl⟩ := execSettle_next h
    exact ⟨rfl, fun _ => rfl⟩
  · obtain ⟨-, -, rfl⟩ := execClear_next h
    exact ⟨rfl, rfl, periphClear_wireFaults_eq s, fun _ => rfl⟩

end Sys2Proof.Machine
end

section
/-! SUPPORT. The transitions of `SEQ`, what a step leaves unchanged while a cycle or a write is in progress, and the
peripheral's moves on that write (spec/41_transmitter.md R107 to R109, R113, spec/43_peripheral_and_wire.md R151,
R155). -/

namespace Sys2Proof.Machine

/-! ### The transitions of `SEQ` (R113) -/

/-- The word the port takes starts a cycle: it is UPDATE, at an idle, initialised block without a fault (R100). -/
def StartsCycle (s : State) : Prop :=
  (∃ w rest, s.port = w :: rest ∧ decodeCmd48 w = .ok .update) ∧ s.seq = .idle ∧ s.inited = true ∧ s.fault = false

/-- The transitions the sequencer's move makes, each with its condition. -/
def SequencerTransition (s t : State) : Prop :=
  (s.seq = .encode ∧ t.seq = .txFrame) ∨
  (s.seq = .txFrame ∧ t.seq = .txReset ∧ t.txcnt = 12 * s.cfg.n) ∨
  (s.seq = .txFrame ∧ t.seq = .fault ∧ t.txcnt ≠ 12 * s.cfg.n ∧ t.faultStage = .frame) ∨
  (s.seq = .txReset ∧ t.seq = .settle ∧ t.txcnt = s.cfg.resetLen ∧ t.tickcnt = s.cfg.settleTicks) ∨
  (s.seq = .txReset ∧ t.seq = .fault ∧ t.txcnt ≠ s.cfg.resetLen ∧ t.faultStage = .reset) ∨
  (s.seq = .settle ∧ s.tickcnt = 0 ∧ t.seq = .idle ∧ t.hold = ⟨[], false⟩)

theorem seq_eq_idle {s : State} (hb : busy s = false) (hf : refusesFaulted s = false) :
    s.seq = .idle ∧ s.fault = false := by
  simp only [refusesFaulted, Bool.or_eq_false_iff, decide_eq_false_iff_not] at hf
  revert hb hf
  unfold busy; cases s.seq <;> simp

/-- What a move does to `SEQ`. -/
theorem Effect.seq_cases {m : Move} {s t : State} (h : Effect m s t) :
    t.seq = s.seq ∨ m = .reset ∨ (m = .command ∧ StartsCycle s ∧ t.seq = .encode) ∨
    (m = .sequence ∧ SequencerTransition s t) := by
  cases h with
  | wasReset => exact .inr (.inl rfl)
  | cycleStarted w rest _ hp hd hb hf hi =>
    obtain ⟨hs, hfault⟩ := seq_eq_idle hb hf
    exact .inr (.inr (.inl ⟨rfl, ⟨⟨w, rest, hp, hd⟩, hs, hi, hfault⟩, rfl⟩))
  | frameEncoded _ hs => exact .inr (.inr (.inr ⟨rfl, .inl ⟨hs, rfl⟩⟩))
  | frameTaken r _ hs _ hw => exact .inr (.inr (.inr ⟨rfl, .inr (.inl ⟨hs, rfl, hw⟩)⟩))
  | frameShort r _ hs _ hw => exact .inr (.inr (.inr ⟨rfl, .inr (.inr (.inl ⟨hs, rfl, hw.ne, rfl⟩))⟩))
  | resetTaken r _ hs _ hw => exact .inr (.inr (.inr ⟨rfl, .inr (.inr (.inr (.inl ⟨hs, rfl, hw, rfl⟩)))⟩))
  | resetShort r _ hs _ hw =>
    exact .inr (.inr (.inr ⟨rfl, .inr (.inr (.inr (.inr (.inl ⟨hs, rfl, hw.ne, rfl⟩))))⟩))
  | cleared _ hs ht => exact .inr (.inr (.inr ⟨rfl, .inr (.inr (.inr (.inr (.inr ⟨hs, ht, rfl, rfl⟩))))⟩))
  | _ => exact .inl rfl

theorem step_seq_cases {s t : State} (h : step s = .next t) :
    t.seq = s.seq ∨ nextMove s = .reset ∨ (nextMove s = .command ∧ StartsCycle s ∧ t.seq = .encode) ∨
    (nextMove s = .sequence ∧ SequencerTransition s t) := by
  simpa [StartsCycle, SequencerTransition] using (step_effect h).seq_cases

/-- Settles O46: of everything a step can do (`step_effect`), the port's UPDATE and the sequencer's move alone change
`SEQ`, reset apart. -/
theorem sequencerTransitionTable : Obligations.SequencerTransitionTable := by
  intro s t h hr
  rcases step_seq_cases h with hs | hm | ⟨hm, ⟨hw, hs, hi, hf⟩, ht⟩ | ⟨hm, ht⟩
  · exact .inl hs
  · exact absurd hm hr
  · exact .inr (.inl ⟨hm, hw, hs, hi, hf, ht⟩)
  · exact .inr (.inr (by simpa [SequencerTransition, hm] using ht))

/-! ### What no move but the sequencer's changes during a cycle -/

/-- The fields that only the sequencer writes while a cycle is in progress are as before. -/
structure KeepsBlock (s t : State) : Prop where
  cfg : t.cfg = s.cfg
  strip : t.strip = s.strip
  frame : t.frame = s.frame
  frameEpoch : t.frameEpoch = s.frameEpoch
  resetBuf : t.resetBuf = s.resetBuf
  seq : t.seq = s.seq
  inited : t.inited = s.inited
  fault : t.fault = s.fault
  faultKind : t.faultKind = s.faultKind
  faultStage : t.faultStage = s.faultStage
  txcnt : t.txcnt = s.txcnt
  acceptLog : t.acceptLog = s.acceptLog
  resp : t.resp = s.resp

theorem keepsBlock_afterMove (s : State) : KeepsBlock s (afterMove s) := by
  constructor <;> simp

theorem Effect.keepsBlock {m : Move} {s t : State} (h : Effect m s t) (hb : busy s = true) (hr : m ≠ .reset)
    (hm : m ≠ .sequence) : KeepsBlock s t := by
  have hopen {P : Prop} (h : busy s = false) : P := by simp [hb] at h
  cases h with
  | wasReset => exact absurd rfl hr
  | refused _ _ _ _ _ hb => exact hopen hb
  | initialised _ _ _ _ _ hb => exact hopen hb
  | pixelWritten _ _ _ _ _ _ _ hb => exact hopen hb
  | cycleStarted _ _ _ _ _ hb => exact hopen hb
  | frameEncoded => exact absurd rfl hm
  | frameTaken => exact absurd rfl hm
  | frameShort => exact absurd rfl hm
  | resetTaken => exact absurd rfl hm
  | resetShort => exact absurd rfl hm
  | cleared => exact absurd rfl hm
  | _ => constructor <;> rfl

theorem KeepsBlock.trans {s t u : State} (h : KeepsBlock s t) (h' : KeepsBlock t u) : KeepsBlock s u :=
  ⟨h'.cfg.trans h.cfg, h'.strip.trans h.strip, h'.frame.trans h.frame, h'.frameEpoch.trans h.frameEpoch,
    h'.resetBuf.trans h.resetBuf, h'.seq.trans h.seq, h'.inited.trans h.inited, h'.fault.trans h.fault,
    h'.faultKind.trans h.faultKind, h'.faultStage.trans h.faultStage, h'.txcnt.trans h.txcnt,
    h'.acceptLog.trans h.acceptLog, h'.resp.trans h.resp⟩

theorem step_keepsBlock {s t : State} (h : step s = .next t) (hb : busy s = true) (hr : nextMove s ≠ .reset)
    (hm : nextMove s ≠ .sequence) : KeepsBlock s t :=
  (keepsBlock_afterMove s).trans ((step_effect h).keepsBlock (by rwa [busy_afterMove]) hr hm)

/-! ### The sequencer and the write in progress (R107, R108) -/

theorem usel_afterMove (s : State) : usel (afterMove s) = usel s := by
  simp [usel, tickZero]

/-- The sequencer's move runs the micro-operation that is selected (R71). -/
theorem step_sequence {s : State} {i : Instr} (hm : nextMove s = .sequence) (hd : decodeUsel4 (usel s) = .ok i)
    (hi : i ≠ .settle) : step s = exec i (afterMove s) := by
  simp [step, hm, runMove, sequencerStep, usel_afterMove, hd, hi]

theorem step_sequence_txFrame {s : State} (hm : nextMove s = .sequence) (hs : s.seq = .txFrame) :
    step s = exec .txframe (afterMove s) := step_sequence hm (by rw [decode_usel, hs]) (by decide)

theorem step_sequence_txReset {s : State} (hm : nextMove s = .sequence) (hs : s.seq = .txReset) :
    step s = exec .txreset (afterMove s) := step_sequence hm (by rw [decode_usel, hs]) (by decide)

theorem step_sequence_wait {s : State} (hm : nextMove s = .sequence) (hs : s.seq = .txFrame ∨ s.seq = .txReset)
    (hr : s.ret = none) : step s = .next (afterMove s) := by
  rcases hs with hs | hs
  · rw [step_sequence_txFrame hm hs, exec_txframe (by simpa using hs), blockingWrite_wait (by simpa using hr)]
  · rw [step_sequence_txReset hm hs, exec_txreset (by simpa using hs), blockingWrite_wait (by simpa using hr)]

/-- Only the peripheral's three returning moves make a write return. -/
theorem Effect.ret_cases {m : Move} {s t : State} (h : Effect m s t) :
    t.ret = s.ret ∨ t.ret = none ∨ m = .complete ∨ m = .giveUp ∨ m = .cutShort := by
  cases h with
  | completed => simp
  | gaveUp => simp
  | wasCut => simp
  | wasReset => exact .inr (.inl rfl)
  | frameTaken => exact .inr (.inl rfl)
  | frameShort => exact .inr (.inl rfl)
  | resetTaken => exact .inr (.inl rfl)
  | resetShort => exact .inr (.inl rfl)
  | _ => exact .inl rfl

/-- Settles O27: the sequencer waits, no other move writes what the sequencer writes, and the moves that return a write
are the three named. -/
theorem unreturnedWriteBlocksTheSequencer : Obligations.UnreturnedWriteBlocksTheSequencer := by
  refine fun s hs hr => ⟨fun hm => step_sequence_wait hm hs hr, fun t hst hc hg hcut hreset => ?_⟩
  have hb : busy s = true := (busy_eq_true_iff s).2 (by tauto)
  have hret : t.ret = none := by
    rcases (step_effect hst).ret_cases with h | h | h | h | h
    · simpa [hr] using h
    · exact h
    · exact absurd h hc
    · exact absurd h hg
    · exact absurd h hcut
  have hk : KeepsBlock s t := by
    by_cases hm : nextMove s = .sequence
    · obtain rfl : afterMove s = t := by simpa [step_sequence_wait hm hs hr] using hst
      exact keepsBlock_afterMove s
    · exact step_keepsBlock hst hb hreset hm
  exact ⟨hk.seq, hret, hk.resp, hk.acceptLog, hk.txcnt⟩

/-- The sequencer has taken the count `r` of a write of `n` bytes, of stage `g`: it has logged that write alone, and the
fault is entered exactly when the count is not `n`. -/
structure CountTaken (r : WriteReturn) (n : Nat) (g : FaultStage) (s t : State) : Prop where
  txcnt : t.txcnt = r.written
  ret : t.ret = none
  acceptLog : ∃ b bs, t.acceptLog = s.acceptLog ++ [.write b bs n]
  fault : t.fault = true ↔ r.written ≠ n
  seq : t.seq = .fault ↔ r.written ≠ n
  faulted : r.written ≠ n →
    t.faultKind = returnKind r ∧ t.faultStage = g ∧ t.resp = some .transmissionFault ∧ t.tickcnt = s.tickcnt
  strip : t.strip = s.strip
  frame : ∀ a, frameByte t a = frameByte s a
  hold : t.hold = s.hold
  wire : t.wire = s.wire
  inited : t.inited = s.inited

/-- A blocking write whose full count leads to another state than `FAULT` checks the count it takes. -/
theorem blockingWrite_countTaken {b : BufId} {g : FaultStage} {n : Nat} {bs : Nat → List Byte} {q : Seq}
    {ticks : State → Nat} {s : State} {r : WriteReturn} (hr : s.ret = some r) (hw : r.written ≤ n)
    (hf : s.fault = false) (hq : q ≠ .fault) :
    ∃ t, blockingWrite b g n bs (fun t => { t with tickcnt := ticks t, seq := q }) s = .next t ∧
      CountTaken r n g s t := by
  rcases hw.eq_or_lt with hw | hw
  · refine ⟨_, blockingWrite_full hr hw, ?_⟩
    constructor <;> simp [hw, hf, hq, frameByte]
  · refine ⟨_, blockingWrite_short hr hw, ?_⟩
    constructor <;> simp [hw.ne, frameByte]

/-- In states of the invariant the sequencer's move takes and checks a returned count. -/
theorem step_sequence_countTaken {s : State} {r : WriteReturn} {n : Nat} (hi : Inv s) (hm : nextMove s = .sequence)
    (hr : s.ret = some r)
    (hn : (s.seq = .txFrame ∧ n = 12 * s.cfg.n) ∨ (s.seq = .txReset ∧ n = s.cfg.resetLen)) :
    ∃ t g, step s = .next t ∧ CountTaken r n g (afterMove s) t ∧ (g = .frame ↔ s.seq = .txFrame) := by
  have hra : (afterMove s).ret = some r := by simpa using hr
  have hfault : (afterMove s).fault = false := by
    rw [afterMove_fault, Bool.eq_false_iff, ne_eq, hi.faultSeq]
    rcases hn with ⟨hs, -⟩ | ⟨hs, -⟩ <;> simp [hs]
  have hbound : r.written ≤ n := by
    rcases hi.retBound r hr with ⟨hs, hw⟩ | ⟨hs, hw⟩ <;> rcases hn with ⟨hs', rfl⟩ | ⟨hs', rfl⟩
    · exact hw
    · simp [hs] at hs'
    · simp [hs] at hs'
    · exact hw
  rcases hn with ⟨hs, rfl⟩ | ⟨hs, rfl⟩
  · have hlen : frameLen (afterMove s) = 12 * s.cfg.n := by simp [frameLen, pixelBytes]
    obtain ⟨t, hst, ht⟩ := blockingWrite_countTaken (b := .frameBuf) (g := .frame) (bs := readFrame (afterMove s) 0)
      (q := .txReset) (ticks := fun t => t.tickcnt) hra hbound hfault (by decide)
    refine ⟨t, .frame, ?_, ht, by simp [hs]⟩
    rw [step_sequence_txFrame hm hs, exec_txframe (by simpa using hs), hlen]
    exact hst
  · have hlen : resetLen (afterMove s) = s.cfg.resetLen := by simp [resetLen]
    obtain ⟨t, hst, ht⟩ := blockingWrite_countTaken (b := .resetBuf) (g := .reset) (bs := readResetBuf (afterMove s) 0)
      (q := .settle) (ticks := fun t => t.cfg.settleTicks) hra hbound hfault (by decide)
    refine ⟨t, .reset, ?_, ht, by simp [hs]⟩
    rw [step_sequence_txReset hm hs, exec_txreset (by simpa using hs), hlen]
    exact hst

/-- Settles O26: `step_sequence_countTaken`; outside SETTLE the invariant keeps `TICKCNT` at 0. -/
theorem writtenCountIsChecked : Obligations.WrittenCountIsChecked := by
  intro s r n hi hm hr hn
  obtain ⟨t, g, hst, ht, hg⟩ := step_sequence_countTaken hi hm hr hn
  obtain ⟨b, bs, hlog⟩ := ht.acceptLog
  have hticks : s.tickcnt = 0 := hi.tickcntZero (by rcases hn with ⟨hs, -⟩ | ⟨hs, -⟩ <;> simp [hs])
  refine ⟨t, .write b bs n, hst, ht.txcnt, ht.ret, by simpa using hlog, by simp, ht.fault, ht.seq, fun hne => ?_,
    by simpa using ht.strip, fun a => (ht.frame a).trans (frameByte_afterMove s a), by simpa using ht.hold,
    by simpa using ht.wire, by simpa using ht.inited⟩
  obtain ⟨hkind, hstage, hresp, htick⟩ := ht.faulted hne
  exact ⟨hkind, by rw [hstage, hg], hresp, by rw [htick, afterMove_tickcnt, hticks]⟩

/-! ### The peripheral's moves on the write in progress (R151, R109, R155) -/

@[simp] theorem currentWrite_afterMove (s : State) : currentWrite (afterMove s) = currentWrite s := by
  simp [currentWrite, frameLen, resetLen]

@[simp] theorem timeoutElapsed_afterMove (s : State) : timeoutElapsed (afterMove s) = timeoutElapsed s := by
  simp [timeoutElapsed]

theorem timeoutElapsed_eq_true_iff (s : State) :
    timeoutElapsed s = true ↔ ∃ b, s.cfg.txTimeout = some b ∧ b ≤ s.txticks := by
  unfold timeoutElapsed; cases s.cfg.txTimeout <;> simp

theorem timeoutElapsed_eq_false_iff (s : State) :
    timeoutElapsed s = false ↔ ∀ b, s.cfg.txTimeout = some b → s.txticks < b := by
  unfold timeoutElapsed; cases s.cfg.txTimeout <;> simp

theorem currentWrite_txFrame {s : State} (hr : s.ret = none) (hs : s.seq = .txFrame) :
    currentWrite s = some (.frameBuf, 12 * s.cfg.n) := by
  simp [currentWrite, hr, hs, frameLen, pixelBytes]

theorem currentWrite_txReset {s : State} (hr : s.ret = none) (hs : s.seq = .txReset) :
    currentWrite s = some (.resetBuf, s.cfg.resetLen) := by
  simp [currentWrite, hr, hs, resetLen]

theorem step_accept {s : State} (hm : nextMove s = .accept) : step s = periphAccept (afterMove s) := by
  simp [step, hm, runMove]

theorem periphAccept_enabled {s : State} {b : BufId} {n : Nat} {v : Byte} (hc : currentWrite s = some (b, n))
    (hi : s.txidx < n) (hh : s.hold.pending.length < s.cfg.holdCap) (ht : timeoutElapsed s = false)
    (hv : offeredByte s b s.txidx = some v) : periphAccept s = .next (acceptByte v s) := by
  simp [periphAccept, hc, hi, hh, ht, hv]

theorem periphAccept_disabled {s : State}
    (h : ∀ b n, currentWrite s = some (b, n) →
      n ≤ s.txidx ∨ s.cfg.holdCap ≤ s.hold.pending.length ∨ timeoutElapsed s = true) :
    periphAccept s = .next s := by
  unfold periphAccept
  split
  · rfl
  · rename_i b n hc
    refine if_neg fun ⟨hi, hh, ht⟩ => ?_
    rcases h b n hc with h | h | h
    · omega
    · omega
    · simp [ht] at h

/-- From the frame write on the bytes of `FRAME` are the encoding's. -/
theorem Inv.encodeFrame_getElem? {s : State} (h : Inv s) (hs : holdsFrame s = true) {a : Nat} (ha : a < 12 * s.cfg.n) :
    (encodeFrame s.cfg.sym s.strip)[a]? = some (frameByte s a) := by
  have hlt : a < (encodeFrame s.cfg.sym s.strip).length := by simpa [h.stripLength] using ha
  rw [frameByte, h.frameEncoded hs a ha, List.getElem?_eq_getElem hlt, Option.getD_some]

/-- Settles O32: the acceptor's two cases, and where its write offers the invariant's bytes. -/
theorem acceptorTakesTheOfferedByte : Obligations.AcceptorTakesTheOfferedByte := by
  refine fun s hinv hm => ⟨fun hr hs hi hh ht => ?_, fun hr hs hi hh ht => ?_, fun h => ?_⟩
  · have hto := (timeoutElapsed_eq_false_iff s).2 ht
    refine ⟨_, hinv.encodeFrame_getElem? (by simp [holdsFrame, hs]) hi, ?_⟩
    rw [step_accept hm, periphAccept_enabled (v := frameByte s s.txidx) (b := .frameBuf) (n := 12 * s.cfg.n)
      (by simpa using currentWrite_txFrame hr hs) (by simpa using hi) (by simpa using hh) (by simpa using hto)
      (by simp [offeredByte, frameByte_afterMove])]
    simp [acceptByte]
  · have hto := (timeoutElapsed_eq_false_iff s).2 ht
    rw [step_accept hm, periphAccept_enabled (v := 0) (b := .resetBuf) (n := s.cfg.resetLen)
      (by simpa using currentWrite_txReset hr hs) (by simpa using hi) (by simpa using hh) (by simpa using hto)
      (by simp [offeredByte, hinv.resetBufZero, hi])]
    simp [acceptByte]
  · rw [step_accept hm]
    refine periphAccept_disabled fun b n hc => ?_
    rw [currentWrite_afterMove] at hc
    simp only [afterMove_txidx, afterMove_cfg, afterMove_hold, timeoutElapsed_afterMove, timeoutElapsed_eq_true_iff]
    obtain ⟨hr, ⟨hs, -, rfl⟩ | ⟨hs, -, rfl⟩⟩ := currentWrite_cases hc
    · simpa [hr, hs, frameLen, pixelBytes] using h
    · simpa [hr, hs, resetLen] using h

theorem exists_currentWrite {s : State} {n : Nat} (hr : s.ret = none)
    (hn : (s.seq = .txFrame ∧ n = 12 * s.cfg.n) ∨ (s.seq = .txReset ∧ n = s.cfg.resetLen)) :
    ∃ b, currentWrite s = some (b, n) := by
  rcases hn with ⟨hs, rfl⟩ | ⟨hs, rfl⟩
  · exact ⟨_, currentWrite_txFrame hr hs⟩
  · exact ⟨_, currentWrite_txReset hr hs⟩

section
variable {s : State} {b : BufId} {n : Nat}

theorem step_complete (hm : nextMove s = .complete) (hc : currentWrite s = some (b, n)) : step s = .next
    (if s.txidx = n then { afterMove s with ret := some ⟨n, false⟩, txidx := 0, txticks := 0 } else afterMove s) := by
  simp [step, hm, runMove, periphComplete, hc, returnWrite]

theorem step_giveUp (hm : nextMove s = .giveUp) (hc : currentWrite s = some (b, n)) : step s = .next
    (if s.txidx < n ∧ timeoutElapsed s = true then
      { afterMove s with ret := some ⟨s.txidx, true⟩, txidx := 0, txticks := 0 } else afterMove s) := by
  simp [step, hm, runMove, periphGiveUp, hc, returnWrite]

theorem step_cutShort (hm : nextMove s = .cutShort) (hc : currentWrite s = some (b, n)) : step s = .next
    (if s.txidx < n ∧ timeoutElapsed s = false then
      { afterMove s with ret := some ⟨s.txidx, false⟩, txidx := 0, txticks := 0 } else afterMove s) := by
  simp [step, hm, runMove, periphCutShort, hc, returnWrite]

/-- Once `TX_TIMEOUT` has elapsed on a write that is not fully accepted, only the give-up and reset touch it (R109). -/
theorem Effect.keepsElapsedWrite {m : Move} {t : State} (h : Effect m s t) (hc : currentWrite s = some (b, n))
    (hi : s.txidx < n) (hto : timeoutElapsed s = true) (hg : m ≠ .giveUp) (hreset : m ≠ .reset) :
    t.ret = none ∧ t.seq = s.seq ∧ t.txidx = s.txidx ∧ t.txticks = s.txticks := by
  obtain ⟨hr, hseq⟩ := currentWrite_cases hc
  have hbusy : busy s = true := (busy_eq_true_iff s).2 (by tauto)
  have hnotElapsed {P : Prop} (h : timeoutElapsed s = false) : P := by simp [hto] at h
  have hreturned {P : Prop} {r : WriteReturn} (h : s.ret = some r) : P := by simp [hr] at h
  cases h with
  | wasReset => exact absurd rfl hreset
  | gaveUp => exact absurd rfl hg
  | cycleStarted _ _ _ _ _ hb => simp [hbusy] at hb
  | frameEncoded _ hs => simp [hs] at hseq
  | frameTaken _ _ _ hr => exact hreturned hr
  | frameShort _ _ _ hr => exact hreturned hr
  | resetTaken _ _ _ hr => exact hreturned hr
  | resetShort _ _ _ hr => exact hreturned hr
  | cleared _ hs => simp [hs] at hseq
  | counted _ _ bound _ _ ht hlt => exact hnotElapsed (by simpa [timeoutElapsed, ht] using hlt)
  | accepted _ _ _ _ _ _ _ ht => exact hnotElapsed ht
  | wasCut _ _ _ _ _ ht => exact hnotElapsed ht
  | completed b' n' _ hc' he =>
    obtain ⟨-, rfl⟩ : b = b' ∧ n = n' := by simpa [hc] using hc'
    omega
  | _ => exact ⟨hr, rfl, rfl, rfl⟩

end

/-- Settles O33: the three returning moves, each with its condition, and what else can happen to a write whose bound has
elapsed. -/
theorem writesReturnTheAcceptedCount : Obligations.WritesReturnTheAcceptedCount := by
  intro s n hr hn
  obtain ⟨b, hc⟩ := exists_currentWrite hr hn
  refine ⟨fun hm => step_complete hm hc, fun hm => ?_, fun hm => ?_, fun bound t hb hle hi hst hg hreset => ?_⟩
  · simp only [step_giveUp hm hc, timeoutElapsed_eq_true_iff]
  · simp only [step_cutShort hm hc, timeoutElapsed_eq_false_iff]
  · have hto := (timeoutElapsed_eq_true_iff s).2 ⟨bound, hb, hle⟩
    simpa using (step_effect hst).keepsElapsedWrite (by simpa using hc) (by simpa using hi) (by simpa using hto) hg
      hreset

end Sys2Proof.Machine
end

section
/-! SUPPORT. What a cycle has logged: kept by every step of a cycle, so it holds along every run of one
(spec/41_transmitter.md R111, R115). -/

namespace Sys2Proof.Machine

/-! ### Runs of a cycle -/

/-- A property that every allowed step of a cycle keeps holds along every run of it. -/
theorem CycleRun.keeps {allowed : Move → Prop} {P : State → Prop}
    (hstep : ∀ s t, busy s = true → allowed (nextMove s) → step s = .next t → P s → P t) {s t : State}
    (h : CycleRun allowed s t) : P s → P t := by
  induction h with
  | here => exact id
  | more s u t hb ha hst _ ih => exact fun hs => ih (hstep s u hb ha hst hs)

/-! ### What the log's entries are made of -/

/-- A read of `k` bytes is the beginning of a read of `n`. -/
theorem readFrame_take {s : State} {a k n : Nat} (h : k ≤ n) : (readFrame s a n).take k = readFrame s a k := by
  refine List.ext_getElem? fun i => ?_
  rw [List.getElem?_take, readFrame_getElem?, readFrame_getElem?]
  by_cases hi : i < k
  · simp [hi, hi.trans_le h]
  · simp [hi]

theorem readFrame_congr {s t : State} (hf : t.frame = s.frame) (he : t.frameEpoch = s.frameEpoch) (a n : Nat) :
    readFrame t a n = readFrame s a n := by
  simp [readFrame, frameByte, hf, he]

/-- A cycle in progress, or its end, with `L` the log at its start: the log is what the cycle has logged so far, and the
buffers hold what its writes offer. It asks of the state no more than the cycle's own steps need, so that it stands
without the rest of `Inv`. -/
structure CycleSound (L : List LogEntry) (s : State) : Prop where
  stripLength : s.strip.length = s.cfg.n
  resetBufZero : s.resetBuf = List.replicate s.cfg.resetLen 0
  /-- From the frame write on `FRAME` reads as the encoding of `STRIP`, after the cycle too. -/
  frameRead : s.seq ≠ .encode → readFrame s 0 (frameLen s) = cycleFrame s
  faultSeq : s.fault = true ↔ s.seq = .fault
  ticksDone : s.seq = .idle → s.tickcnt = 0
  log : cycleLog L s

/-- While the cycle is in progress its log depends on the sequencer's fields alone. -/
theorem cycleLog_of_keepsBlock {L : List LogEntry} {s t : State} (hk : KeepsBlock s t) (hb : busy s = true)
    (h : cycleLog L s) : cycleLog L t := by
  have hframe : frameEntry t = frameEntry s := by simp [frameEntry, cycleFrame, frameLen, hk.cfg, hk.strip]
  have hreset : resetEntry t = resetEntry s := by simp [resetEntry, resetLen, hk.cfg]
  have hlen : resetLen t = resetLen s := by simp [resetLen, hk.cfg]
  rcases (busy_eq_true_iff s).1 hb with hs | hs | hs | hs <;>
    simpa [cycleLog, hk.seq, hk.acceptLog, hk.txcnt, hframe, hreset, hlen, hs] using h

/-- The buffers and the constants stay as they are: what is left to show of the state after it. -/
theorem CycleSound.onward {L : List LogEntry} {s t : State} (h : CycleSound L s) (hcfg : t.cfg = s.cfg)
    (hstrip : t.strip = s.strip) (hbuf : t.resetBuf = s.resetBuf)
    (hframe : t.frame = s.frame ∧ t.frameEpoch = s.frameEpoch) (hs : s.seq = .encode → t.seq = .encode)
    (hfault : t.fault = true ↔ t.seq = .fault) (hticks : t.seq = .idle → t.tickcnt = 0) (hlog : cycleLog L t) :
    CycleSound L t where
  stripLength := by rw [hstrip, hcfg, h.stripLength]
  resetBufZero := by rw [hbuf, hcfg, h.resetBufZero]
  frameRead hne := by
    rw [readFrame_congr hframe.1 hframe.2, cycleFrame, frameLen, hstrip, hcfg]
    exact h.frameRead (mt hs hne)
  faultSeq := hfault
  ticksDone := hticks
  log := hlog

theorem CycleSound.of_keepsBlock {L : List LogEntry} {s t : State} (h : CycleSound L s) (hb : busy s = true)
    (hk : KeepsBlock s t) : CycleSound L t :=
  h.onward hk.cfg hk.strip hk.resetBuf ⟨hk.frame, hk.frameEpoch⟩ (by simp [hk.seq])
    (by rw [hk.fault, hk.seq, h.faultSeq]) (fun hidle => by simp [busy, ← hk.seq, hidle] at hb) (cycleLog_of_keepsBlock hk hb h.log)

/-- What ENCODE leaves is a cycle with `FRAME` filled and nothing logged yet. -/
theorem CycleSound.frameEncoded {L : List LogEntry} {s : State} (h : CycleSound L s) (hs : s.seq = .encode) :
    CycleSound L
      (beginFrameWrite { s with frame := Memory.writeBytes s.frame 0 (encodeFrame s.cfg.sym s.strip) }) where
  stripLength := h.stripLength
  resetBufZero := h.resetBufZero
  frameRead _ := readFrame_encoded h.stripLength
  faultSeq := by simpa [hs] using h.faultSeq
  ticksDone hidle := by simp at hidle
  log := by simpa [cycleLog, hs] using h.log

section
variable {L : List LogEntry} {s : State} {k : Nat}

/-- The bytes the log gets of a frame write of which `k` bytes were accepted. -/
theorem CycleSound.readFrame_eq_take (h : CycleSound L s) (hs : s.seq = .txFrame) (hk : k ≤ frameLen s) :
    readFrame s 0 k = (cycleFrame s).take k := by
  rw [← readFrame_take hk, h.frameRead (by simp [hs])]

theorem CycleSound.readFrame_eq (h : CycleSound L s) (hs : s.seq = .txFrame) :
    readFrame s 0 (frameLen s) = cycleFrame s := h.frameRead (by simp [hs])

/-- The bytes the log gets of a reset write of which `k` bytes were accepted. -/
theorem CycleSound.readResetBuf_eq (h : CycleSound L s) (hk : k ≤ resetLen s) :
    readResetBuf s 0 k = List.replicate k 0 := readResetBuf_of_zeros h.resetBufZero (by rw [Nat.zero_add]; exact hk)

end

/-- The sequencer's steps of a cycle, those that end it among them, log what R111 and R115 say. -/
theorem CycleSound.sequence {L : List LogEntry} {s t : State} (h : CycleSound L s) (he : Effect .sequence s t) :
    CycleSound L t := by
  have hlog := h.log
  have hfault := h.faultSeq
  cases he with
  | nothing => exact h
  | frameEncoded _ hs => exact h.frameEncoded hs
  | frameTaken r _ hs hr hw =>
    refine h.onward rfl rfl rfl ⟨rfl, rfl⟩ (by simp [hs]) (by simpa [hs] using hfault) (by simp) ?_
    have hbytes : readFrame s 0 r.written = cycleFrame s := hw ▸ h.readFrame_eq hs
    simp only [cycleLog, hs] at hlog
    simp [cycleLog, hlog, hbytes, frameEntry, cycleFrame, frameLen]
  | frameShort r _ hs hr hw =>
    refine h.onward rfl rfl rfl ⟨rfl, rfl⟩ (by simp [hs]) (by simp) (by simp) ?_
    simp only [cycleLog, hs] at hlog
    exact ⟨rfl, .inl ⟨rfl, hw, by simp [hlog, h.readFrame_eq_take hs hw.le, cycleFrame, frameLen]⟩⟩
  | resetTaken r _ hs hr hw =>
    refine h.onward rfl rfl rfl ⟨rfl, rfl⟩ (by simp [hs]) (by simpa [hs] using hfault) (by simp) ?_
    simp only [cycleLog, hs] at hlog
    have hbytes : readResetBuf s 0 r.written = List.replicate (resetLen s) 0 := by rw [h.readResetBuf_eq hw.le, hw]
    refine ⟨?_, hw⟩
    simp [hlog, hbytes, frameEntry, resetEntry, cycleFrame, frameLen, resetLen]
  | resetShort r _ hs hr hw =>
    refine h.onward rfl rfl rfl ⟨rfl, rfl⟩ (by simp [hs]) (by simp) (by simp) ?_
    simp only [cycleLog, hs] at hlog
    exact ⟨rfl, .inr ⟨rfl, hw, by
      simp [hlog, h.readResetBuf_eq hw.le, frameEntry, cycleFrame, frameLen, resetLen]⟩⟩
  | cleared _ hs ht =>
    refine h.onward rfl rfl rfl ⟨rfl, rfl⟩ (by simp [hs]) (by simpa [hs] using hfault) (fun _ => ht) ?_
    simp only [cycleLog, hs] at hlog
    refine ⟨?_, hlog.2, rfl, rfl⟩
    simp [hlog.1, frameEntry, resetEntry, cycleFrame, frameLen, resetLen]

/-- Every step of a cycle but reset keeps it sound, up to and with its last. -/
theorem CycleSound.step {L : List LogEntry} {s t : State} (h : CycleSound L s) (hb : busy s = true)
    (hr : nextMove s ≠ .reset) (hst : step s = .next t) : CycleSound L t := by
  by_cases hm : nextMove s = .sequence
  · exact (h.of_keepsBlock hb (keepsBlock_afterMove s)).sequence (hm ▸ step_effect hst)
  · exact h.of_keepsBlock hb (step_keepsBlock hst hb hr hm)

/-- No step of a cycle but reset writes `STRIP`. -/
theorem step_strip_of_busy {s t : State} (hb : busy s = true) (hr : nextMove s ≠ .reset) (hst : step s = .next t) :
    t.strip = s.strip := by
  by_contra hne
  rcases step_strip_cases hst hne with hm | ⟨-, hidle, -⟩
  · exact hr hm
  · simp [hb] at hidle

theorem exec_update_started {s u : State} (hs : s.seq = .idle) (hf : s.fault = false) (hi : s.inited = true)
    (h : exec .update s = .next u) : u = { s with seq := .encode, resp := none } := by
  rcases execUpdate_next h with ⟨hb, -⟩ | ⟨-, hr, -⟩ | ⟨-, -, hn, -⟩ | ⟨-, -, -, hu⟩
  · simp [busy, hs] at hb
  · simp [refusesFaulted, hs, hf] at hr
  · simp [hi] at hn
  · exact hu

/-- A cycle that has just started is sound. -/
theorem Inv.cycleSound_started {s : State} (h : Inv s) (hf : s.fault = false) :
    CycleSound s.acceptLog { s with seq := .encode, resp := none } where
  stripLength := h.stripLength
  resetBufZero := h.resetBufZero
  frameRead hne := absurd rfl hne
  faultSeq := by simp [hf]
  ticksDone hidle := by simp at hidle
  log := rfl

/-- Along every run of a cycle without a reset the cycle is sound, and `STRIP` and the constants are those of its
start. -/
theorem CycleRun.sound {s t : State} (h : CycleRun (fun m => m ≠ .reset) s t) {L : List LogEntry}
    (hs : CycleSound L s) : CycleSound L t ∧ t.strip = s.strip ∧ t.cfg = s.cfg := by
  refine h.keeps (P := fun v => CycleSound L v ∧ v.strip = s.strip ∧ v.cfg = s.cfg) ?_ ⟨hs, rfl, rfl⟩
  rintro v w hb hr hst ⟨hv, hstrip, hcfg⟩
  exact ⟨hv.step hb hr hst, (step_strip_of_busy hb hr hst).trans hstrip, (constantsNeverChange v w hst).1.trans hcfg⟩

theorem hold_eq_of_holdClear {s : State} (h : holdClear s = true) : s.hold = ⟨[], false⟩ := by
  obtain ⟨hp, hd⟩ := (holdClear_eq_true_iff s).1 h
  calc s.hold = ⟨s.hold.pending, s.hold.dirty⟩ := rfl
    _ = ⟨[], false⟩ := by rw [hp, hd]

/-- Settles O55: a cycle starts sound (`Inv.cycleSound_started`) and every step keeps it so (`CycleSound.step`); at its
end `cycleLog` is what R111 and R115 say. -/
theorem everyCycleLogsFrameResetClear : Obligations.EveryCycleLogsFrameResetClear := by
  intro s u t hinv hs hf hi hu hrun
  obtain rfl := exec_update_started hs hf hi hu
  obtain ⟨ht, hstrip, hcfg⟩ := hrun.sound (hinv.cycleSound_started hf)
  obtain ⟨-, hzero, hread, hfault, hticks, hlog⟩ := ht
  simp only [cycleFrame, frameLen, pixelBytes, hstrip, hcfg] at hread hzero
  refine ⟨hstrip, fun hidle => ?_, fun hfaulted => ?_⟩
  · simp only [cycleLog, hidle, frameEntry, resetEntry, cycleFrame, frameLen, pixelBytes, resetLen, hstrip,
      hcfg] at hlog
    obtain ⟨hlog, hcnt, hresp, hclear⟩ := hlog
    refine ⟨hlog, hcnt, hticks hidle, ?_, hresp, ?_, hzero, hread (by simp [hidle])⟩
    · simpa [hidle] using hfault
    · exact hold_eq_of_holdClear hclear
  · simp only [cycleLog, hfaulted, frameEntry, cycleFrame, frameLen, pixelBytes, resetLen, hstrip, hcfg] at hlog
    exact ⟨hfault.2 hfaulted, hlog.1, hread (by simp [hfaulted]), hlog.2⟩

end Sys2Proof.Machine
end

section
/-! SUPPORT. What INIT and SETPIX answer in each of their cases, the calls of the setter and when they return, and what
a colour string means (spec/42_host_commands.md R130 to R137). -/

namespace Sys2Proof.Machine

/-! ### INIT and SETPIX, one equation per case (R130, R131) -/

theorem refusesFaulted_eq_false {s : State} (hs : s.seq = .idle) (hf : s.fault = false) :
    refusesFaulted s = false := by
  simp [refusesFaulted, hs, hf]

/-- After a fault a command is answered with `Faulted`, whatever it is (R175). -/
theorem exec_faulted {w : CmdWord} {i : Instr} {s : State} (hd : decodeCmd48 w = .ok i) (hb : busy s = false)
    (hf : refusesFaulted s = true) : exec i s = .next (respond .faulted s) := by
  obtain ⟨k, hk⟩ := exec_eq_commandGate hd
  rw [hk, commandGate_faulted w k hb hf]

section
variable {s : State} (hb : busy s = false) (hf : refusesFaulted s = false)
include hb hf

theorem exec_init_accepted (hi : s.inited = false) : exec .init s = .next (respond .ok (initialise s)) := by
  simp [exec, execInit, commandGate_open hb hf, hi]

theorem exec_init_again (hi : s.inited = true) : exec .init s = .next (respond .alreadyInitialised s) := by
  simp [exec, execInit, commandGate_open hb hf, hi]

theorem exec_setpix_accepted {pos : Pos} (color : Colour) (hn : pos.toNat < s.cfg.n)
    (hl : pos.toNat < s.strip.length) : exec (.setpix pos color) s =
      .next (respond .ok { s with strip := s.strip.set pos.toNat (pixelOf color) }) := by
  have hle : ¬ s.cfg.n ≤ stripIndex pos := Nat.not_le.2 hn
  have hw : memWriteStrip (stripIndex pos) color s = _ := memWriteStrip_of_lt color hl
  simp only [exec, execSetpix, commandGate_open hb hf, if_neg hle, hw]
  rfl

end

/-- Settles O16: the cases of INIT at the port's gate, in their order. -/
theorem initInitialises : Obligations.InitInitialises := by
  refine ⟨fun s hs hf hi => ?_, fun s hs hf => ?_, fun s hs hf hi => ?_⟩
  · exact ⟨_, exec_init_accepted (busy_eq_false (.inl hs)) (refusesFaulted_eq_false hs hf) hi, rfl⟩
  · exact exec_faulted (Laws.RoundTrip.init rfl) (busy_eq_false (.inl hs)) ((refusesFaulted_iff s).2 (.inl hf))
  · exact exec_init_again (busy_eq_false (.inl hs)) (refusesFaulted_eq_false hs hf) hi

/-- Settles O17: the cases of SETPIX at the port's gate; within the strip `MemWrite` has a meaning. -/
theorem setpixWritesOnePixel : Obligations.SetpixWritesOnePixel := by
  refine ⟨fun s pos color hs hf hn hl => ?_, fun s pos color hs hf => ?_, fun s pos color hs hf hn => ?_⟩
  · exact exec_setpix_accepted (busy_eq_false (.inl hs)) (refusesFaulted_eq_false hs hf) color hn (hl.symm ▸ hn)
  · exact exec_faulted (Laws.RoundTrip.setpix pos color rfl) (busy_eq_false (.inl hs))
      ((refusesFaulted_iff s).2 (.inl hf))
  · exact exec_setpix_outOfRange color (busy_eq_false (.inl hs)) (refusesFaulted_eq_false hs hf) hn

/-! ### The calls of the setter (R132, R135 to R137) -/

theorem posValid_iff (n : Nat) (pos : Int) : posValid n pos = true ↔ 0 ≤ pos ∧ pos < (n : Int) := by
  simp [posValid]

/-- A call that has a meaning is recorded, and its words wait at the port. -/
theorem step_set {s : State} {pos : Option Int} {hex : List Char} {o : SetOutcome} (hm : nextMove s = .set pos hex)
    (ho : setOutcome s.cfg.n pos hex = some o) : step s = .next (recordCall o (afterMove s)) := by
  simp [step, hm, runMove, callSetter, ho]

section
variable {n : Nat} {pos : Option Int} {hex : List Char}

theorem setOutcome_badPosition (h : ¬ (0 ≤ pos.getD 0 ∧ pos.getD 0 < (n : Int))) :
    setOutcome n pos hex = some .badPosition := if_neg (mt (posValid_iff n _).1 h)

theorem setOutcome_badColour (h : 0 ≤ pos.getD 0 ∧ pos.getD 0 < (n : Int)) (hc : parseColour hex = .reject) :
    setOutcome n pos hex = some .badColour := by
  simp [setOutcome, (posValid_iff n _).2 h, hc]

theorem setOutcome_issued {color : Colour} (h : 0 ≤ pos.getD 0 ∧ pos.getD 0 < (n : Int))
    (hc : parseColour hex = .value color) :
    setOutcome n pos hex = some (.issued (BitVec.ofNat 16 (pos.getD 0).toNat) color) := by
  simp [setOutcome, (posValid_iff n _).2 h, hc]

end

/-- A validation error issues no word and draws no free value: the call alone is new. -/
theorem recordCall_of_no_words {o : SetOutcome} (s : State) (hw : setWords o = []) (hd : setDraws o = 0) :
    recordCall o s = { s with setter := s.setter ++ [setCall o s] } := by
  simp [recordCall, hw, hd]

/-! ### What a recorded call has returned (R132) -/

theorem setStatus_of_status {c : SetCall} {v : Nat} (s : State) (h : c.status = some v) :
    setStatus c s = some v := by
  simp [setStatus, h]

theorem setStatus_of_ahead {c : SetCall} (s : State) (h : c.status = none) (ha : 0 < c.ahead) :
    setStatus c s = none := by
  simp [setStatus, h, ha.ne']

theorem setStatus_of_taken {c : SetCall} (s : State) (h : c.status = none) (ha : c.ahead = 0) :
    setStatus c s = updateStatus c.draw s.resp := by
  simp [setStatus, h, ha]

/-- While there is no response nothing follows from `RESP`: what a call has returned is what it keeps. -/
theorem setStatus_of_no_response (c : SetCall) {s : State} (h : s.resp = none) : setStatus c s = c.status := by
  cases hc : c.status <;> simp [setStatus, updateStatus, hc, h]

theorem setStatus_congr (c : SetCall) {s t : State} (h : t.resp = s.resp) : setStatus c t = setStatus c s := by
  simp [setStatus, h]

theorem updateStatus_eq_none_iff (draw : Nat) (r : Option Resp) : updateStatus draw r = none ↔ r = none := by
  cases r with
  | none => simp [updateStatus]
  | some r => by_cases hr : r = .transmissionFault <;> simp [updateStatus, hr]

/-- A refresh that ends well makes SET return 0, one that ends in a Transmission fault another value. -/
theorem updateStatus_eq_zero {draw v : Nat} {r : Resp} (hr : r ≠ .transmissionFault)
    (h : updateStatus draw (some r) = some v) : v = 0 := by
  simpa [updateStatus, hr, eq_comm] using h

theorem updateStatus_ne_zero {draw v : Nat} (h : updateStatus draw (some .transmissionFault) = some v) : v ≠ 0 := by
  obtain rfl : Config.freeSetStatus draw + 1 = v := by simpa [updateStatus] using h
  exact Nat.succ_ne_zero _

/-- A call has returned as soon as `RESP` says how its UPDATE ended. -/
theorem setStatus_eq_none_iff_resp {c : SetCall} {s : State} (h : c.status = none) :
    setStatus c s = none ↔ 0 < c.ahead ∨ s.resp = none := by
  rcases Nat.eq_zero_or_pos c.ahead with ha | ha
  · rw [setStatus_of_taken s h ha, updateStatus_eq_none_iff]; simp [ha]
  · simp [setStatus_of_ahead s h ha, ha]

theorem status_eq_none {c : SetCall} {s : State} (h : setStatus c s = none) : c.status = none := by
  cases hc : c.status with
  | none => rfl
  | some v => simp [setStatus_of_status s hc] at h

/-- In states of the invariant a call whose UPDATE is taken has returned as soon as no cycle runs. -/
theorem Inv.setStatus_eq_none_iff {c : SetCall} {s : State} (hi : Inv s) (hc : c ∈ s.setter) (h : c.status = none) :
    setStatus c s = none ↔ 0 < c.ahead ∨ busy s = true := by
  rw [setStatus_eq_none_iff_resp h]
  obtain ⟨-, hresp⟩ := hi.callsWait c hc h
  have hbusy : busy s = true → s.resp = none := hi.noEarlyResponse
  cases hb : busy s with
  | true => simp [hbusy hb]
  | false =>
    rcases Nat.eq_zero_or_pos c.ahead with ha | ha
    · simp [ha, hresp ha hb]
    · simp [ha]

/-! ### What a step does to the calls -/

/-- The sequencer's move ends the refresh of `s`, well or in the fault. -/
def EndsRefresh (m : Move) (s t : State) : Prop :=
  m = .sequence ∧
    ((s.seq = .settle ∧ t.seq = .idle ∧ t.resp = some .ok) ∨
     ((s.seq = .txFrame ∨ s.seq = .txReset) ∧ t.seq = .fault ∧ t.resp = some .transmissionFault))

theorem EndsRefresh.busy {m : Move} {s t : State} (h : EndsRefresh m s t) : busy s = true := by
  obtain ⟨-, ⟨hs, -⟩ | ⟨hs, -⟩⟩ := h
  · exact (busy_eq_true_iff s).2 (.inr (.inr (.inr hs)))
  · exact (busy_eq_true_iff s).2 (.inr (hs.imp_right .inl))

/-- Reset apart, a move leaves the calls that are recorded as they are, and gives a response only when it ends a
refresh; or it is the port's, outside a cycle, and each call notes that a word is taken. -/
theorem Effect.setter_cases {m : Move} {s t : State} (h : Effect m s t) (hr : m ≠ .reset) :
    (∃ added, t.setter = s.setter ++ added) ∧ (t.resp = s.resp ∨ EndsRefresh m s t) ∨
    (m = .command ∧ busy s = false ∧ t.setter = s.setter.map (wordTaken s)) := by
  have hsame {u : State} (hu : u.setter = s.setter) : ∃ added, u.setter = s.setter ++ added := ⟨[], by simp [hu]⟩
  cases h with
  | wasReset => exact absurd rfl hr
  | setCalled _ _ o => exact .inl ⟨⟨_, rfl⟩, .inl rfl⟩
  | refused _ _ _ _ _ hb => exact .inr ⟨rfl, hb, by simp [hb]⟩
  | initialised _ _ _ _ _ hb => exact .inr ⟨rfl, hb, by simp [hb]⟩
  | pixelWritten _ _ _ _ _ _ _ hb => exact .inr ⟨rfl, hb, by simp [hb]⟩
  | cycleStarted _ _ _ _ _ hb => exact .inr ⟨rfl, hb, by simp [hb]⟩
  | frameShort _ _ hs => exact .inl ⟨hsame rfl, .inr ⟨rfl, .inr ⟨.inl hs, rfl, rfl⟩⟩⟩
  | resetShort _ _ hs => exact .inl ⟨hsame rfl, .inr ⟨rfl, .inr ⟨.inr hs, rfl, rfl⟩⟩⟩
  | cleared _ hs => exact .inl ⟨hsame rfl, .inr ⟨rfl, .inl ⟨hs, rfl, rfl⟩⟩⟩
  | _ => exact .inl ⟨hsame rfl, .inl rfl⟩

theorem wordTaken_congr {s t : State} (h : t.resp = s.resp) (c : SetCall) : wordTaken t c = wordTaken s c := by
  simp [wordTaken, setStatus_congr c h]

theorem endsRefresh_afterMove {m : Move} {s t : State} : EndsRefresh m (afterMove s) t ↔ EndsRefresh m s t := by
  simp [EndsRefresh]

theorem step_setter_cases {s t : State} (h : step s = .next t) (hr : nextMove s ≠ .reset) :
    (∃ added, t.setter = s.setter ++ added) ∧ (t.resp = s.resp ∨ EndsRefresh (nextMove s) s t) ∨
    (nextMove s = .command ∧ busy s = false ∧ t.setter = s.setter.map (wordTaken s)) := by
  have hw : wordTaken (afterMove s) = wordTaken s := funext (wordTaken_congr (afterMove_resp s))
  simpa [endsRefresh_afterMove, busy_afterMove, hw] using (step_effect h).setter_cases hr

@[simp] theorem wordTaken_outcome (s : State) (c : SetCall) : (wordTaken s c).outcome = c.outcome := by
  unfold wordTaken; split <;> rfl

/-- What a call has returned it keeps when a word is taken, whatever `RESP` is then. -/
theorem setStatus_wordTaken {c : SetCall} {s : State} {v : Nat} (h : setStatus c s = some v) (t : State) :
    setStatus (wordTaken s c) t = some v := by
  unfold wordTaken
  split
  · exact setStatus_of_status t h
  · rename_i ha
    cases hc : c.status with
    | none => simp [setStatus_of_ahead s hc (Nat.pos_of_ne_zero ha)] at h
    | some w => exact setStatus_of_status t ((setStatus_of_status s hc).symm.trans h)

/-- Outside a cycle the port takes UPDATE: the cycle starts and there is no response, or UPDATE is refused. -/
theorem step_command_update {s t : State} {rest : List CmdWord} (hm : nextMove s = .command)
    (hp : s.port = cmdWordOf 0x03 0 0 :: rest) (hb : busy s = false) (h : step s = .next t) :
    t.resp = none ∨ (t.seq = s.seq ∧ (t.resp = some .faulted ∨ t.resp = some .notInitialised)) := by
  rw [step_command_ok hm hp (Laws.RoundTrip.update rfl)] at h
  rcases execUpdate_next h with ⟨hbusy, -⟩ | ⟨-, -, rfl⟩ | ⟨-, -, -, rfl⟩ | ⟨-, -, -, rfl⟩
  · simp [busy_afterMove, hb] at hbusy
  · exact .inr ⟨by simp, .inl rfl⟩
  · exact .inr ⟨by simp, .inr rfl⟩
  · exact .inl rfl

/-! ### When a call returns (R132) -/

/-- The step from `s` to `t` answers an UPDATE, so that SET returns `v`: it completes the refresh, it enters the fault,
or it refuses the UPDATE. -/
def AnswersUpdate (s t : State) (v : Nat) : Prop :=
  (nextMove s = .sequence ∧ s.seq = .settle ∧ t.seq = .idle ∧ t.resp = some .ok ∧ v = 0) ∨
  (nextMove s = .sequence ∧ (s.seq = .txFrame ∨ s.seq = .txReset) ∧ t.seq = .fault ∧
    t.resp = some .transmissionFault ∧ v ≠ 0) ∨
  (nextMove s = .command ∧ s.port.head? = some (cmdWordOf 0x03 0 0) ∧ t.seq = s.seq ∧
    (t.resp = some .faulted ∨ t.resp = some .notInitialised) ∧ v = 0)

/-- A call that returns while it stays as it is recorded returns by the end of its refresh. -/
theorem answersUpdate_of_endsRefresh {s t : State} {c : SetCall} {v : Nat} (h : EndsRefresh (nextMove s) s t)
    (hc : c.status = none) (hv : setStatus c t = some v) : AnswersUpdate s t v := by
  have ha : c.ahead = 0 := by
    by_contra ha
    simp [setStatus_of_ahead t hc (Nat.pos_of_ne_zero ha)] at hv
  rw [setStatus_of_taken t hc ha] at hv
  obtain ⟨hm, ⟨hs, ht, hresp⟩ | ⟨hs, ht, hresp⟩⟩ := h <;> rw [hresp] at hv
  · exact .inl ⟨hm, hs, ht, hresp, updateStatus_eq_zero (by decide) hv⟩
  · exact .inr (.inl ⟨hm, hs, ht, hresp, updateStatus_ne_zero hv⟩)

/-- A call that returns when a word is taken waited for that word: it is its UPDATE, and it is refused. -/
theorem answersUpdate_of_wordTaken {s t : State} {c : SetCall} {v : Nat} (hi : Inv s) (h : step s = .next t)
    (hm : nextMove s = .command) (hb : busy s = false) (hmem : c ∈ s.setter) (hn : setStatus c s = none)
    (hv : setStatus (wordTaken s c) t = some v) : AnswersUpdate s t v := by
  have hc : c.status = none := status_eq_none hn
  have ha : 0 < c.ahead := by simpa [hb] using (hi.setStatus_eq_none_iff hmem hc).1 hn
  have hw : wordTaken s c = { c with ahead := c.ahead - 1 } := if_neg ha.ne'
  rw [hw] at hv
  have hone : c.ahead - 1 = 0 := by
    by_contra hne
    simp [setStatus_of_ahead (c := { c with ahead := c.ahead - 1 }) t hc (Nat.pos_of_ne_zero hne)] at hv
  rw [setStatus_of_taken (c := { c with ahead := c.ahead - 1 }) t hc hone] at hv
  have hhead : s.port.head? = some (cmdWordOf 0x03 0 0) := by
    rw [List.head?_eq_getElem?, ← hone]
    exact (hi.callsWait c hmem hc).1 ha
  obtain ⟨rest, hp⟩ := List.head?_eq_some_iff.1 hhead
  rcases step_command_update hm hp hb h with hresp | ⟨hseq, hresp⟩
  · simp [hresp, updateStatus] at hv
  · refine .inr (.inr ⟨hm, hhead, hseq, hresp, ?_⟩)
    rcases hresp with hresp | hresp <;> rw [hresp] at hv <;> exact updateStatus_eq_zero (by decide) hv

/-- A recorded call stays recorded, it keeps what it has returned, and it returns by a step that answers its UPDATE. -/
theorem Inv.step_call {s t : State} {i : Nat} {c : SetCall} (hi : Inv s) (h : step s = .next t)
    (hr : nextMove s ≠ .reset) (hc : s.setter[i]? = some c) :
    ∃ d, t.setter[i]? = some d ∧ d.outcome = c.outcome ∧
      (∀ v, setStatus c s = some v → setStatus d t = some v) ∧
      (∀ v, setStatus c s = none → setStatus d t = some v → AnswersUpdate s t v) := by
  rcases step_setter_cases h hr with ⟨⟨added, hset⟩, hresp⟩ | ⟨hm, hb, hset⟩
  · have hlt := (List.getElem?_eq_some_iff.1 hc).1
    refine ⟨c, by rw [hset, List.getElem?_append_left hlt, hc], rfl, fun v hv => ?_, fun v hn hv => ?_⟩
    · rcases hresp with hresp | hends
      · rwa [setStatus_congr c hresp]
      · rw [setStatus_of_no_response c (hi.noEarlyResponse hends.busy)] at hv
        exact setStatus_of_status t hv
    · rcases hresp with hresp | hends
      · rw [setStatus_congr c hresp, hn] at hv; cases hv
      · exact answersUpdate_of_endsRefresh hends (status_eq_none hn) hv
  · refine ⟨wordTaken s c, by rw [hset, List.getElem?_map, hc]; rfl, wordTaken_outcome s c,
      fun v hv => setStatus_wordTaken hv t, fun v hn hv => ?_⟩
    exact answersUpdate_of_wordTaken hi h hm hb (List.mem_of_getElem? hc) hn hv

/-- Settles O59: the three outcomes of the validation (`setOutcome`), each recorded by `step_set`; then `Inv.step_call`
for the calls recorded before, and `Inv.setStatus_eq_none_iff` for those that have not returned. -/
theorem setterValidatesAndIssues : Obligations.SetterValidatesAndIssues := by
  refine ⟨posValid_iff, fun s pos hex hm => ⟨fun hpos => ?_, fun h0 hn hc => ?_, fun color h0 hn hc => ?_⟩,
    fun s t i c hi hst hr hc => hi.step_call hst hr hc, fun s c hi => hi.setStatus_eq_none_iff⟩
  · refine ⟨setCall .badPosition (afterMove s), ?_, rfl, fun t => setStatus_of_status t rfl⟩
    rw [step_set hm (setOutcome_badPosition hpos), recordCall_of_no_words _ rfl rfl, afterMove_setter]
  · refine ⟨setCall .badColour (afterMove s), ?_, rfl, fun t => setStatus_of_status t rfl⟩
    rw [step_set hm (setOutcome_badColour ⟨h0, hn⟩ hc), recordCall_of_no_words _ rfl rfl, afterMove_setter]
  · refine ⟨setCall (.issued _ color) (afterMove s), ?_, rfl, fun t => setStatus_of_ahead t rfl (Nat.succ_pos _)⟩
    rw [step_set hm (setOutcome_issued ⟨h0, hn⟩ hc), recordCall, afterMove_setter, afterMove_port]
    rfl

/-! ### The hexadecimal digits (R134) -/

/-- The digits in the order of their values, the letters in lower case. -/
def lowerDigits : List Char := ['0', '1', '2', '3', '4', '5', '6', '7', '8', '9', 'a', 'b', 'c', 'd', 'e', 'f']

/-- The digits in the order of their values, the letters in upper case. -/
def upperDigits : List Char := ['0', '1', '2', '3', '4', '5', '6', '7', '8', '9', 'A', 'B', 'C', 'D', 'E', 'F']

theorem hexDigit_lowerDigits : ∀ d (h : d < lowerDigits.length), hexDigit lowerDigits[d] = some d := by decide

theorem hexDigit_upperDigits : ∀ d (h : d < upperDigits.length), hexDigit upperDigits[d] = some d := by decide

/-- A digit stands in the list at its value: the three ranges of code points, each finite. -/
theorem getElem?_digits_of_hexDigit {c : Char} {d : Nat} (h : hexDigit c = some d) :
    lowerDigits[d]? = some c ∨ upperDigits[d]? = some c := by
  have hdec : ∀ k < 10, lowerDigits[k]? = some (Char.ofNat (48 + k)) := by decide
  have hlow : ∀ k < 6, lowerDigits[10 + k]? = some (Char.ofNat (97 + k)) := by decide
  have hupp : ∀ k < 6, upperDigits[10 + k]? = some (Char.ofNat (65 + k)) := by decide
  have hchar {base k : Nat} (hk : c.toNat = base + k) : Char.ofNat (base + k) = c := by
    rw [← hk, Char.ofNat_toNat]
  unfold hexDigit at h
  split_ifs at h with h0 ha hA <;> obtain rfl := Option.some.inj h
  · have hlo : 48 ≤ c.toNat := h0.1
    have hhi : c.toNat ≤ 57 := h0.2
    left
    rw [hdec _ (by omega), hchar (by omega)]
  · have hlo : 97 ≤ c.toNat := ha.1
    have hhi : c.toNat ≤ 102 := ha.2
    left
    rw [show c.toNat - 87 = 10 + (c.toNat - 97) by omega, hlow _ (by omega), hchar (by omega)]
  · have hlo : 65 ≤ c.toNat := hA.1
    have hhi : c.toNat ≤ 70 := hA.2
    right
    rw [show c.toNat - 55 = 10 + (c.toNat - 65) by omega, hupp _ (by omega), hchar (by omega)]

theorem hexDigit_eq_some_iff (c : Char) (d : Nat) :
    hexDigit c = some d ↔ lowerDigits[d]? = some c ∨ upperDigits[d]? = some c := by
  refine ⟨getElem?_digits_of_hexDigit, ?_⟩
  rintro (h | h) <;> obtain ⟨hd, rfl⟩ := List.getElem?_eq_some_iff.1 h
  · exact hexDigit_lowerDigits d hd
  · exact hexDigit_upperDigits d hd

/-! ### Colour strings (R134) -/

/-- White space is no digit. -/
theorem isWhitespace_of_digit {c : Char} (h : (hexDigit c).isSome = true) : c.isWhitespace = false := by
  refine Bool.eq_false_iff.2 fun hw => ?_
  have hc : c = ' ' ∨ c = '\t' ∨ c = '\r' ∨ c = '\n' := by
    simpa [Char.isWhitespace, or_assoc] using hw
  rcases hc with rfl | rfl | rfl | rfl <;> exact absurd h (by decide)

/-- A string that begins with a digit, and not with `0x`, has a settled beginning. -/
theorem unsettledStart_of_digit {c : Char} {cs : List Char} (h : (hexDigit c).isSome = true)
    (hx : ¬ (c = '0' ∧ cs.head? = some 'x')) : unsettledStart (c :: cs) = false := by
  unfold unsettledStart
  split
  next he => cases he
  next he => cases he; exact absurd h (by decide)
  next he => cases he; exact absurd h (by decide)
  next he => cases he; exact absurd ⟨rfl, rfl⟩ hx
  next he => cases he; exact isWhitespace_of_digit h

theorem unsettledStart_of_whitespace {c : Char} (cs : List Char) (h : c.isWhitespace = true) :
    unsettledStart (c :: cs) = true := by
  unfold unsettledStart
  split
  next he => cases he
  next => rfl
  next => rfl
  next => rfl
  next he => cases he; exact h

theorem hexValue_cons (acc : Nat) {c : Char} (cs : List Char) {d : Nat} (h : hexDigit c = some d) :
    hexValue acc (c :: cs) = hexValue (16 * acc + d) cs := by
  simp [hexValue, h]

/-- Leading digits are gathered, most significant first. -/
theorem hexValue_append (acc : Nat) {digits : List Char} (rest : List Char)
    (h : ∀ c ∈ digits, (hexDigit c).isSome = true) : hexValue acc (digits ++ rest) =
      hexValue (digits.foldl (fun acc c => 16 * acc + (hexDigit c).getD 0) acc) rest := by
  induction digits generalizing acc with
  | nil => rfl
  | cons c cs ih =>
    obtain ⟨hc, hcs⟩ := List.forall_mem_cons.1 h
    obtain ⟨d, hd⟩ := Option.isSome_iff_exists.1 hc
    rw [List.cons_append, hexValue_cons acc _ hd, ih _ hcs, List.foldl_cons, hd, Option.getD_some]

theorem hexValue_digits (acc : Nat) {hex : List Char} (h : ∀ c ∈ hex, (hexDigit c).isSome = true) :
    hexValue acc hex = some (hex.foldl (fun acc c => 16 * acc + (hexDigit c).getD 0) acc) := by
  simpa [hexValue] using hexValue_append acc [] h

theorem hexValue_nondigit (acc : Nat) {digits rest : List Char} {c : Char}
    (h : ∀ d ∈ digits, (hexDigit d).isSome = true) (hc : hexDigit c = none) :
    hexValue acc (digits ++ c :: rest) = none := by
  rw [hexValue_append acc _ h]
  simp [hexValue, hc]

/-- Leading digits, at least one, are a settled beginning unless `0x` is read. -/
theorem unsettledStart_digits_append {digits rest : List Char} (hne : digits ≠ [])
    (h : ∀ d ∈ digits, (hexDigit d).isSome = true) (hx : ¬ (digits = ['0'] ∧ rest.head? = some 'x')) :
    unsettledStart (digits ++ rest) = false := by
  obtain ⟨c, cs, rfl⟩ := List.exists_cons_of_ne_nil hne
  refine unsettledStart_of_digit (h c (by simp)) ?_
  rintro ⟨rfl, hhead⟩
  cases cs with
  | nil => exact hx ⟨rfl, hhead⟩
  | cons d ds =>
    obtain rfl : d = 'x' := by simpa using hhead
    exact absurd (h 'x' (by simp)) (by decide)

/-- A string of digits means its number when it has six of them at most. -/
theorem parseColour_digits {hex : List Char} (hne : hex ≠ []) (h : ∀ c ∈ hex, (hexDigit c).isSome = true) :
    parseColour hex = if hex.length ≤ 6 then
      .value (BitVec.ofNat 24 (hex.foldl (fun acc c => 16 * acc + (hexDigit c).getD 0) 0)) else .noMeaning := by
  have hstart : unsettledStart hex = false := by
    simpa using unsettledStart_digits_append (rest := []) hne h (by simp)
  simp [parseColour, hstart, hexValue_digits 0 h]

theorem parseColour_nondigit {digits rest : List Char} {c : Char} (hne : digits ≠ [])
    (h : ∀ d ∈ digits, (hexDigit d).isSome = true) (hc : hexDigit c = none) (hx : ¬ (digits = ['0'] ∧ c = 'x')) :
    parseColour (digits ++ c :: rest) = .reject := by
  have hstart := unsettledStart_digits_append (rest := c :: rest) hne h (by simpa using hx)
  simp [parseColour, hstart, hexValue_nondigit 0 h hc]

theorem parseColour_unsettled {hex : List Char} (h : unsettledStart hex = true) : parseColour hex = .noMeaning :=
  if_pos h

/-- Settles O60: `hexDigit_eq_some_iff` for the digits, and the three ways of `parseColour`: digits alone, digits before
another character, an unsettled beginning. -/
theorem colourParsing : Obligations.ColourParsing := by
  refine ⟨hexDigit_eq_some_iff, fun hex hne hlen h => ?_, fun digits rest c hne h hc hx => ?_, fun hex hlen h => ?_,
    fun rest => ⟨?_, ?_, ?_, fun c hw => ?_, ?_⟩⟩
  · rw [parseColour_digits hne h, if_pos hlen]
  · exact parseColour_nondigit hne h hc hx
  · rw [parseColour_digits (List.ne_nil_of_length_pos (by omega)) h, if_neg (by omega)]
  · exact parseColour_unsettled rfl
  · exact parseColour_unsettled rfl
  · exact parseColour_unsettled rfl
  · exact parseColour_unsettled (unsettledStart_of_whitespace rest hw)
  · exact parseColour_unsettled rfl

end Sys2Proof.Machine
end

section
/-! SUPPORT. What a cycle puts on the wire: as long as no wire-level fault is added, every step of a cycle in which no
write returns short keeps the bytes sent and pending the accepted ones, and the levels of such a wire
(spec/43_peripheral_and_wire.md R151 to R156, R160). -/

namespace Sys2Proof.Machine

/-! ### What a cycle has accepted -/

@[simp] theorem cycleFrame_acceptByte (v : Byte) (s : State) : cycleFrame (acceptByte v s) = cycleFrame s := rfl
@[simp] theorem cycleFrame_returnWrite (r : WriteReturn) (s : State) :
    cycleFrame (returnWrite r s) = cycleFrame s := rfl

theorem CycleSound.cycleFrame_length {L : List LogEntry} {s : State} (h : CycleSound L s) :
    (cycleFrame s).length = frameLen s := by
  simp [cycleFrame, frameLen, pixelBytes, h.stripLength]

section
variable {L : List LogEntry} {s : State} {b : BufId} {n : Nat}

/-- The byte the acceptor takes is the next of the frame, or of the zeros. -/
theorem CycleSound.acceptedInCycle_acceptByte {v : Byte} (h : CycleSound L s) (hc : currentWrite s = some (b, n))
    (hi : s.txidx < n) (hv : offeredByte s b s.txidx = some v) :
    acceptedInCycle (acceptByte v s) = acceptedInCycle s ++ [v] := by
  obtain ⟨hr, ⟨hs, rfl, rfl⟩ | ⟨hs, rfl, rfl⟩⟩ := currentWrite_cases hc
  · have hbyte : (cycleFrame s)[s.txidx]? = some v := by
      rw [← h.frameRead (by simp [hs]), readFrame_getElem?, if_pos hi, Nat.zero_add]
      exact hv
    simp [acceptedInCycle, acceptedCount, hs, hr, List.take_add_one, hbyte]
  · obtain rfl : 0 = v := by
      have hlt : s.txidx < s.cfg.resetLen := hi
      simpa only [offeredByte, h.resetBufZero, List.getElem?_replicate, if_pos hlt, Option.some.injEq] using hv
    simp [acceptedInCycle, acceptedCount, hs, hr, List.replicate_succ']

/-- A write that returns its full length returns what was accepted of it. -/
theorem acceptedInCycle_returnWrite (hc : currentWrite s = some (b, n)) (hi : s.txidx = n) :
    acceptedInCycle (returnWrite ⟨n, false⟩ s) = acceptedInCycle s := by
  obtain ⟨hr, hw⟩ := currentWrite_cases hc
  rcases hw with ⟨hs, -⟩ | ⟨hs, -⟩ <;> simp [acceptedInCycle, acceptedCount, hs, hr, hi]

theorem fullReturn_returnWrite (hc : currentWrite s = some (b, n)) : fullReturn (returnWrite ⟨n, false⟩ s) := by
  rintro r ⟨⟩
  obtain ⟨-, ⟨hs, -, rfl⟩ | ⟨hs, -, rfl⟩⟩ := currentWrite_cases hc
  · exact ⟨fun _ => rfl, fun hs' => by simp [hs] at hs'⟩
  · exact ⟨fun hs' => by simp [hs] at hs', fun _ => rfl⟩

/-- Where a gap is no underrun, no byte of the frame is accepted yet, or every byte is. -/
theorem CycleSound.accepted_none_or_frame (h : CycleSound L s) (hb : busy s = true) (hf : fullReturn s)
    (hg : gapUnderruns s = false) :
    (acceptedInCycle s).length = 0 ∨ frameLen s ≤ (acceptedInCycle s).length := by
  have hlen := h.cycleFrame_length
  rcases (busy_eq_true_iff s).1 hb with hs | hs | hs | hs
  · exact .inl (by simp [acceptedInCycle, hs])
  · simp only [acceptedInCycle, hs, List.length_take, hlen]
    cases hr : s.ret with
    | some r =>
      have hfull : r.written = frameLen s := (hf r hr).1 hs
      exact .inr (by simp [acceptedCount, hr, hfull])
    | none =>
      have hout : 0 < s.txidx → frameLen s ≤ s.txidx := by simpa [gapUnderruns, hs, hr] using hg
      simp only [acceptedCount, hr]
      omega
  · exact .inr (by simp [acceptedInCycle, hs, hlen])
  · exact .inr (by simp [acceptedInCycle, hs, hlen])

end

/-! ### Every step of a cycle keeps its wire -/

section
variable {W : List WireEvent} {F : List WireFault} {s t : State}

/-- What a change must do to keep `cycleWire`: with `bs` the bytes sent so far, those it sends and those it leaves
pending are the accepted ones, and a gap it adds is not inside the frame; a wire-level fault excuses it. -/
theorem cycleWire.onward (h : cycleWire W F s) (es : List WireEvent) (gs : List WireFault)
    (hwire : t.wire = s.wire ++ es) (hfaults : t.wireFaults = s.wireFaults ++ gs) (hcfg : t.cfg = s.cfg)
    (hfull : fullReturn t)
    (hsent : gs = [] → ∀ bs, bs ++ s.hold.pending = acceptedInCycle s →
      bs ++ wireBytes es ++ t.hold.pending = acceptedInCycle t ∧ gapFree (frameLen s) bs.length es = true) :
    cycleWire W F t := by
  obtain ⟨-, ws, fs, hws, hfs, hclean⟩ := h
  refine ⟨hfull, ws ++ es, fs ++ gs, by rw [hwire, hws, List.append_assoc], by rw [hfaults, hfs, List.append_assoc],
    fun hnone => ?_⟩
  obtain ⟨hfs, hgs⟩ := List.append_eq_nil_iff.1 hnone
  obtain ⟨hbytes, hgaps⟩ := hclean hfs
  obtain ⟨hsent, hgap⟩ := hsent hgs _ hbytes
  have hlen : frameLen t = frameLen s := by simp [frameLen, hcfg]
  refine ⟨by rwa [wireBytes_append], ?_⟩
  rw [hlen, gapFree_append, hgaps, Nat.zero_add, hgap]
  rfl

/-- A change that puts nothing on the wire and leaves `HOLD` and the accepted bytes as they are. -/
theorem cycleWire.silent (h : cycleWire W F s) (hwire : t.wire = s.wire) (hfaults : t.wireFaults = s.wireFaults)
    (hcfg : t.cfg = s.cfg) (hfull : fullReturn t) (hhold : t.hold.pending = s.hold.pending)
    (hacc : acceptedInCycle t = acceptedInCycle s) : cycleWire W F t :=
  h.onward [] [] (by simp [hwire]) (by simp [hfaults]) hcfg hfull fun _ bs hbs =>
    ⟨by simpa [wireBytes, hhold, hacc], rfl⟩

end

/-- A cycle in progress, or its end, with `W` and `F` the wire and its faults at its start. It asks of the state no more
than the cycle's own steps need beside `CycleSound`. -/
structure WireSound (W : List WireEvent) (F : List WireFault) (s : State) : Prop where
  wire : cycleWire W F s
  /-- What is sent has a definite value (R159). -/
  meaning : s.staleCycle = false
  /-- The frame write begins with nothing accepted and `HOLD` clear (R159). -/
  beforeWrite : s.seq = .encode → s.ret = none ∧ s.txidx = 0 ∧ holdClear s = true
  /-- A write that has returned leaves nothing counted for the next (R28). -/
  returned : s.ret ≠ none → s.txidx = 0

section
variable {L : List LogEntry} {W : List WireEvent} {F : List WireFault} {s t : State}

theorem WireSound.afterMove (h : WireSound W F s) : WireSound W F (afterMove s) where
  wire := (cycleWire_afterMove W F s).2 h.wire
  meaning := by simpa using h.meaning
  beforeWrite := by simpa [holdClear_afterMove] using h.beforeWrite
  returned := by simpa using h.returned

theorem WireSound.wireHasMeaning (h : WireSound W F s) : wireHasMeaning s :=
  ⟨h.meaning, fun hs => ((holdClear_eq_true_iff s).1 (h.beforeWrite hs).2.2).1⟩

theorem fullReturn_of_ret_none (hr : s.ret = none) : fullReturn s := fun r h => by simp [hr] at h

theorem beginFrameWrite_of_holdClear (h : holdClear s = true) : beginFrameWrite s = { s with seq := .txFrame } := by
  simp [beginFrameWrite, h]

/-- ENCODE sends nothing: the frame write begins with `HOLD` clear and nothing accepted. -/
theorem WireSound.frameEncoded (h : WireSound W F s) (hs : s.seq = .encode) (m : Memory) :
    WireSound W F (beginFrameWrite { s with frame := m }) := by
  obtain ⟨hr, hi, hclear⟩ := h.beforeWrite hs
  have hclear' : holdClear { s with frame := m } = true := hclear
  rw [beginFrameWrite_of_holdClear hclear']
  refine ⟨h.wire.silent rfl rfl rfl (fullReturn_of_ret_none hr) rfl ?_, h.meaning, by simp, fun _ => hi⟩
  simp [acceptedInCycle, acceptedCount, hs, hr, hi]

/-- Taking the full count of the frame write sends nothing: the whole frame is accepted, and no zero yet. -/
theorem WireSound.frameTaken {r : WriteReturn} {bs : List Byte} (h : WireSound W F s) (hc : CycleSound L s)
    (hs : s.seq = .txFrame) (hr : s.ret = some r) (hw : r.written = frameLen s) :
    WireSound W F { takeReturn .frameBuf bs (frameLen s) r s with seq := .txReset } := by
  have hi : s.txidx = 0 := h.returned (by simp [hr])
  refine ⟨h.wire.silent rfl rfl rfl (fullReturn_of_ret_none rfl) rfl ?_, h.meaning, by simp, fun _ => hi⟩
  have hall : (cycleFrame s).take r.written = cycleFrame s := List.take_of_length_le (by rw [hw, hc.cycleFrame_length])
  simp only [acceptedInCycle, acceptedCount, hs, hr, hall, takeReturn_ret, takeReturn_txidx, hi, List.replicate_zero,
    List.append_nil]
  rfl

/-- Taking the full count of the reset write sends nothing: every zero is accepted. -/
theorem WireSound.resetTaken {r : WriteReturn} {bs : List Byte} {ticks : Nat} (h : WireSound W F s)
    (hs : s.seq = .txReset) (hr : s.ret = some r) (hw : r.written = resetLen s) :
    WireSound W F { takeReturn .resetBuf bs (resetLen s) r s with tickcnt := ticks, seq := .settle } := by
  have hi : s.txidx = 0 := h.returned (by simp [hr])
  refine ⟨h.wire.silent rfl rfl rfl (fullReturn_of_ret_none rfl) rfl ?_, h.meaning, by simp, fun _ => hi⟩
  simp only [acceptedInCycle, acceptedCount, hs, hr, hw]
  rfl

/-- CLEAR sends nothing, and what it discards is a wire-level fault (R157). -/
theorem WireSound.cleared {log : List LogEntry} (h : WireSound W F s) (hs : s.seq = .settle) :
    WireSound W F (respond .ok { periphClear s with acceptLog := log, seq := .idle }) := by
  refine ⟨h.wire.onward [] (if s.hold.pending = [] then [] else [.truncatedByClear]) (by simp) ?_ rfl
    (fun r _ => by simp) fun hnone bs hbs => ⟨?_, rfl⟩, rfl, by simp, h.returned⟩
  · by_cases hp : s.hold.pending = [] <;> simp [hp]
  · have hp : s.hold.pending = [] := by by_contra hne; simp [hne] at hnone
    have hall : bs ++ [] ++ [] = cycleFrame s ++ List.replicate (resetLen s) 0 := by
      simpa [hp, acceptedInCycle, hs] using hbs
    exact hall

section
variable {b : BufId} {n : Nat} (hcw : currentWrite s = some (b, n))
include hcw

theorem seq_ne_encode_of_currentWrite : s.seq ≠ .encode := by
  rcases (currentWrite_cases hcw).2 with ⟨hs, -⟩ | ⟨hs, -⟩ <;> simp [hs]

/-- An accepted byte joins the pending ones. -/
theorem WireSound.accepted {v : Byte} (h : WireSound W F s) (hc : CycleSound L s) (hi : s.txidx < n)
    (hv : offeredByte s b s.txidx = some v) : WireSound W F (acceptByte v s) := by
  have hr : s.ret = none := (currentWrite_cases hcw).1
  refine ⟨h.wire.onward [] [] (by simp) (by simp) rfl (fullReturn_of_ret_none hr) fun _ bs hbs => ⟨?_, rfl⟩, h.meaning,
    fun hs => (seq_ne_encode_of_currentWrite hcw hs).elim, fun hne => absurd hr hne⟩
  rw [hc.acceptedInCycle_acceptByte hcw hi hv, ← hbs]
  simp [wireBytes]

theorem WireSound.completed (h : WireSound W F s) (hi : s.txidx = n) :
    WireSound W F (returnWrite ⟨n, false⟩ s) :=
  ⟨h.wire.silent rfl rfl rfl (fullReturn_returnWrite hcw) rfl (acceptedInCycle_returnWrite hcw hi), h.meaning,
    fun hs => (seq_ne_encode_of_currentWrite hcw hs).elim, fun _ => rfl⟩

end

/-- A byte that is sent goes from the pending ones to the wire. -/
theorem WireSound.shifted {v : Byte} {rest : List Byte} {k : Nat} (h : WireSound W F s)
    (hpend : s.hold.pending = v :: rest) : WireSound W F
      { s with hold := ⟨rest, s.hold.dirty⟩, wire := s.wire ++ [.byte (shiftedByte s v)], draws := k } := by
  have hv : shiftedByte s v = v := by
    simp [shiftedByte, showsAnyByte_eq_false h.wireHasMeaning (by simp [hpend])]
  refine ⟨h.wire.onward [.byte v] [] (by rw [hv]) (by simp) rfl h.wire.1 fun _ bs hbs => ⟨?_, rfl⟩, h.meaning,
    fun hs => ?_, h.returned⟩
  · have hsent : bs ++ [v] ++ rest = acceptedInCycle s := by simpa [hpend] using hbs
    exact hsent
  · have hnone := h.wireHasMeaning.2 hs
    simp [hpend] at hnone

/-- A gap stands where every accepted byte is sent, so one inside the frame is an underrun (R156). -/
theorem WireSound.wentIdle (h : WireSound W F s) (hc : CycleSound L s) (hb : busy s = true)
    (hpend : s.hold.pending = []) : WireSound W F
      { s with
        wire := s.wire ++ [.gap]
        wireFaults := if gapUnderruns s then s.wireFaults ++ [.underrun] else s.wireFaults } := by
  refine ⟨h.wire.onward [.gap] (if gapUnderruns s then [.underrun] else []) rfl ?_ rfl h.wire.1 fun hnone bs hbs => ?_,
    h.meaning, h.beforeWrite, h.returned⟩
  · cases gapUnderruns s <;> simp
  · have hg : gapUnderruns s = false := by by_contra hne; simp [hne] at hnone
    obtain rfl : bs = acceptedInCycle s := by simpa [hpend] using hbs
    refine ⟨by rwa [wireBytes, wireBytes, List.append_nil], ?_⟩
    simpa [gapFree] using hc.accepted_none_or_frame hb h.wire.1 hg

/-- Every move of a cycle but reset and a short return keeps its wire sound, up to and with its last. -/
theorem WireSound.of_effect {m : Move} (h : WireSound W F s) (hc : CycleSound L s) (hb : busy s = true)
    (hm : m ≠ .reset) (hp : fullWriteMove s.cfg m) (he : Effect m s t) : WireSound W F t := by
  have hopen {P : Prop} (h : busy s = false) : P := by simp [hb] at h
  cases he with
  | wasReset => exact absurd rfl hm
  | refused _ _ _ _ _ hb => exact hopen hb
  | initialised _ _ _ _ _ hb => exact hopen hb
  | pixelWritten _ _ _ _ _ _ _ hb => exact hopen hb
  | cycleStarted _ _ _ _ _ hb => exact hopen hb
  | frameEncoded _ hs => exact h.frameEncoded hs _
  | frameTaken r _ hs hr hw => exact h.frameTaken hc hs hr hw
  | frameShort r _ hs hr hw => exact absurd ((h.wire.1 r hr).1 hs) hw.ne
  | resetTaken r _ hs hr hw => exact h.resetTaken hs hr hw
  | resetShort r _ hs hr hw => exact absurd ((h.wire.1 r hr).2 hs) hw.ne
  | cleared _ hs => exact h.cleared hs
  | accepted b n v _ hcw hi _ _ hv => exact h.accepted hcw hc hi hv
  | completed b n _ hcw hi => exact h.completed hcw hi
  | gaveUp _ _ _ _ _ ht => simp [timeoutElapsed, hp.2 rfl] at ht
  | wasCut => exact absurd rfl hp.1
  | shifted v rest _ hpend => exact h.shifted hpend
  | wentIdle _ hpend => exact h.wentIdle hc hb hpend
  | _ => exact ⟨h.wire, h.meaning, h.beforeWrite, h.returned⟩

theorem WireSound.step (h : WireSound W F s) (hc : CycleSound L s) (hb : busy s = true) (hr : nextMove s ≠ .reset)
    (hp : fullWriteMove s.cfg (nextMove s)) (hst : step s = .next t) : WireSound W F t :=
  h.afterMove.of_effect (hc.of_keepsBlock hb (keepsBlock_afterMove s)) (by rwa [busy_afterMove]) hr
    (by rwa [afterMove_cfg]) (step_effect hst)

/-- The wire of a cycle that has just started is sound: nothing is accepted yet, and `HOLD` is clear (R159). -/
theorem Inv.wireSound_started (h : Inv s) (hs : s.seq = .idle) (hi : s.inited = true) :
    WireSound s.wire s.wireFaults { s with seq := .encode, resp := none } := by
  have hr : s.ret = none := by
    by_contra hne
    obtain ⟨r, hr⟩ := Option.ne_none_iff_exists'.1 hne
    rcases h.retBound r hr with ⟨hs', -⟩ | ⟨hs', -⟩ <;> simp [hs] at hs'
  have hidx : s.txidx = 0 := (h.txidxZero (currentWrite_none.2 (.inr (by simp [hs])))).1
  have hclear : holdClear s = true := h.cleanStart hi (.inl hs)
  have hpend : s.hold.pending = [] := ((holdClear_eq_true_iff s).1 hclear).1
  exact ⟨⟨fullReturn_of_ret_none hr, [], [], by simp, by simp, fun _ => ⟨hpend, rfl⟩⟩, h.neverStale.1,
    fun _ => ⟨hr, hidx, hclear⟩, fun _ => hidx⟩

/-- Along every run of a cycle without a reset and a short return its log and its wire are sound, and `STRIP` and the
constants are those of its start. -/
theorem CycleRun.wireSound (h : CycleRun (fun m => m ≠ .reset ∧ fullWriteMove s.cfg m) s t) (hc : CycleSound L s)
    (hw : WireSound W F s) : CycleSound L t ∧ WireSound W F t ∧ t.strip = s.strip ∧ t.cfg = s.cfg := by
  refine h.keeps (P := fun v => CycleSound L v ∧ WireSound W F v ∧ v.strip = s.strip ∧ v.cfg = s.cfg) ?_
    ⟨hc, hw, rfl, rfl⟩
  rintro v w hb ⟨hr, hp⟩ hst ⟨hv, hwire, hstrip, hcfg⟩
  exact ⟨hv.step hb hr hst, hwire.step hv hb hr (hcfg ▸ hp) hst, (step_strip_of_busy hb hr hst).trans hstrip,
    (constantsNeverChange v w hst).1.trans hcfg⟩

/-- A cycle that has ended without a wire-level fault has sent every byte. -/
theorem WireSound.sent (h : WireSound W F s) (hc : CycleSound L s) (hs : s.seq = .idle) (hf : s.wireFaults = F) :
    ∃ ws, s.wire = W ++ ws ∧ wireBytes ws = cycleFrame s ++ List.replicate (resetLen s) 0 ∧
      gapFree (frameLen s) 0 ws = true := by
  obtain ⟨-, ws, fs, hwire, hfaults, hclean⟩ := h.wire
  have hfs : fs = [] := by simpa [hf] using hfaults
  obtain ⟨hbytes, hgaps⟩ := hclean hfs
  have hlog := hc.log
  simp only [cycleLog, hs] at hlog
  obtain ⟨-, -, -, hclear⟩ := hlog
  have hpend : s.hold.pending = [] := ((holdClear_eq_true_iff s).1 hclear).1
  exact ⟨ws, hwire, by simpa [hpend, acceptedInCycle, hs] using hbytes, hgaps⟩

end

/-! ### The levels of the wire (R160) -/

theorem wireLevels_append (idleLevel : Bool) (a b : List WireEvent) :
    wireLevels idleLevel (a ++ b) = wireLevels idleLevel a ++ wireLevels idleLevel b := by
  induction a with
  | nil => rfl
  | cons e a ih => cases e <;> simp [wireLevels, ih]

theorem wireLevels_map_byte (idleLevel : Bool) (bs : List Byte) :
    wireLevels idleLevel (bs.map .byte) = wireBits bs := by
  induction bs with
  | nil => rfl
  | cons v bs ih => simp [wireLevels, ih, wireBits]

theorem wireBytes_replicate_gap (g : Nat) : wireBytes (List.replicate g .gap) = [] := by
  induction g with
  | zero => rfl
  | succ g ih => simpa [List.replicate_succ, wireBytes] using ih

/-- Under *idle low* zero bytes and gaps are low. -/
theorem wireLevels_low {es : List WireEvent} (h : ∀ v ∈ wireBytes es, v = 0) :
    ∀ b ∈ wireLevels false es, b = false := by
  induction es with
  | nil => simp [wireLevels]
  | cons e es ih =>
    cases e with
    | gap => simpa [wireLevels] using ih h
    | byte v =>
      obtain ⟨rfl, hes⟩ : v = 0 ∧ ∀ v ∈ wireBytes es, v = 0 := by simpa [wireBytes] using h
      simpa [wireLevels, byteBits] using ih hes

theorem le_wireLevels_length (idleLevel : Bool) (es : List WireEvent) :
    8 * (wireBytes es).length ≤ (wireLevels idleLevel es).length := by
  induction es with
  | nil => rfl
  | cons e es ih => cases e <;> simp [wireLevels, wireBytes] <;> omega

/-- Events whose first bytes, up to the `n`-th of the cycle, are `bs`, without a gap among them: gaps, those bytes
back to back, and the rest; no gap comes first when bytes of the frame have gone before. -/
theorem exists_of_gapFree {n k : Nat} {ws : List WireEvent} {bs zs : List Byte} (hg : gapFree n k ws = true)
    (hw : wireBytes ws = bs ++ zs) (hn : k + bs.length = n) :
    ∃ g es, ws = List.replicate g .gap ++ bs.map .byte ++ es ∧ wireBytes es = zs ∧ (0 < k → g = 0) := by
  induction ws generalizing k bs with
  | nil =>
    obtain ⟨rfl, rfl⟩ : bs = [] ∧ zs = [] := by simpa [wireBytes, eq_comm] using hw
    exact ⟨0, [], rfl, rfl, fun _ => rfl⟩
  | cons e ws ih =>
    cases bs with
    | nil => exact ⟨0, e :: ws, rfl, hw, fun _ => rfl⟩
    | cons b bs =>
      cases e with
      | byte v =>
        obtain ⟨rfl, hws⟩ : v = b ∧ wireBytes ws = bs ++ zs := by simpa [wireBytes] using hw
        obtain ⟨g, es, rfl, hes, hg0⟩ := ih (k := k + 1) hg hws (by rw [← hn, List.length_cons]; omega)
        obtain rfl : g = 0 := hg0 k.succ_pos
        exact ⟨0, es, rfl, hes, fun _ => rfl⟩
      | gap =>
        obtain ⟨hk, hg⟩ : (k = 0 ∨ n ≤ k) ∧ gapFree n k ws = true := by simpa [gapFree] using hg
        obtain rfl : k = 0 := by rw [List.length_cons] at hn; omega
        obtain ⟨g, es, rfl, hes, -⟩ := ih hg hw hn
        exact ⟨g + 1, es, rfl, hes, fun h => absurd h (lt_irrefl 0)⟩

/-- The levels of a frame `bs` without a gap inside and `z` zero bytes: the frame's wire bits, low around them. -/
theorem wireLevels_of_frame {ws : List WireEvent} {bs : List Byte} {z : Nat} (hg : gapFree bs.length 0 ws = true)
    (hw : wireBytes ws = bs ++ List.replicate z 0) :
    ∃ before after, wireLevels false ws = before ++ wireBits bs ++ after ∧ (∀ b ∈ before ++ after, b = false) ∧
      8 * z ≤ after.length := by
  obtain ⟨g, es, rfl, hes, -⟩ := exists_of_gapFree hg hw (Nat.zero_add _)
  refine ⟨wireLevels false (List.replicate g .gap), wireLevels false es, ?_, fun b hb => ?_, ?_⟩
  · rw [wireLevels_append, wireLevels_append, wireLevels_map_byte]
  · rcases List.mem_append.1 hb with hb | hb
    · exact wireLevels_low (by simp [wireBytes_replicate_gap]) b hb
    · exact wireLevels_low (fun v hv => List.eq_of_mem_replicate (hes ▸ hv)) b hb
  · simpa [hes] using le_wireLevels_length false es

/-- Settles O57: a cycle's wire starts sound (`Inv.wireSound_started`) and every step keeps it so (`WireSound.step`); at
its end every accepted byte is sent (`WireSound.sent`), and `wireLevels_of_frame` gives the levels. -/
theorem everyCycleSendsFrameThenReset : Obligations.EveryCycleSendsFrameThenReset := by
  intro s u t hinv hs hf hi hu hrun hidle hfaults
  obtain rfl := exec_update_started hs hf hi hu
  obtain ⟨hc, hw, hstrip, hcfg⟩ := CycleRun.wireSound hrun (hinv.cycleSound_started hf) (hinv.wireSound_started hs hi)
  obtain ⟨ws, hwire, hbytes, hgaps⟩ := hw.sent hc hidle hfaults
  simp only [cycleFrame, frameLen, pixelBytes, resetLen, hstrip, hcfg] at hbytes hgaps
  refine ⟨ws, hwire, hbytes, hgaps, ?_⟩
  rintro _ rfl
  refine wireLevels_of_frame ?_ hbytes
  rwa [encodeFrame_length, hinv.stripLength]

end Sys2Proof.Machine
end

section
/-! SUPPORT. What a step can do in the FAULT state, why no write times out without a bound, and what a refused command
changes (spec/60_exceptions.md R172, R175, R178; spec/41_transmitter.md R109). -/

namespace Sys2Proof.Machine

/-! ### The FAULT state (R178) -/

theorem KeepsBlock.frameByte {s t : State} (h : KeepsBlock s t) (a : Nat) : frameByte t a = frameByte s a := by
  simp only [Machine.frameByte, h.frame, h.frameEpoch]

/-- In FAULT a move but reset leaves the block as it is, or the port answers the word it takes with `Faulted`. -/
theorem Effect.fault_cases {m : Move} {s t : State} (h : Effect m s t) (hs : s.seq = .fault) (hr : m ≠ .reset) :
    (KeepsBlock s t ∧ t.tickcnt = s.tickcnt) ∨ ∃ rest, t = respond .faulted (takeWord rest s) := by
  have hrefuses : refusesFaulted s = true := (refusesFaulted_iff s).2 (.inr hs)
  have hopen {P : Prop} (hf : refusesFaulted s = false) : P := by simp [hrefuses] at hf
  have hother {P : Prop} {q : Seq} (hq : s.seq = q) (hne : q ≠ .fault) : P := absurd (hq.symm.trans hs) hne
  cases h with
  | wasReset => exact absurd rfl hr
  | refused w rest r _ _ _ _ _ hf =>
    obtain rfl := hf hrefuses
    exact .inr ⟨rest, rfl⟩
  | initialised _ _ _ _ _ _ hf => exact hopen hf
  | pixelWritten _ _ _ _ _ _ _ _ hf => exact hopen hf
  | cycleStarted _ _ _ _ _ _ hf => exact hopen hf
  | frameEncoded _ hq => exact hother hq (by decide)
  | frameTaken _ _ hq => exact hother hq (by decide)
  | frameShort _ _ hq => exact hother hq (by decide)
  | resetTaken _ _ hq => exact hother hq (by decide)
  | resetShort _ _ hq => exact hother hq (by decide)
  | settled _ hq => exact hother hq (by decide)
  | cleared _ hq => exact hother hq (by decide)
  | _ => exact .inl ⟨by constructor <;> rfl, rfl⟩

/-- Settles O48: `Effect.fault_cases` says what a step can do in FAULT, and reset is a step that leaves it. -/
theorem faultIsTerminal : Obligations.FaultIsTerminal := by
  refine fun s hf hs => ⟨fun t hm hst => ?_, fun hm => ⟨_, step_reset hm, rfl, rfl⟩⟩
  have ha : KeepsBlock s (afterMove s) := keepsBlock_afterMove s
  rcases (step_effect hst).fault_cases (by simpa using hs) hm with ⟨hk, htick⟩ | ⟨rest, rfl⟩
  · have hb : KeepsBlock s t := ha.trans hk
    exact ⟨hb.fault.trans hf, hb.seq.trans hs, hb.faultKind, hb.faultStage, hb.strip, hb.frameByte, hb.txcnt,
      by simpa using htick, hb.inited, hb.acceptLog, .inl hb.resp⟩
  · exact ⟨ha.fault.trans hf, ha.seq.trans hs, ha.faultKind, ha.faultStage, ha.strip, ha.frameByte, ha.txcnt,
      afterMove_tickcnt s, ha.inited, ha.acceptLog, .inr rfl⟩

/-! ### Without a bound no write times out (R109, R172) -/

/-- `TX_TIMEOUT = INF`, and nothing has timed out: neither the return that waits nor the write that faulted. -/
structure NeverTimedOut (s : State) : Prop where
  unbounded : s.cfg.txTimeout = none
  ret : ∀ r, s.ret = some r → r.timedOut = false
  faultKind : s.faultKind ≠ .timeout

theorem neverTimedOut_afterMove {s : State} (h : NeverTimedOut s) : NeverTimedOut (afterMove s) where
  unbounded := by simpa using h.unbounded
  ret := by simpa using h.ret
  faultKind := by simpa using h.faultKind

theorem returnKind_ne_timeout {r : WriteReturn} (h : r.timedOut = false) : returnKind r ≠ .timeout := by
  simp [returnKind, h]

/-- Only the give-up returns a write as timed out, and it needs a bound; a fault's kind is that of the return taken. -/
theorem Effect.neverTimedOut {m : Move} {s t : State} (h : Effect m s t) (hs : NeverTimedOut s) : NeverTimedOut t := by
  obtain ⟨hu, hret, hkind⟩ := hs
  have htaken : ∀ r : WriteReturn, none = some r → r.timedOut = false := by simp
  have hreturned (k : Nat) : ∀ r : WriteReturn, some ⟨k, false⟩ = some r → r.timedOut = false := by
    rintro _ ⟨⟩; rfl
  cases h with
  | wasReset => exact ⟨hu, htaken, show FaultKind.none ≠ .timeout by decide⟩
  | frameTaken => exact ⟨hu, htaken, hkind⟩
  | resetTaken => exact ⟨hu, htaken, hkind⟩
  | frameShort r _ _ hr => exact ⟨hu, htaken, returnKind_ne_timeout (hret r hr)⟩
  | resetShort r _ _ hr => exact ⟨hu, htaken, returnKind_ne_timeout (hret r hr)⟩
  | completed _ n => exact ⟨hu, hreturned n, hkind⟩
  | wasCut => exact ⟨hu, hreturned s.txidx, hkind⟩
  | gaveUp _ _ _ _ _ ht => simp [timeoutElapsed, hu] at ht
  | _ => exact ⟨hu, hret, hkind⟩

/-- Settles O50: `NeverTimedOut` is kept by everything a step can do (`step_effect`). -/
theorem noTimeoutWithoutABound : Obligations.NoTimeoutWithoutABound := by
  intro s t hu hret hkind hst
  obtain ⟨hu', hret', hkind'⟩ := (step_effect hst).neverTimedOut (neverTimedOut_afterMove ⟨hu, hret, hkind⟩)
  exact ⟨hu', hret', hkind'⟩

/-! ### Refused commands (R175) -/

theorem exec_update_notInitialised {s : State} (hb : busy s = false) (hf : refusesFaulted s = false)
    (hi : s.inited = false) : exec .update s = .next (respond .notInitialised s) := by
  simp [exec, execUpdate, commandGate_open hb hf, hi]

/-- Each command is what some word decodes to. -/
theorem exists_decodeCmd48_eq_ok {i : Instr} (h : i = .init ∨ (∃ pos color, i = .setpix pos color) ∨ i = .update) :
    ∃ w, decodeCmd48 w = .ok i := by
  rcases h with rfl | ⟨pos, color, rfl⟩ | rfl
  · exact ⟨_, Laws.RoundTrip.init rfl⟩
  · exact ⟨_, Laws.RoundTrip.setpix pos color rfl⟩
  · exact ⟨_, Laws.RoundTrip.update rfl⟩

theorem respCode_eq_zero_iff (r : Resp) : respCode r = 0 ↔ r = .ok := by
  cases r <;> decide

/-- Settles O19: the port's gate answers first, with `Faulted` (`exec_faulted`); behind it each command has its own
reason, and a refusal only responds. -/
theorem refusedCommandsChangeNothing : Obligations.RefusedCommandsChangeNothing := by
  refine ⟨fun s i hi hs hf => ?_, fun s w hs _ => ?_, fun s hs hf hi => ?_, fun s pos color hs hf hn => ?_,
    fun s hs hf hi => ?_, ⟨rfl, rfl, rfl, rfl, rfl, rfl, rfl⟩, respCode_eq_zero_iff⟩
  · obtain ⟨w, hd⟩ := exists_decodeCmd48_eq_ok hi
    exact exec_faulted hd (busy_eq_false hs) ((refusesFaulted_iff s).2 hf)
  · rw [refuseIllegal_of_not_busy w (busy_eq_false hs)]
    simp only [refusesFaulted_iff]
    rfl
  · exact exec_init_again (busy_eq_false (.inl hs)) (refusesFaulted_eq_false hs hf) hi
  · exact exec_setpix_outOfRange color (busy_eq_false (.inl hs)) (refusesFaulted_eq_false hs hf) hn
  · exact exec_update_notInitialised (busy_eq_false (.inl hs)) (refusesFaulted_eq_false hs hf) hi

end Sys2Proof.Machine
end

section
/-! SUPPORT. Decode and encode agree in both directions, the rows of the opcode table are the decoder, and the words of
the test vectors (spec/30_encoding.md R61, R68 to R71, spec/95_test_vectors.md V8, P5). -/

namespace Sys2Proof.Machine

/-! ### Decode and encode (R61, R69, R71) -/

theorem decode_encode (i : Instr) : Laws.RoundTrip.Statement i := by
  cases i with
  | init => exact Laws.RoundTrip.init
  | setpix pos color => exact Laws.RoundTrip.setpix pos color
  | update => exact Laws.RoundTrip.update
  | encode => exact Laws.RoundTrip.encode
  | txframe => exact Laws.RoundTrip.txframe
  | txreset => exact Laws.RoundTrip.txreset
  | settle => exact Laws.RoundTrip.settle
  | clear => exact Laws.RoundTrip.clear
  | sym0 => exact Laws.RoundTrip.sym0
  | sym1 => exact Laws.RoundTrip.sym1
  | sym2 => exact Laws.RoundTrip.sym2
  | sym3 => exact Laws.RoundTrip.sym3

theorem encode_of_decodeCmd48 {w : CmdWord} {i : Instr} (h : decodeCmd48 w = .ok i) :
    Sys2Proof.encode i = .cmd48 w := by
  rw [← commandWord_of_decode h]
  rcases decodeCmd48_command h with rfl | ⟨pos, color, rfl⟩ | rfl <;> rfl

theorem encode_decodeLut2 (g : Group) : Sys2Proof.encode (decodeLut2 g) = .lut2 g := by
  rcases group_cases g with rfl | rfl | rfl | rfl <;> rfl

/-- What a decoder reads, as an option, so that a statement about all words of a short format can be evaluated. -/
theorem mem_toOption_iff {ε α : Type} {e : Except ε α} {a : α} : a ∈ e.toOption ↔ e = .ok a := by
  cases e <;> simp [Except.toOption]

/-- A selector is the encoding of what it selects, or differs from it in the `tz` bit that is ignored. -/
theorem encode_of_mem_decodeUsel4 : ∀ u : Usel, ∀ i ∈ (decodeUsel4 u).toOption,
    Sys2Proof.encode i = .usel4 u ∨
    (i = .encode ∧ u = 0b0011) ∨ (i = .txframe ∧ u = 0b0101) ∨ (i = .txreset ∧ u = 0b0111) := by decide

/-- Settles O4: decoding undoes encoding for each instruction (`decode_encode`), and in each format encoding undoes
decoding. -/
theorem decodeEncodeAgree : Obligations.DecodeEncodeAgree :=
  ⟨decode_encode, fun _ _ => encode_of_decodeCmd48, encode_decodeLut2,
    fun u i h => encode_of_mem_decodeUsel4 u i (mem_toOption_iff.2 h)⟩

/-! ### The rows of the opcode table as match and mask -/

/-- The mask of INIT and UPDATE keeps every bit. -/
theorem rowMatches_full_iff (name : String) (pat w : CmdWord) :
    rowMatches ⟨name, pat, 0xFFFFFFFFFFFF⟩ w = true ↔ w = pat := by
  have hfull : w &&& 0xFFFFFFFFFFFF = w := BitVec.and_allOnes
  rw [rowMatches, beq_iff_eq, hfull]

theorem rowMatches_setpix_iff (name : String) (w : CmdWord) :
    rowMatches ⟨name, 0x020000000000, 0xFF0000000000⟩ w = true ↔ cmdOp w = 0x02 := by
  rw [rowMatches, beq_iff_eq]
  exact cmdWord_and_opMask_eq_iff w 0x02

/-- The command of a mnemonic that a word is read as. -/
theorem decodeCmd48_mnemonic_iff (w : CmdWord) (name : String) :
    (∃ i, decodeCmd48 w = .ok i ∧ mnemonic i = name) ↔
      (decodeCmd48 w = .ok .init ∧ "INIT" = name) ∨
      ((∃ pos color, decodeCmd48 w = .ok (.setpix pos color)) ∧ "SETPIX" = name) ∨
      (decodeCmd48 w = .ok .update ∧ "UPDATE" = name) := by
  constructor
  · rintro ⟨i, hd, hname⟩
    rcases decodeCmd48_command hd with rfl | ⟨pos, color, rfl⟩ | rfl
    · exact .inl ⟨hd, hname⟩
    · exact .inr (.inl ⟨⟨pos, color, hd⟩, hname⟩)
    · exact .inr (.inr ⟨hd, hname⟩)
  · rintro (⟨hd, hname⟩ | ⟨⟨pos, color, hd⟩, hname⟩ | ⟨hd, hname⟩) <;> exact ⟨_, hd, hname⟩

theorem exists_decodeCmd48_setpix_iff (w : CmdWord) :
    (∃ pos color, decodeCmd48 w = .ok (.setpix pos color)) ↔ cmdOp w = 0x02 := by
  simp [decodeCmd48_setpix_iff]

/-- A row matches a command word exactly when the decoder reads an instruction of its mnemonic from it. -/
theorem cmd48Rows_iff (w : CmdWord) {r : OpRow 48} (hr : r ∈ cmd48Rows) :
    rowMatches r w = true ↔ ∃ i, decodeCmd48 w = .ok i ∧ mnemonic i = r.mnemonic := by
  have hrows : r = ⟨"INIT", 0x010000000000, 0xFFFFFFFFFFFF⟩ ∨ r = ⟨"SETPIX", 0x020000000000, 0xFF0000000000⟩ ∨
      r = ⟨"UPDATE", 0x030000000000, 0xFFFFFFFFFFFF⟩ := by simpa [cmd48Rows] using hr
  rw [decodeCmd48_mnemonic_iff, decodeCmd48_init_iff, exists_decodeCmd48_setpix_iff, decodeCmd48_update_iff]
  rcases hrows with rfl | rfl | rfl
  · rw [rowMatches_full_iff]; simp
  · rw [rowMatches_setpix_iff]; simp
  · rw [rowMatches_full_iff]; simp

theorem usel4Rows_iff : ∀ u : Usel, ∀ r ∈ usel4Rows,
    (rowMatches r u = true ↔ ∃ i ∈ (decodeUsel4 u).toOption, mnemonic i = r.mnemonic) := by decide

theorem lut2Rows_iff : ∀ g : Group, ∀ r ∈ lut2Rows,
    (rowMatches r g = true ↔ mnemonic (decodeLut2 g) = r.mnemonic) := by decide

/-- The rows are told apart by their mnemonics. -/
theorem cmd48Rows_eq_of_mnemonic : ∀ r ∈ cmd48Rows, ∀ q ∈ cmd48Rows, r.mnemonic = q.mnemonic → r = q := by decide

/-- Settles O5: in each format a row's match is the decoder's reading, and as the decoder reads one instruction from a
word, no word matches two rows. -/
theorem tableRowsAreTheDecoder : Obligations.TableRowsAreTheDecoder := by
  refine ⟨rfl, rfl, rfl, fun w r => cmd48Rows_iff w, fun u r hr => ?_, lut2Rows_iff, fun w r hr q hq hrw hqw => ?_⟩
  · simpa only [mem_toOption_iff] using usel4Rows_iff u r hr
  · obtain ⟨i, hi, hri⟩ := (cmd48Rows_iff w hr).1 hrw
    obtain ⟨j, hj, hqj⟩ := (cmd48Rows_iff w hq).1 hqw
    obtain rfl : i = j := by simpa [hi] using hj
    exact cmd48Rows_eq_of_mnemonic r hr q hq (hri.symm.trans hqj)

/-! ### The words of the test vectors (V8, P5) -/

/-- Settles O1: each word is decoded. -/
theorem tableWordsDecode : Obligations.TableWordsDecode := by
  unfold Obligations.TableWordsDecode
  decide

end Sys2Proof.Machine
end

section
/-! SUPPORT. The invariant of the whole machine: it holds after reset, and everything a step can do keeps it
(spec/10_state.md, spec/41_transmitter.md, spec/43_peripheral_and_wire.md). -/

namespace Sys2Proof.Machine

/-! ### What the invariant says of a state of `SEQ` -/

section
variable {s : State}

theorem Inv.fault_eq_false (h : Inv s) (hs : s.seq ≠ .fault) : s.fault = false := by
  rwa [Bool.eq_false_iff, ne_eq, h.faultSeq]

theorem Inv.inited_of_ne_idle (h : Inv s) (hs : s.seq ≠ .idle) : s.inited = true := by
  by_contra hi
  exact hs (h.initFirst (Bool.eq_false_iff.2 hi))

/-- A count is returned only in the two states of a write. -/
theorem Inv.ret_eq_none (h : Inv s) (hs : s.seq ≠ .txFrame ∧ s.seq ≠ .txReset) : s.ret = none := by
  by_contra hne
  obtain ⟨r, hr⟩ := Option.ne_none_iff_exists'.1 hne
  rcases h.retBound r hr with ⟨hq, -⟩ | ⟨hq, -⟩
  · exact hs.1 hq
  · exact hs.2 hq

/-- Nothing is counted where no write is in progress (R28). -/
theorem Inv.counts_eq_zero (h : Inv s) (hs : s.ret ≠ none ∨ (s.seq ≠ .txFrame ∧ s.seq ≠ .txReset)) :
    s.txidx = 0 ∧ s.txticks = 0 := h.txidxZero (currentWrite_none.2 hs)

end

/-! ### After reset (R37) -/

/-- The reset state of all valid parameters meets the invariant. -/
theorem inv_resetOf {p : Params} (hp : p.wf = true) : Inv (State.resetOf p) where
  cfgWf := hp
  stripLength := List.length_replicate
  resetBufZero := rfl
  frameWf := List.Pairwise.nil
  frameBound := by simp [State.resetOf]
  frameEncoded := by simp [State.resetOf, holdsFrame]
  faultSeq := by simp [State.resetOf]
  faultKindNone := by simp [State.resetOf]
  initFirst _ := rfl
  txcntBound := Nat.zero_le _
  txidxBound _ _ _ := Nat.zero_le _
  txidxZero _ := ⟨rfl, rfl⟩
  txticksBound _ _ := Nat.zero_le _
  retBound := by simp [State.resetOf]
  retTimeout := by simp [State.resetOf]
  tickcntRange := Nat.zero_le _
  tickcntZero _ := rfl
  holdCap := Nat.zero_le _
  dirtyIfPending _ := rfl
  cleanStart _ _ := rfl
  neverStale := by simp [State.resetOf]
  noEarlyResponse := by simp [State.resetOf, busy]
  callsWait := by simp [State.resetOf]

/-- Settles O43: `inv_resetOf`; the default parameters are valid. -/
theorem invariantHoldsAtReset : Obligations.InvariantHoldsAtReset :=
  ⟨fun _ => inv_resetOf, inv_resetOf (by decide), fun _ => rfl⟩

/-! ### The host's moves and the command port -/

section
variable {s : State} {w : CmdWord} {rest : List CmdWord}

/-- A word that waits still waits, at its place, when others come behind it. -/
theorem getElem?_append_of_some {ws : List CmdWord} {k : Nat} (added : List CmdWord) (h : ws[k]? = some w) :
    (ws ++ added)[k]? = some w := by
  rwa [List.getElem?_append_left (List.getElem?_eq_some_iff.1 h).1]

theorem Inv.presented (h : Inv s) (w : CmdWord) : Inv { s with port := s.port ++ [w] } :=
  { h with
    callsWait := fun c hc hn =>
      ⟨fun ha => getElem?_append_of_some [w] ((h.callsWait c hc hn).1 ha), (h.callsWait c hc hn).2⟩ }

/-- The UPDATE of a call that has just issued its words is the last that waits. -/
theorem Inv.recordCall (h : Inv s) (o : SetOutcome) : Inv (recordCall o s) := by
  refine { h with callsWait := fun c hc hn => ?_ }
  rcases List.mem_append.1 hc with hc | hc
  · exact ⟨fun ha => getElem?_append_of_some _ ((h.callsWait c hc hn).1 ha), (h.callsWait c hc hn).2⟩
  · obtain rfl := List.mem_singleton.1 hc
    cases o with
    | issued pos color =>
      refine ⟨fun _ => ?_, by simp [setCall]⟩
      simp [setCall, setWords, commandWord]
    | badPosition => simp [setCall] at hn
    | badColour => simp [setCall] at hn

theorem Inv.resetEvent (h : Inv s) : Inv (resetEvent s) :=
  { inv_resetOf h.cfgWf with }

/-- The calls that have not returned when a word is taken wait for the same word, one place nearer. -/
theorem Inv.update_waits (h : Inv s) (hp : s.port = w :: rest) {c : SetCall}
    (hc : c ∈ s.setter.map (wordTaken s)) (hn : c.status = none) (ha : 0 < c.ahead) :
    rest[c.ahead - 1]? = some (cmdWordOf 0x03 0 0) := by
  obtain ⟨d, hd, rfl⟩ := List.mem_map.1 hc
  by_cases hz : d.ahead = 0
  · simp [wordTaken, hz] at ha
  · simp only [wordTaken, if_neg hz] at hn ha ⊢
    have hwaits := (h.callsWait d hd hn).1 (by omega)
    rwa [hp, show d.ahead - 1 = (d.ahead - 1 - 1) + 1 by omega, List.getElem?_cons_succ] at hwaits

/-- Outside a cycle the port takes a word and answers it. -/
theorem Inv.answered (h : Inv s) (hp : s.port = w :: rest) (hb : busy s = false) (r : Resp) :
    Inv (respond r (takeWord rest s)) :=
  { h with
    noEarlyResponse := fun hbusy => absurd (hb.symm.trans hbusy) Bool.false_ne_true
    callsWait := fun c hc hn => by
      simp only [respond_setter, takeWord, hb, Bool.false_eq_true, if_false] at hc
      exact ⟨h.update_waits hp hc hn, by simp⟩ }

/-- INIT: `HOLD` is clear from here to the first byte of a frame write. -/
theorem Inv.initialise (h : Inv s) (hs : s.seq = .idle) : Inv (initialise s) :=
  { h with
    resetBufZero := rfl
    frameWf := List.Pairwise.nil
    frameBound := by simp
    frameEncoded := fun hf => by simp [holdsFrame, hs] at hf
    initFirst := by simp
    holdCap := Nat.zero_le _
    dirtyIfPending := fun _ => rfl
    cleanStart := fun _ _ => rfl
    neverStale := ⟨rfl, h.neverStale.2⟩ }

/-- SETPIX: outside a cycle nothing rests on the content of `STRIP`. -/
theorem Inv.setPixel (h : Inv s) (hs : s.seq = .idle) (i : Nat) (p : Pixel) :
    Inv { s with strip := s.strip.set i p } :=
  { h with
    stripLength := by simpa using h.stripLength
    frameEncoded := fun hf => by simp [holdsFrame, hs] at hf }

/-- UPDATE: a cycle starts with nothing returned, nothing counted and `HOLD` clear. -/
theorem Inv.startCycle (h : Inv s) (hs : s.seq = .idle) (hi : s.inited = true) :
    Inv { s with seq := .encode, resp := none } :=
  { h with
    frameEncoded := fun hf => by simp [holdsFrame] at hf
    faultSeq := by simp [h.fault_eq_false (by simp [hs])]
    initFirst := by simp [hi]
    txidxBound := fun b n hc => by simp [h.counts_eq_zero (.inr (by simp [hs]))]
    txidxZero := fun _ => h.counts_eq_zero (.inr (by simp [hs]))
    retBound := by simp [h.ret_eq_none (by simp [hs])]
    retTimeout := by simp [h.ret_eq_none (by simp [hs])]
    tickcntZero := fun _ => h.tickcntZero (by simp [hs])
    cleanStart := fun _ _ => h.cleanStart hi (.inl hs)
    noEarlyResponse := fun _ => rfl
    callsWait := fun c hc hn => ⟨(h.callsWait c hc hn).1, by simp [busy]⟩ }

end

/-! ### The sequencer and the tick -/

section
variable {s : State}

theorem Inv.encodeFrame_length_eq (h : Inv s) : (encodeFrame s.cfg.sym s.strip).length = frameLen s := by
  simp [h.stripLength, frameLen, pixelBytes]

/-- The frame is written within its bound. -/
theorem Inv.writeFrame (h : Inv s) (hs : s.seq = .encode) :
    Inv { s with frame := Memory.writeBytes s.frame 0 (encodeFrame s.cfg.sym s.strip) } :=
  { h with
    frameWf := Memory.wf_writeBytes h.frameWf _ _
    frameBound := fun c hc => by
      rcases Memory.mem_writeBytes hc with ⟨-, hlt⟩ | hc
      · rwa [Nat.zero_add, h.encodeFrame_length_eq] at hlt
      · exact h.frameBound c hc
    frameEncoded := fun hf => by simp [holdsFrame, hs] at hf }

/-- A frame write begins with nothing accepted and `HOLD` clear, once `FRAME` holds the encoding (R159). -/
theorem Inv.beginFrameWrite (h : Inv s) (hs : s.seq = .encode)
    (hf : ∀ a, a < frameLen s → Memory.byteAt s.frame a = (encodeFrame s.cfg.sym s.strip)[a]?) :
    Inv (beginFrameWrite s) := by
  have hi : s.inited = true := h.inited_of_ne_idle (by simp [hs])
  have hr : s.ret = none := h.ret_eq_none (by simp [hs])
  have hcounts := h.counts_eq_zero (.inr (by simp [hs]))
  have hclear : holdClear s = true := h.cleanStart hi (.inr (.inl hs))
  rw [beginFrameWrite_of_holdClear hclear]
  exact { h with
    frameEncoded := fun _ => hf
    faultSeq := by simp [h.fault_eq_false (by simp [hs])]
    initFirst := by simp [hi]
    txidxBound := fun _ _ _ => by simp [hcounts]
    txidxZero := fun _ => hcounts
    retBound := by simp [hr]
    retTimeout := by simp [hr]
    tickcntZero := fun _ => h.tickcntZero (by simp [hs])
    cleanStart := fun _ _ => hclear
    noEarlyResponse := fun _ => h.noEarlyResponse (by simp [busy, hs])
    callsWait := fun c hc hn => ⟨(h.callsWait c hc hn).1, fun _ hb => by simp [busy] at hb⟩ }

/-- What ENCODE leaves (R102). -/
theorem Inv.encoded (h : Inv s) (hs : s.seq = .encode) :
    Inv (Machine.beginFrameWrite
      { s with frame := Memory.writeBytes s.frame 0 (encodeFrame s.cfg.sym s.strip) }) := by
  refine (h.writeFrame hs).beginFrameWrite hs fun a ha => ?_
  have hlt : a < 0 + (encodeFrame s.cfg.sym s.strip).length := by rwa [Nat.zero_add, h.encodeFrame_length_eq]
  rw [Memory.byteAt_writeBytes, if_pos ⟨Nat.zero_le a, hlt⟩, Nat.sub_zero]

section
variable {r : WriteReturn} (hr : s.ret = some r)
include hr

theorem Inv.seq_of_ret (h : Inv s) : s.seq = .txFrame ∨ s.seq = .txReset :=
  (h.retBound r hr).imp And.left And.left

theorem Inv.written_le (h : Inv s) : r.written ≤ max (frameLen s) (resetLen s) := by
  rcases h.retBound r hr with ⟨-, hw⟩ | ⟨-, hw⟩
  · exact hw.trans (le_max_left _ _)
  · exact hw.trans (le_max_right _ _)

/-- A full count is taken and the cycle goes on, to the reset write or to the delay (R103, R104). -/
theorem Inv.countTaken (h : Inv s) (b : BufId) (bs : List Byte) (n : Nat) {q : Seq} {ticks : Nat}
    (hq : q = .txReset ∨ q = .settle) (hticks : ticks ≤ s.cfg.settleTicks) (hzero : q ≠ .settle → ticks = 0) :
    Inv { takeReturn b bs n r s with tickcnt := ticks, seq := q } := by
  have hs := h.seq_of_ret hr
  have hwritten := h.written_le hr
  have hcounts := h.counts_eq_zero (.inl (by simp [hr]))
  have hbusy : busy s = true := (busy_eq_true_iff s).2 (by tauto)
  have hidle : s.seq ≠ .idle := by rcases hs with hs | hs <;> simp [hs]
  have hfault : s.fault = false := h.fault_eq_false (by rcases hs with hs | hs <;> simp [hs])
  have hholds : holdsFrame s = true := by rcases hs with hs | hs <;> simp [holdsFrame, hs]
  exact { h with
    frameEncoded := fun _ => h.frameEncoded hholds
    faultSeq := by rcases hq with rfl | rfl <;> simp [hfault]
    initFirst := by simp [h.inited_of_ne_idle hidle]
    txcntBound := hwritten
    txidxBound := fun _ _ _ => by simp [hcounts]
    txidxZero := fun _ => hcounts
    retBound := by simp
    retTimeout := by simp
    tickcntRange := hticks
    tickcntZero := hzero
    cleanStart := fun _ hbefore => by rcases hq with rfl | rfl <;> simp [beforeFrameBytes] at hbefore
    noEarlyResponse := fun _ => h.noEarlyResponse hbusy
    callsWait := fun c hc hn =>
      ⟨(h.callsWait c hc hn).1, fun _ hb => by rcases hq with rfl | rfl <;> simp [busy] at hb⟩ }

/-- A short count is taken and the fault is entered (R177). -/
theorem Inv.faultEntered (h : Inv s) (b : BufId) (bs : List Byte) (n : Nat) (g : FaultStage) :
    Inv (faultEntry (returnKind r) g (takeReturn b bs n r s)) := by
  have hs := h.seq_of_ret hr
  have hwritten := h.written_le hr
  have hcounts := h.counts_eq_zero (.inl (by simp [hr]))
  have hidle : s.seq ≠ .idle := by rcases hs with hs | hs <;> simp [hs]
  have hholds : holdsFrame s = true := by rcases hs with hs | hs <;> simp [holdsFrame, hs]
  exact { h with
    frameEncoded := fun _ => h.frameEncoded hholds
    faultSeq := by simp
    faultKindNone := by cases hl : r.timedOut <;> simp [returnKind, hl]
    initFirst := by simp [h.inited_of_ne_idle hidle]
    txcntBound := hwritten
    txidxBound := fun _ _ _ => by simp [hcounts]
    txidxZero := fun _ => hcounts
    retBound := by simp
    retTimeout := by simp
    tickcntZero := fun _ => h.tickcntZero (by rcases hs with hs | hs <;> simp [hs])
    cleanStart := fun _ hbefore => by simp [beforeFrameBytes] at hbefore
    noEarlyResponse := by simp [busy]
    callsWait := fun c hc hn => ⟨(h.callsWait c hc hn).1, by simp⟩ }

end

theorem Inv.settled (h : Inv s) (hs : s.seq = .settle) : Inv { s with tickcnt := s.tickcnt - 1 } :=
  { h with
    tickcntRange := (Nat.sub_le _ _).trans h.tickcntRange
    tickcntZero := fun hne => absurd hs hne }

/-- CLEAR: the cycle ends with `HOLD` clear and its response given (R106). -/
theorem Inv.cleared (h : Inv s) (hs : s.seq = .settle) (ht : s.tickcnt = 0) (log : List LogEntry) :
    Inv (respond .ok { periphClear s with acceptLog := log, seq := .idle }) :=
  { h with
    frameEncoded := fun hf => by simp [holdsFrame] at hf
    faultSeq := by simp [h.fault_eq_false (by simp [hs])]
    initFirst := fun _ => rfl
    txidxBound := fun _ _ _ => by simp [h.counts_eq_zero (.inr (by simp [hs]))]
    txidxZero := fun _ => h.counts_eq_zero (.inr (by simp [hs]))
    retBound := by simp [h.ret_eq_none (by simp [hs])]
    retTimeout := by simp [h.ret_eq_none (by simp [hs])]
    tickcntZero := fun _ => ht
    holdCap := Nat.zero_le _
    dirtyIfPending := fun _ => rfl
    cleanStart := fun _ _ => rfl
    neverStale := by
      obtain ⟨l, hl, hstale⟩ := periphClear_wireFaults_eq s
      refine ⟨rfl, fun hmem => ?_⟩
      exact (List.mem_append.1 (hl ▸ hmem)).elim h.neverStale.2 hstale
    noEarlyResponse := by simp [busy]
    callsWait := fun c hc hn => ⟨(h.callsWait c hc hn).1, by simp⟩ }

end

/-! ### The peripheral -/

section
variable {s : State} {b : BufId} {n : Nat}

theorem Inv.lineIdled (h : Inv s) (es : List WireEvent) :
    Inv { s with wire := es, wireFaults := if gapUnderruns s then s.wireFaults ++ [.underrun] else s.wireFaults } :=
  { h with
    neverStale := ⟨h.neverStale.1, by
      have := h.neverStale.2
      split <;> simpa⟩ }

/-- A byte that is pending is sent. What is pending beyond it made `HOLD` dirty. -/
theorem Inv.shifted (h : Inv s) {v : Byte} {rest : List Byte} (hp : s.hold.pending = v :: rest) (es : List WireEvent)
    (k : Nat) : Inv { s with hold := ⟨rest, s.hold.dirty⟩, wire := es, draws := k } := by
  have hcap := h.holdCap
  rw [hp, List.length_cons] at hcap
  have hdirty : s.hold.dirty ≠ false := fun hd => by simp [h.dirtyIfPending hd] at hp
  have hnotClear : ¬ holdClear s = true := fun hc => hdirty ((holdClear_eq_true_iff s).1 hc).2
  exact { h with
    holdCap := Nat.le_of_succ_le hcap
    dirtyIfPending := fun hd => absurd hd hdirty
    cleanStart := fun hi hb => absurd (h.cleanStart hi hb) hnotClear }

section
variable (hc : currentWrite s = some (b, n))
include hc

theorem busy_of_currentWrite : busy s = true := by
  have := (currentWrite_cases hc).2
  exact (busy_eq_true_iff s).2 (by tauto)

theorem Inv.counted (h : Inv s) {t : Nat} (ht : s.cfg.txTimeout = some t) (hlt : s.txticks < t) :
    Inv { s with txticks := s.txticks + 1 } :=
  { h with
    txidxZero := fun hnone => absurd (hc.symm.trans hnone) (Option.some_ne_none _)
    txticksBound := fun u hu => by
      obtain rfl : t = u := by simpa [ht] using hu
      exact hlt }

theorem Inv.accepted (h : Inv s) (hi : s.txidx < n) (hh : s.hold.pending.length < s.cfg.holdCap) (v : Byte) :
    Inv (acceptByte v s) :=
  { h with
    txidxBound := fun b' n' hc' => by
      obtain ⟨-, rfl⟩ : b = b' ∧ n = n' := by simpa using hc.symm.trans hc'
      exact hi
    txidxZero := fun hnone => absurd (hc.symm.trans hnone) (Option.some_ne_none _)
    holdCap := by simpa using hh
    dirtyIfPending := by simp
    cleanStart := fun _ hb => by
      have := (currentWrite_cases hc).2
      simp [beforeFrameBytes] at hb
      rcases this with ⟨hs, -⟩ | ⟨hs, -⟩ <;> simp [hs] at hb }

/-- A write returns at most its request; one that gave up has a bound and returns less (R151). -/
theorem Inv.returned (h : Inv s) {k : Nat} {late : Bool} (hk : k ≤ n)
    (hlate : late = true → s.cfg.txTimeout ≠ none ∧ k < n) : Inv (returnWrite ⟨k, late⟩ s) := by
  obtain ⟨-, hw⟩ := currentWrite_cases hc
  exact { h with
    txidxBound := fun _ _ _ => Nat.zero_le _
    txidxZero := fun _ => ⟨rfl, rfl⟩
    txticksBound := fun _ _ => Nat.zero_le _
    retBound := by
      rintro r ⟨⟩
      rcases hw with ⟨hs, -, rfl⟩ | ⟨hs, -, rfl⟩
      · exact .inl ⟨hs, hk⟩
      · exact .inr ⟨hs, hk⟩
    retTimeout := by
      rintro r ⟨⟩ ht
      obtain ⟨hbound, hlt⟩ := hlate ht
      refine ⟨hbound, fun hs => ?_, fun hs => ?_⟩ <;> rcases hw with ⟨hq, -, rfl⟩ | ⟨hq, -, rfl⟩
      · exact hlt
      · simp [hq] at hs
      · simp [hq] at hs
      · exact hlt
    cleanStart := fun hi hb => by
      rcases hb with hb | hb | ⟨-, hr, -⟩
      · exact h.cleanStart hi (.inl hb)
      · exact h.cleanStart hi (.inr (.inl hb))
      · simp at hr }

end

end

/-! ### Every step -/

/-- Everything a move can do keeps the invariant. -/
theorem Effect.inv {m : Move} {s t : State} (he : Effect m s t) (h : Inv s) : Inv t := by
  cases he with
  | nothing => exact h
  | presented w => exact h.presented w
  | setCalled _ _ o => exact h.recordCall o
  | wasReset => exact h.resetEvent
  | refused w rest r _ hp hb => exact h.answered hp hb r
  | initialised w rest _ hp _ hb hf => exact (h.answered hp hb .ok).initialise (seq_eq_idle hb hf).1
  | pixelWritten w rest pos color _ hp _ hb hf => exact (h.answered hp hb .ok).setPixel (seq_eq_idle hb hf).1 _ _
  | cycleStarted w rest _ hp _ hb hf hi => exact (h.answered hp hb .ok).startCycle (seq_eq_idle hb hf).1 hi
  | frameEncoded _ hs => exact h.encoded hs
  | frameTaken r _ hs hr =>
    exact h.countTaken hr _ _ _ (.inl rfl) h.tickcntRange fun _ => h.tickcntZero (by simp [hs])
  | frameShort r _ _ hr => exact h.faultEntered hr _ _ _ _
  | resetTaken r _ _ hr => exact h.countTaken hr _ _ _ (.inr rfl) le_rfl fun hne => absurd rfl hne
  | resetShort r _ _ hr => exact h.faultEntered hr _ _ _ _
  | settled _ hs => exact h.settled hs
  | cleared _ hs ht => exact h.cleared hs ht _
  | counted _ _ _ _ hc ht hlt => exact h.counted hc ht hlt
  | accepted _ _ v _ hc hi hh => exact h.accepted hc hi hh v
  | completed _ _ _ hc => exact h.returned hc le_rfl (by simp)
  | gaveUp _ _ _ hc hi ht =>
    obtain ⟨bound, hb, -⟩ := (timeoutElapsed_eq_true_iff s).1 ht
    exact h.returned hc hi.le fun _ => ⟨by simp [hb], hi⟩
  | wasCut _ _ _ hc hi => exact h.returned hc hi.le (by simp)
  | shifted _ _ _ hp => exact h.shifted hp _ _
  | wentIdle => exact h.lineIdled _
  | lookedUp => exact { h with }

/-- Settles O44: everything a step can do (`step_effect`) keeps the invariant. -/
theorem stepKeepsInvariant : Obligations.StepKeepsInvariant :=
  fun _ _ h hst => (step_effect hst).inv (inv_afterMove h)

end Sys2Proof.Machine
end

section
/-! SUPPORT. Every step of a cycle keeps what the cycle has logged and what it has put on the wire
(spec/41_transmitter.md R111, R115, spec/43_peripheral_and_wire.md R156, R160). -/

namespace Sys2Proof.Machine

/-! ### The log of a cycle (R111, R115) -/

/-- From the frame write on `FRAME` reads as the encoding of `STRIP`. -/
theorem Inv.readFrame_eq_cycleFrame {s : State} (h : Inv s) (hf : holdsFrame s = true) :
    readFrame s 0 (frameLen s) = cycleFrame s := by
  have hlen : (cycleFrame s).length = frameLen s := h.encodeFrame_length_eq
  rw [readFrame_eq hlen.ge (h.frameEncoded hf), ← hlen]
  exact List.take_length

/-- In states of the invariant a cycle in progress is sound as soon as its log is right. -/
theorem Inv.cycleSound {L : List LogEntry} {s : State} (h : Inv s) (hb : busy s = true) (hl : cycleLog L s) :
    CycleSound L s where
  stripLength := h.stripLength
  resetBufZero := h.resetBufZero
  frameRead hne := by
    refine h.readFrame_eq_cycleFrame ?_
    rcases (busy_eq_true_iff s).1 hb with hs | hs | hs | hs
    · exact absurd hs hne
    · simp [holdsFrame, hs]
    · simp [holdsFrame, hs]
    · simp [holdsFrame, hs]
  faultSeq := h.faultSeq
  ticksDone hidle := h.tickcntZero (by simp [hidle])
  log := hl

/-- Settles O54: a state of the invariant makes the cycle sound, and every step of a sound cycle keeps it so
(`CycleSound.step`). -/
theorem stepKeepsCycleLog : Obligations.StepKeepsCycleLog :=
  fun _ _ _ h hb hl hr hst => ⟨((h.cycleSound hb hl).step hb hr hst).log, step_strip_of_busy hb hr hst⟩

/-! ### No move reads what is logged -/

/-- The state with another log and another `TXCNT`. -/
def relogged (log : List LogEntry) (cnt : Nat) (s : State) : State := { s with acceptLog := log, txcnt := cnt }

/-- A move does the same whatever is logged. -/
theorem Effect.relogged {m : Move} {s t : State} (h : Effect m s t) (log : List LogEntry) (cnt : Nat) :
    ∃ log' cnt', Effect m (relogged log cnt s) (relogged log' cnt' t) := by
  cases h with
  | nothing _ _ hm => exact ⟨_, _, .nothing _ _ hm⟩
  | presented w => exact ⟨_, _, .presented w _⟩
  | setCalled pos hex o _ ho => exact ⟨_, _, .setCalled pos hex o _ ho⟩
  | wasReset => exact ⟨[], 0, .wasReset _⟩
  | refused w rest r _ hp hb hr hn hf => exact ⟨_, _, .refused w rest r _ hp hb hr hn hf⟩
  | initialised w rest _ hp hd hb hf hi => exact ⟨_, _, .initialised w rest _ hp hd hb hf hi⟩
  | pixelWritten w rest pos color _ hp hd hb hf hn hl =>
    exact ⟨_, _, .pixelWritten w rest pos color _ hp hd hb hf hn hl⟩
  | cycleStarted w rest _ hp hd hb hf hi => exact ⟨_, _, .cycleStarted w rest _ hp hd hb hf hi⟩
  | frameEncoded _ hs hl hb => exact ⟨_, _, .frameEncoded _ hs hl hb⟩
  | frameTaken r _ hs hr hw => exact ⟨_, _, .frameTaken r _ hs hr hw⟩
  | frameShort r _ hs hr hw => exact ⟨_, _, .frameShort r _ hs hr hw⟩
  | resetTaken r _ hs hr hw => exact ⟨_, _, .resetTaken r _ hs hr hw⟩
  | resetShort r _ hs hr hw => exact ⟨_, _, .resetShort r _ hs hr hw⟩
  | settled _ hs ht => exact ⟨_, _, .settled _ hs ht⟩
  | cleared _ hs ht => exact ⟨_, _, .cleared _ hs ht⟩
  | counted b n t _ hc ht hlt => exact ⟨_, _, .counted b n t _ hc ht hlt⟩
  | accepted b n v _ hc hi hh ht hv => exact ⟨_, _, .accepted b n v _ hc hi hh ht hv⟩
  | completed b n _ hc hi => exact ⟨_, _, .completed b n _ hc hi⟩
  | gaveUp b n _ hc hi ht => exact ⟨_, _, .gaveUp b n _ hc hi ht⟩
  | wasCut b n _ hc hi ht => exact ⟨_, _, .wasCut b n _ hc hi ht⟩
  | shifted v rest _ hp => exact ⟨_, _, .shifted v rest _ hp⟩
  | wentIdle _ hp hl => exact ⟨_, _, .wentIdle _ hp hl⟩
  | lookedUp g => exact ⟨_, _, .lookedUp g _⟩

theorem Inv.relogged {s : State} (h : Inv s) (log : List LogEntry) {cnt : Nat}
    (hcnt : cnt ≤ max (frameLen s) (resetLen s)) : Inv (relogged log cnt s) :=
  { h with txcntBound := hcnt }

/-- In every state of a cycle there is a log that is right, whatever the state has logged. -/
theorem exists_cycleLog_relogged {s : State} (hb : busy s = true) :
    ∃ log, ∃ cnt ≤ max (frameLen s) (resetLen s), cycleLog [] (relogged log cnt s) := by
  rcases (busy_eq_true_iff s).1 hb with hs | hs | hs | hs
  · exact ⟨[], 0, Nat.zero_le _, by simp [cycleLog, Machine.relogged, hs]⟩
  · exact ⟨[], 0, Nat.zero_le _, by simp [cycleLog, Machine.relogged, hs]⟩
  · exact ⟨[frameEntry s], 0, Nat.zero_le _, by simp only [cycleLog, Machine.relogged, hs]; rfl⟩
  · exact ⟨[frameEntry s, resetEntry s], resetLen s, le_max_right _ _, by
      simp only [cycleLog, Machine.relogged, hs]; exact ⟨rfl, rfl⟩⟩

/-! ### The wire of a cycle (R156, R160) -/

section
variable {W : List WireEvent} {F : List WireFault} {s t : State}

/-- In states of the invariant the wire is sound as soon as it is what the cycle has put on it. -/
theorem Inv.wireSound (h : Inv s) (hw : cycleWire W F s) : WireSound W F s where
  wire := hw
  meaning := h.neverStale.1
  beforeWrite hs :=
    ⟨h.ret_eq_none (by simp [hs]), (h.counts_eq_zero (.inr (by simp [hs]))).1,
      h.cleanStart (h.inited_of_ne_idle (by simp [hs])) (.inr (.inl hs))⟩
  returned hr := (h.counts_eq_zero (.inl hr)).1

/-- What a cycle puts on the wire does not depend on what it has logged, so `WireSound.of_effect`, which asks for a
sound cycle, is used of the state with the log set right. -/
theorem Effect.cycleWire {m : Move} (he : Effect m s t) (h : Inv s) (hb : busy s = true) (hw : cycleWire W F s)
    (hm : m ≠ .reset) (hp : fullWriteMove s.cfg m) : cycleWire W F t := by
  obtain ⟨log, cnt, hcnt, hlog⟩ := exists_cycleLog_relogged hb
  obtain ⟨log', cnt', he'⟩ := he.relogged log cnt
  have hinv : Inv (Machine.relogged log cnt s) := h.relogged log hcnt
  have hsound : WireSound W F (Machine.relogged log' cnt' t) :=
    (hinv.wireSound hw).of_effect (hinv.cycleSound hb hlog) hb hm hp he'
  exact hsound.wire

/-- Settles O56: everything a step of a cycle can do (`step_effect`) keeps what it has put on the wire
(`Effect.cycleWire`). -/
theorem stepKeepsCycleWire : Obligations.StepKeepsCycleWire := by
  intro W F s t h hb hw hr hp hst
  exact (step_effect hst).cycleWire (inv_afterMove h) (by rwa [busy_afterMove]) ((cycleWire_afterMove W F s).2 hw) hr
    (by rwa [afterMove_cfg])

end

end Sys2Proof.Machine
end

section
/-! SUPPORT. What the commands, the port, the sequencer and the peripheral change and leave unchanged, that no state of
the invariant stops, and how the histories grow (spec/41_transmitter.md, spec/42_host_commands.md,
spec/43_peripheral_and_wire.md, spec/60_exceptions.md). -/

namespace Sys2Proof.Machine

/-! ### The commands and the micro-operations (R100, R112, R113) -/

theorem exec_update_accepted {s : State} (hb : busy s = false) (hf : refusesFaulted s = false)
    (hi : s.inited = true) : exec .update s = .next { s with seq := .encode, resp := none } := by
  simp [exec, execUpdate, commandGate_open hb hf, hi]

/-- Settles O18: UPDATE at the open gate of an initialised block. -/
theorem updateStartsTheCycle : Obligations.UpdateStartsTheCycle := fun _ hs hf =>
  exec_update_accepted (busy_eq_false (.inl hs)) (refusesFaulted_eq_false hs hf)

/-- Settles O22: in each case of what a command can answer, the fields it does not name are those of the state before. -/
theorem commandFrames : Obligations.CommandFrames := by
  refine ⟨fun s t h => ?_, fun s t pos color h => ?_, fun s t h => ?_⟩
  · rcases execInit_next h with ⟨-, rfl⟩ | ⟨-, -, rfl⟩ | ⟨-, -, -, rfl⟩ | ⟨-, -, -, rfl⟩ <;> rfl
  · rcases execSetpix_next h with ⟨-, rfl⟩ | ⟨-, -, rfl⟩ | ⟨-, -, -, rfl⟩ | ⟨-, -, -, -, rfl⟩
    · exact ⟨rfl, fun _ _ => rfl, fun _ => rfl⟩
    · exact ⟨rfl, fun _ _ => rfl, fun _ => rfl⟩
    · exact ⟨rfl, fun _ _ => rfl, fun _ => rfl⟩
    · exact ⟨rfl, fun i hi => List.getElem?_set_ne (Ne.symm hi), fun _ => rfl⟩
  · rcases execUpdate_next h with ⟨-, rfl⟩ | ⟨-, -, rfl⟩ | ⟨-, -, -, rfl⟩ | ⟨-, -, -, rfl⟩ <;> exact ⟨rfl, fun _ => rfl⟩

/-- Settles O31: each micro-operation looks at what selects it first. -/
theorem unselectedMicroOperationsStop : Obligations.UnselectedMicroOperationsStop :=
  fun _ => ⟨fun h => if_neg h, fun h => if_neg h, fun h => if_neg h, fun h => if_neg h, fun h => if_neg h⟩

/-! ### The step runs what is decoded (R71, R114) -/

theorem takeWord_afterMove (rest : List CmdWord) (s : State) : takeWord rest (afterMove s) =
    { afterMove s with
      port := rest
      setter := if busy s then s.setter else s.setter.map (wordTaken s) } := by
  have hcalls : wordTaken (afterMove s) = wordTaken s := funext (wordTaken_congr (afterMove_resp s))
  simp only [takeWord, busy_afterMove, afterMove_setter, hcalls]

/-- Settles O38: the port's step (`step_command_ok`), with what taking a word does written out. -/
theorem stepRunsTheCommand : Obligations.StepRunsTheCommand := fun s _ rest _ hm hp hd _ => by
  rw [step_command_ok hm hp hd, takeWord_afterMove]

theorem step_tick {s : State} (hm : nextMove s = .tick) : step s = tickStep (afterMove s) := by
  simp [step, hm, runMove]

/-- Settles O39: the selector is a view that taking a move from the schedule leaves as it is. -/
theorem stepRunsTheSelected : Obligations.StepRunsTheSelected := by
  refine ⟨fun s i => step_sequence, fun s hm hd => ?_, fun s g i hm hd => ?_⟩
  · have hsel : decodeUsel4 (usel (afterMove s)) = .ok .settle := by rwa [usel_afterMove]
    simp [step_tick hm, tickStep, hsel]
  · obtain rfl : decodeLut2 g = i := Except.ok.inj hd
    simp [step, hm, runMove]

/-! ### The shifter and the idle line (R152, R153) -/

theorem wireHasMeaning_afterMove {s : State} (h : wireHasMeaning s) : wireHasMeaning (afterMove s) := by
  simpa [Machine.wireHasMeaning] using h

theorem step_shift {s : State} (hm : nextMove s = .shift) : step s = .next (periphShift (afterMove s)) := by
  simp [step, hm, runMove]

theorem step_idle {s : State} (hm : nextMove s = .idle) : step s = .next (periphIdle (afterMove s)) := by
  simp [step, hm, runMove]

theorem periphShift_of_cons {s : State} {v : Byte} {rest : List Byte} (hp : s.hold.pending = v :: rest) :
    periphShift s = { s with
      hold := ⟨rest, s.hold.dirty⟩
      wire := s.wire ++ [.byte (shiftedByte s v)]
      draws := if showsAnyByte s then s.draws + 1 else s.draws } := by
  simp only [periphShift, hp]

theorem periphShift_of_nil {s : State} (hp : s.hold.pending = []) : periphShift s = s := by
  simp only [periphShift, hp]

/-- A wire ends in a byte, or in a gap, or has not begun. -/
theorem lastIsByte_eq_false {es : List WireEvent} (h : es = [] ∨ ∃ fs, es = fs ++ [.gap]) : lastIsByte es = false := by
  rcases h with rfl | ⟨fs, rfl⟩
  · rfl
  · exact lastIsByte_append_gap fs

theorem periphIdle_enabled {s : State} (hp : s.hold.pending = []) (hl : lastIsByte s.wire = true) :
    periphIdle s = { s with
      wire := s.wire ++ [.gap]
      wireFaults := if gapUnderruns s then s.wireFaults ++ [.underrun] else s.wireFaults } := if_pos ⟨hp, hl⟩

theorem periphIdle_disabled {s : State} (h : s.hold.pending ≠ [] ∨ lastIsByte s.wire = false) : periphIdle s = s := by
  refine if_neg fun ⟨hp, hl⟩ => ?_
  rcases h with h | h
  · exact h hp
  · simp [hl] at h

/-- Settles O34: the cases of the shifter and of the idle step; where the wire has a meaning the byte sent is the one
that was pending. -/
theorem shifterAndIdleLine : Obligations.ShifterAndIdleLine := by
  refine fun s => ⟨fun hm v rest hp => ?_, fun hm hp => ?_, fun hm es v hp hw => ?_, fun hm h => ?_⟩
  · refine ⟨_, shiftedByte (afterMove s) v, step_shift hm, ?_, fun hmean => ?_⟩
    · rw [periphShift_of_cons (by simpa using hp)]; simp
    · have hany : showsAnyByte (afterMove s) = false :=
        showsAnyByte_eq_false (wireHasMeaning_afterMove hmean) (by simp [hp])
      rw [periphShift_of_cons (by simpa using hp)]
      simp [shiftedByte, hany]
  · rw [step_shift hm, periphShift_of_nil (by simpa using hp)]
  · refine ⟨_, step_idle hm, ?_⟩
    rw [periphIdle_enabled (by simpa using hp) (by simpa [hw] using lastIsByte_append_byte es v)]
    simp
  · rw [step_idle hm, periphIdle_disabled]
    rcases h with h | h
    · exact .inl (by simpa using h)
    · exact .inr (by simpa using lastIsByte_eq_false h)

/-! ### First in, first out (R152, R48) -/

/-- What a move does to the bytes on the wire and those pending, in this order. -/
theorem Effect.sent_cases {m : Move} {s t : State} (h : Effect m s t) (hmean : wireHasMeaning s) (hr : m ≠ .reset) :
    (t.hold = ⟨[], false⟩ ∧ t.wire = s.wire) ∨
    wireBytes t.wire ++ t.hold.pending = wireBytes s.wire ++ s.hold.pending ∨
    (m = .accept ∧ ∃ v, wireBytes t.wire ++ t.hold.pending = wireBytes s.wire ++ s.hold.pending ++ [v]) := by
  cases h with
  | wasReset => exact absurd rfl hr
  | initialised => exact .inl ⟨rfl, rfl⟩
  | cleared => exact .inl ⟨rfl, rfl⟩
  | accepted _ _ v => exact .inr (.inr ⟨rfl, v, by simp⟩)
  | shifted v rest _ hp =>
    have hany : showsAnyByte s = false := showsAnyByte_eq_false hmean (by simp [hp])
    exact .inr (.inl (by simp [shiftedByte, hany, hp, wireBytes]))
  | wentIdle => exact .inr (.inl (by simp [wireBytes]))
  | _ => exact .inr (.inl rfl)

/-- Settles O35: of everything a step can do (`step_effect`), the shifter moves a byte from the pending ones to the
wire, the acceptor adds one, and INIT and CLEAR alone drop any. -/
theorem peripheralIsFirstInFirstOut : Obligations.PeripheralIsFirstInFirstOut := fun s t hmean hr hst => by
  simpa using (step_effect hst).sent_cases (wireHasMeaning_afterMove hmean) hr

/-! ### What the peripheral leaves unchanged -/

/-- The peripheral's moves. -/
def peripheralMove (m : Move) : Prop :=
  m = .accept ∨ m = .complete ∨ m = .giveUp ∨ m = .cutShort ∨ m = .shift ∨ m = .idle

/-- The second state is the first, but for the fields the peripheral writes and the schedule. -/
def PeripheralFrame (s t : State) : Prop :=
  t = { s with txidx := t.txidx, txticks := t.txticks, ret := t.ret, hold := t.hold, wire := t.wire,
               wireFaults := t.wireFaults, sched := t.sched, draws := t.draws }

theorem peripheralFrame_afterMove (s : State) : PeripheralFrame s (afterMove s) := by
  unfold PeripheralFrame afterMove
  split <;> rfl

theorem PeripheralFrame.trans {s t u : State} (h : PeripheralFrame s t) (h' : PeripheralFrame t u) :
    PeripheralFrame s u := by
  unfold PeripheralFrame at *
  rw [h', h]

theorem Effect.peripheralFrame {m : Move} {s t : State} (h : Effect m s t) (hm : peripheralMove m) :
    PeripheralFrame s t := by
  cases h with
  | nothing => rfl
  | accepted => rfl
  | completed => rfl
  | gaveUp => rfl
  | wasCut => rfl
  | shifted => rfl
  | wentIdle => rfl
  | _ => simp [peripheralMove] at hm

/-- Settles O36: taking the move from the schedule and then what the peripheral's moves can do. -/
theorem peripheralFrames : Obligations.PeripheralFrames := fun s t hm hst => by
  have h : PeripheralFrame s t := (peripheralFrame_afterMove s).trans ((step_effect hst).peripheralFrame hm)
  refine ⟨h, fun a => ?_⟩
  rw [h]
  rfl

/-! ### Ticks (R105, R109) -/

/-- Where SETTLE is not selected a tick counts for the write in progress, if any. -/
theorem step_tick_count {s : State} (hm : nextMove s = .tick) (hs : ¬ (s.seq = .settle ∧ 0 < s.tickcnt)) :
    step s = .next (countWriteTick (afterMove s)) := by
  rw [step_tick hm, tickStep, usel_afterMove, decode_usel]
  cases hq : s.seq with
  | settle =>
    have ht : s.tickcnt = 0 := by simpa [hq] using hs
    simp [ht]
  | _ => rfl

theorem countWriteTick_enabled {s : State} {x : BufId × Nat} {bound : Nat} (hc : currentWrite s = some x)
    (hb : s.cfg.txTimeout = some bound) (hlt : s.txticks < bound) :
    countWriteTick s = { s with txticks := s.txticks + 1 } := by
  simp only [countWriteTick, hc, hb, if_pos hlt]

theorem countWriteTick_disabled {s : State}
    (h : currentWrite s = none ∨ s.cfg.txTimeout = none ∨ ∃ b, s.cfg.txTimeout = some b ∧ b ≤ s.txticks) :
    countWriteTick s = s := by
  unfold countWriteTick
  split
  · rename_i _ bound hc hb
    have hle : bound ≤ s.txticks := by simpa [hc, hb] using h
    rw [if_neg (by omega)]
  · rfl
  · rfl

/-- Settles O37: a tick runs SETTLE where it is selected (`step_tick_settle`), and else counts for the write in
progress (`step_tick_count`), if there is one whose bound is not reached. -/
theorem ticksCountForSettleAndTheBound : Obligations.TicksCountForSettleAndTheBound := by
  refine fun s hm => ⟨step_tick_settle hm, fun b hs hr hb hlt => ?_, fun h => ?_⟩
  · have hn : ∃ n, (s.seq = .txFrame ∧ n = 12 * s.cfg.n) ∨ (s.seq = .txReset ∧ n = s.cfg.resetLen) := by
      rcases hs with hs | hs <;> simp [hs]
    obtain ⟨n, hn⟩ := hn
    obtain ⟨which, hc⟩ := exists_currentWrite hr hn
    rw [step_tick_count hm (by rcases hs with hs | hs <;> simp [hs]),
      countWriteTick_enabled (x := (which, n)) (by simpa using hc) (by simpa using hb) (by simpa using hlt),
      afterMove_txticks]
  · have hs : ¬ (s.seq = .settle ∧ 0 < s.tickcnt) := by
      rintro ⟨hs, ht⟩
      simp [hs, ht.ne'] at h
    rw [step_tick_count hm hs, countWriteTick_disabled]
    rw [currentWrite_afterMove, afterMove_cfg, afterMove_txticks, currentWrite_none]
    rcases h with hq | hq | hq | ⟨hq, -⟩ | ⟨-, hr | hb | hb⟩
    · simp [hq]
    · simp [hq]
    · simp [hq]
    · simp [hq]
    · exact .inl (.inl hr)
    · exact .inr (.inl hb)
    · exact .inr (.inr hb)

/-! ### No state of the invariant stops -/

/-- A string to which SET gives no outcome is one without a meaning (R134). -/
theorem parseColour_of_setOutcome_none {n : Nat} {pos : Option Int} {hex : List Char}
    (h : setOutcome n pos hex = none) : parseColour hex = .noMeaning := by
  unfold setOutcome at h
  split at h
  · split at h
    · simp at h
    · simp at h
    · assumption
  · simp at h

/-- A command has a meaning in every state whose strip has N pixels: a SETPIX in range is within it. -/
theorem exec_command_next {s : State} {w : CmdWord} {i : Instr} (hl : s.strip.length = s.cfg.n)
    (hd : decodeCmd48 w = .ok i) : ∃ t, exec i s = .next t := by
  obtain ⟨k, hk⟩ := exec_eq_commandGate hd
  cases hb : busy s
  · cases hf : refusesFaulted s
    · rcases decodeCmd48_command hd with rfl | ⟨pos, color, rfl⟩ | rfl
      · cases hi : s.inited
        · exact ⟨_, exec_init_accepted hb hf hi⟩
        · exact ⟨_, exec_init_again hb hf hi⟩
      · rcases lt_or_ge pos.toNat s.cfg.n with hn | hn
        · exact ⟨_, exec_setpix_accepted hb hf color hn (hl.symm ▸ hn)⟩
        · exact ⟨_, exec_setpix_outOfRange color hb hf hn⟩
      · cases hi : s.inited
        · exact ⟨_, exec_update_notInitialised hb hf hi⟩
        · exact ⟨_, exec_update_accepted hb hf hi⟩
    · exact ⟨_, exec_faulted hd hb hf⟩
  · exact ⟨_, (hk s).trans (commandGate_busy w k hb)⟩

theorem refuseIllegal_next (w : CmdWord) (s : State) : ∃ t, refuseIllegal w s = .next t := by
  cases hb : busy s
  · exact ⟨_, refuseIllegal_of_not_busy w hb⟩
  · exact ⟨_, commandGate_busy w _ hb⟩

theorem Inv.takeCommand_next {s : State} (h : Inv s) : ∃ t, takeCommand s = .next t := by
  unfold takeCommand
  split
  · exact ⟨_, rfl⟩
  · rename_i w rest _
    split
    · exact exec_command_next h.stripLength ‹_›
    · exact refuseIllegal_next w _

/-- A write whose count is at most its request does not stop. -/
theorem blockingWrite_next_of_le {b : BufId} {g : FaultStage} {n : Nat} {bs : Nat → List Byte} {done : State → State}
    {s : State} (h : ∀ r, s.ret = some r → r.written ≤ n) : ∃ t, blockingWrite b g n bs done s = .next t := by
  cases hr : s.ret with
  | none => exact ⟨_, blockingWrite_wait hr⟩
  | some r =>
    rcases (h r hr).eq_or_lt with hw | hw
    · exact ⟨_, blockingWrite_full hr hw⟩
    · exact ⟨_, blockingWrite_short hr hw⟩

/-- The sequencer's move runs a micro-operation only where it is selected, and within its bounds. -/
theorem Inv.sequencerStep_next {s : State} (h : Inv s) : ∃ t, sequencerStep s = .next t := by
  unfold sequencerStep
  rw [decode_usel]
  cases hs : s.seq with
  | idle => exact ⟨_, rfl⟩
  | encode => exact ⟨_, exec_encode hs h.stripLength⟩
  | txFrame =>
    obtain ⟨t, ht⟩ := blockingWrite_next_of_le (b := .frameBuf) (g := .frame) (bs := readFrame s 0)
      (done := fun t => { t with seq := .txReset }) fun r hr => by simpa [hs] using h.retBound r hr
    exact ⟨t, (exec_txframe hs).trans ht⟩
  | txReset =>
    obtain ⟨t, ht⟩ := blockingWrite_next_of_le (b := .resetBuf) (g := .reset) (bs := readResetBuf s 0)
      (done := fun t => { t with tickcnt := t.cfg.settleTicks, seq := .settle }) fun r hr => by
        simpa [hs] using h.retBound r hr
    exact ⟨t, (exec_txreset hs).trans ht⟩
  | settle =>
    by_cases ht : s.tickcnt = 0
    · exact ⟨_, by simpa [ht] using exec_clear hs ht⟩
    · exact ⟨s, by simp [ht]⟩
  | fault => exact ⟨_, rfl⟩

theorem tickStep_next (s : State) : ∃ t, tickStep s = .next t := by
  unfold tickStep
  rw [decode_usel]
  cases hs : s.seq with
  | settle =>
    by_cases ht : s.tickcnt = 0
    · exact ⟨countWriteTick s, by simp [ht]⟩
    · exact ⟨_, by simpa [ht] using exec_settle hs (by omega)⟩
  | _ => exact ⟨_, rfl⟩

/-- The acceptor reads the buffer within its bound. -/
theorem Inv.periphAccept_next {s : State} (h : Inv s) : ∃ t, periphAccept s = .next t := by
  unfold periphAccept
  split
  · exact ⟨_, rfl⟩
  · rename_i b n hc
    split
    · rename_i hg
      obtain ⟨v, hv⟩ : ∃ v, offeredByte s b s.txidx = some v := by
        obtain ⟨-, ⟨-, rfl, -⟩ | ⟨-, rfl, rfl⟩⟩ := currentWrite_cases hc
        · exact ⟨_, rfl⟩
        · have hlt : s.txidx < s.cfg.resetLen := hg.1
          exact ⟨0, by simp [offeredByte, h.resetBufZero, hlt]⟩
      exact ⟨_, by rw [hv]⟩
    · exact ⟨_, rfl⟩

/-- Settles O45: each agent's move answers a next state, but for SET where it has no outcome. -/
theorem stepsNeverStop : Obligations.StepsNeverStop := by
  intro s hinv
  have h : Inv (afterMove s) := inv_afterMove hinv
  unfold step
  cases hm : nextMove s with
  | set pos hex =>
    cases ho : setOutcome (afterMove s).cfg.n pos hex with
    | some o => exact .inl ⟨_, by simp only [runMove, callSetter, ho]; rfl⟩
    | none =>
      exact .inr ⟨by simp only [runMove, callSetter, ho], pos, hex, rfl, parseColour_of_setOutcome_none ho⟩
  | command => exact .inl h.takeCommand_next
  | sequence => exact .inl h.sequencerStep_next
  | tick => exact .inl (tickStep_next _)
  | accept => exact .inl h.periphAccept_next
  | lookup g => exact .inl ⟨_, exec_lookup g _⟩
  | _ => exact .inl ⟨_, rfl⟩

/-! ### What raises the fault and what sets `INITED` (R26, R171, R172) -/

/-- A write that has returned short is taken: the flags and `TXCNT` say which and how (R177). -/
def TakesShortCount (s t : State) : Prop :=
  ∃ r, s.ret = some r ∧ t.txcnt = r.written ∧ t.faultKind = (if r.timedOut = true then .timeout else .shortWrite) ∧
    t.resp = some .transmissionFault ∧
    ((s.seq = .txFrame ∧ r.written < 12 * s.cfg.n ∧ t.faultStage = .frame) ∨
     (s.seq = .txReset ∧ r.written < s.cfg.resetLen ∧ t.faultStage = .reset))

theorem Effect.fault_cases_of_clear {m : Move} {s t : State} (h : Effect m s t) (hf : s.fault = false) :
    t.fault = false ∨ (m = .sequence ∧ TakesShortCount s t) := by
  cases h with
  | wasReset => exact .inl rfl
  | frameShort r _ hs hr hw => exact .inr ⟨rfl, r, hr, rfl, rfl, rfl, .inl ⟨hs, hw, rfl⟩⟩
  | resetShort r _ hs hr hw => exact .inr ⟨rfl, r, hr, rfl, rfl, rfl, .inr ⟨hs, hw, rfl⟩⟩
  | _ => exact .inl hf

/-- Settles O49: of everything a step can do (`step_effect`), only taking a short count sets the flag. -/
theorem faultsComeFromShortWrites : Obligations.FaultsComeFromShortWrites := by
  intro s t hf hst ht
  rcases (step_effect hst).fault_cases_of_clear (by simpa using hf) with h | h
  · simp [h] at ht
  · simpa [TakesShortCount] using h

/-- The port takes an INIT word and answers it with OK. -/
def TakesInit (s t : State) : Prop :=
  ∃ w, s.port.head? = some w ∧ decodeCmd48 w = .ok .init ∧ t.resp = some .ok

theorem Effect.inited_cases {m : Move} {s t : State} (h : Effect m s t) :
    t.inited = s.inited ∨ (m = .reset ∧ t.inited = false) ∨ (m = .command ∧ t.inited = true ∧ TakesInit s t) := by
  cases h with
  | wasReset => exact .inr (.inl ⟨rfl, rfl⟩)
  | initialised w rest _ hp hd => exact .inr (.inr ⟨rfl, rfl, w, by simp [hp], hd, rfl⟩)
  | _ => exact .inl rfl

/-- Settles O53: `Effect.inited_cases`. -/
theorem initedIsSetOnceByInit : Obligations.InitedIsSetOnceByInit := by
  intro s t hst
  rcases (step_effect hst).inited_cases with hi | ⟨hm, hi⟩ | ⟨hm, hi, hw⟩
  · rw [afterMove_inited] at hi
    exact ⟨fun h h' => by simp [hi, h'] at h, fun h h' => by simp [hi, h'] at h⟩
  · exact ⟨fun h => by simp [hi] at h, fun _ _ => hm⟩
  · exact ⟨fun _ _ => ⟨hm, by simpa [TakesInit] using hw⟩, fun h => by simp [hi] at h⟩

/-! ### The histories (R33, R176) -/

theorem Effect.acceptLog_grows {m : Move} {s t : State} (h : Effect m s t) (hr : m ≠ .reset) :
    ∃ l, t.acceptLog = s.acceptLog ++ l ∧ l.length ≤ 1 ∧ (m ≠ .sequence → l = []) := by
  have hone (e : LogEntry) : ∃ l, s.acceptLog ++ [e] = s.acceptLog ++ l ∧ l.length ≤ 1 ∧
      (Move.sequence ≠ .sequence → l = []) := ⟨[e], rfl, le_rfl, fun hne => absurd rfl hne⟩
  cases h with
  | wasReset => exact absurd rfl hr
  | frameTaken => exact hone _
  | frameShort => exact hone _
  | resetTaken => exact hone _
  | resetShort => exact hone _
  | cleared => exact hone _
  | _ => exact ⟨[], (List.append_nil _).symm, Nat.zero_le _, fun _ => rfl⟩

theorem Effect.wire_grows {m : Move} {s t : State} (h : Effect m s t) (hr : m ≠ .reset) :
    ∃ l, t.wire = s.wire ++ l ∧ l.length ≤ 1 ∧ (m ≠ .shift → m ≠ .idle → l = []) := by
  cases h with
  | wasReset => exact absurd rfl hr
  | shifted v => exact ⟨[.byte (shiftedByte s v)], rfl, le_rfl, fun hne => absurd rfl hne⟩
  | wentIdle => exact ⟨[.gap], rfl, le_rfl, fun _ hne => absurd rfl hne⟩
  | _ => exact ⟨[], (List.append_nil _).symm, Nat.zero_le _, fun _ _ => rfl⟩

/-- What the sequencer's move records: bytes a clear discards, and a frame write that begins on a stale `HOLD`. -/
def sequencerFaults (s : State) : List WireFault :=
  if s.seq = .settle ∧ s.tickcnt = 0 ∧ s.hold.pending ≠ [] then [.truncatedByClear]
  else if s.seq = .encode ∧ holdClear s = false then [.staleHold]
  else []

theorem sequencerStep_wireFaults {s t : State} (h : sequencerStep s = .next t) :
    t.wireFaults = s.wireFaults ++ sequencerFaults s := by
  unfold sequencerStep at h
  rw [decode_usel] at h
  cases hs : s.seq <;> simp only [hs] at h
  case idle => cases h; simp [sequencerFaults, hs]
  case encode =>
    obtain ⟨-, -, -, rfl⟩ := execEncode_next h
    cases hc : holdClear s
    · exact (beginFrameWrite_stale ((holdClear_eq_false_iff s).1 hc)).2.trans (by simp [sequencerFaults, hs, hc])
    · obtain ⟨hp, hd⟩ := (holdClear_eq_true_iff s).1 hc
      exact (beginFrameWrite_clear hp hd).2.trans (by simp [sequencerFaults, hs, hc])
  case txFrame =>
    obtain ⟨-, ⟨-, rfl⟩ | ⟨r, -, -, rfl⟩ | ⟨r, -, -, rfl⟩⟩ := execTxframe_next h <;> simp [sequencerFaults, hs]
  case txReset =>
    obtain ⟨-, ⟨-, rfl⟩ | ⟨r, -, -, rfl⟩ | ⟨r, -, -, rfl⟩⟩ := execTxreset_next h <;> simp [sequencerFaults, hs]
  case settle =>
    by_cases ht : s.tickcnt = 0
    · simp only [ht, if_true] at h
      obtain ⟨-, -, rfl⟩ := execClear_next h
      by_cases hp : s.hold.pending = [] <;> simp [sequencerFaults, hs, ht, hp]
    · simp only [ht, if_false, if_true] at h
      cases h; simp [sequencerFaults, hs, ht]
  case fault => cases h; simp [sequencerFaults, hs]

/-- No other agent than the sequencer and the idle line records a wire-level fault. -/
theorem Effect.wireFaults_eq {m : Move} {s t : State} (h : Effect m s t) (hr : m ≠ .reset) (hm : m ≠ .sequence)
    (hi : m ≠ .idle) : t.wireFaults = s.wireFaults := by
  cases h with
  | wasReset => exact absurd rfl hr
  | frameEncoded => exact absurd rfl hm
  | cleared => exact absurd rfl hm
  | wentIdle => exact absurd rfl hi
  | _ => rfl

theorem truncatedByClear_mem_sequencerFaults (s : State) : .truncatedByClear ∈ sequencerFaults s ↔
    s.seq = .settle ∧ s.tickcnt = 0 ∧ s.hold.pending ≠ [] := by
  unfold sequencerFaults
  split_ifs <;> simp_all

theorem staleHold_mem_sequencerFaults (s : State) : .staleHold ∈ sequencerFaults s ↔
    s.seq = .encode ∧ (s.hold.pending ≠ [] ∨ s.hold.dirty = true) := by
  rw [← holdClear_eq_false_iff]
  unfold sequencerFaults
  split_ifs <;> simp_all

theorem underrun_notMem_sequencerFaults (s : State) : .underrun ∉ sequencerFaults s := by
  unfold sequencerFaults
  split_ifs <;> simp

theorem sequencerFaults_afterMove (s : State) : sequencerFaults (afterMove s) = sequencerFaults s := by
  simp [sequencerFaults, holdClear_afterMove]

/-- What an idle line records, and that it is seen on the wire exactly when the step is enabled (R153, R156). -/
theorem periphIdle_wireFaults (s : State) : ∃ l, (periphIdle s).wireFaults = s.wireFaults ++ l ∧
    (l = [.underrun] ∧ (periphIdle s).wire ≠ s.wire ∧ gapUnderruns s = true ∨
      l = [] ∧ ¬ ((periphIdle s).wire ≠ s.wire ∧ gapUnderruns s = true)) := by
  by_cases hg : s.hold.pending = [] ∧ lastIsByte s.wire = true
  · rw [periphIdle_enabled hg.1 hg.2]
    cases hu : gapUnderruns s
    · exact ⟨[], by simp, .inr ⟨rfl, by simp⟩⟩
    · exact ⟨[.underrun], by simp, .inl ⟨rfl, by simp, rfl⟩⟩
  · rw [show periphIdle s = s from if_neg hg]
    exact ⟨[], by simp, .inr ⟨rfl, by simp⟩⟩

/-- Settles O51: the log and the wire grow by what `step_effect` lists; the record of faults by what the sequencer and
the idle line see. -/
theorem historiesOnlyGrow : Obligations.HistoriesOnlyGrow := by
  intro s t hst hr
  have he := step_effect hst
  refine ⟨by simpa using he.acceptLog_grows hr, by simpa using he.wire_grows hr, ?_⟩
  by_cases hm : nextMove s = .sequence
  · have hrun : sequencerStep (afterMove s) = .next t := by simpa [step, hm, runMove] using hst
    refine ⟨sequencerFaults s, by simpa [sequencerFaults_afterMove] using sequencerStep_wireFaults hrun, ?_, ?_, ?_⟩
    · simp [truncatedByClear_mem_sequencerFaults, hm]
    · simp [underrun_notMem_sequencerFaults, hm]
    · simp [staleHold_mem_sequencerFaults, hm]
  · by_cases hi : nextMove s = .idle
    · obtain rfl : periphIdle (afterMove s) = t := by simpa [step_idle hi] using hst
      obtain ⟨l, hl, hcases⟩ := periphIdle_wireFaults (afterMove s)
      refine ⟨l, by simpa using hl, ?_⟩
      rw [gapUnderruns_afterMove, gapUnderruns_eq_true_iff, afterMove_wire] at hcases
      rcases hcases with ⟨rfl, hu⟩ | ⟨rfl, hu⟩ <;> simp [hi] <;> simpa using hu
    · exact ⟨[], by simpa using he.wireFaults_eq hr hm hi, by simp [hm], by simp [hi], by simp [hm]⟩

end Sys2Proof.Machine
end

section
/-! SUPPORT. A schedule under which a cycle completes, and the state it ends in: each byte of a write is accepted and
sent at once, so that nothing is pending between two rounds (spec/41_transmitter.md R100 to R106,
spec/43_peripheral_and_wire.md R151, R152). -/

namespace Sys2Proof.Machine

/-! ### Runs by their schedule -/

/-- With the moves `ms` next, whatever comes later, the block goes from `s` to `t`. -/
def Runs (ms : List Move) (s t : State) : Prop :=
  ∀ later, core.run ms.length { s with sched := ms ++ later } = .next { t with sched := later }

theorem core_run_add {k l : Nat} {s t : State} (h : core.run k s = .next t) : core.run (k + l) s = core.run l t := by
  induction k generalizing s with
  | zero =>
    obtain rfl : s = t := Host.Outcome.next.inj h
    rw [Nat.zero_add]
  | succ k ih =>
    rw [Nat.add_right_comm]
    simp only [Host.Core.run] at h ⊢
    split at h
    · exact ih h
    · cases h
    · cases h

theorem Runs.append {ms ns : List Move} {s t u : State} (h : Runs ms s t) (h' : Runs ns t u) : Runs (ms ++ ns) s u := by
  intro later
  rw [List.length_append, List.append_assoc, core_run_add (h _)]
  exact h' later

theorem Runs.nil (s : State) : Runs [] s s := fun _ => rfl

/-- One move, which does not look at the schedule. -/
theorem Runs.single {m : Move} {s t : State}
    (h : ∀ later, runMove m { s with sched := later } = .next { t with sched := later }) : Runs [m] s t :=
  fun later => core_run_succ (h later)

/-! ### A write whose bytes are accepted and sent one by one -/

/-- The state after `bs` were accepted and sent. -/
def sendBytes (bs : List Byte) (s : State) : State :=
  { s with
    txidx := s.txidx + bs.length
    hold := ⟨[], s.hold.dirty || !bs.isEmpty⟩
    wire := s.wire ++ bs.map .byte }

theorem sendBytes_nil {s : State} (hp : s.hold.pending = []) : sendBytes [] s = s := by
  have hhold : (⟨[], s.hold.dirty⟩ : Hold) = s.hold := by rw [← hp]
  simp [sendBytes, hhold]

theorem sendBytes_cons (v : Byte) (bs : List Byte) (s : State) :
    sendBytes (v :: bs) s = sendBytes bs (sendBytes [v] s) := by
  simp [sendBytes, Nat.add_assoc, Nat.add_comm 1]

/-- A write of `n` bytes is in progress that nothing delays: no byte is pending, its bound has not elapsed, and what is
sent has a definite value. -/
structure Sending (b : BufId) (n : Nat) (s : State) : Prop where
  write : currentWrite s = some (b, n)
  pending : s.hold.pending = []
  room : 0 < s.cfg.holdCap
  inTime : timeoutElapsed s = false
  fresh : s.staleCycle = false

section
variable {b : BufId} {n : Nat} {s : State}

theorem Sending.sendBytes (h : Sending b n s) (bs : List Byte) : Sending b n (sendBytes bs s) :=
  ⟨h.write, rfl, h.room, h.inTime, h.fresh⟩

/-- One round: a byte is accepted and sent. -/
theorem Sending.round (h : Sending b n s) {v : Byte} (hi : s.txidx < n) (hv : offeredByte s b s.txidx = some v) :
    Runs [.accept, .shift] s (Machine.sendBytes [v] s) := by
  have haccept : Runs [.accept] s (acceptByte v s) :=
    .single fun later => periphAccept_enabled (s := { s with sched := later }) h.write hi
      (by simpa [h.pending] using h.room) h.inTime hv
  have hshift : Runs [.shift] (acceptByte v s) (Machine.sendBytes [v] s) := .single fun later => by
    have hpend : (acceptByte v { s with sched := later }).hold.pending = [v] := by simp [h.pending]
    have hany : showsAnyByte (acceptByte v { s with sched := later }) = false := by
      simp [showsAnyByte, h.fresh, seq_ne_encode_of_currentWrite h.write]
    have hrun := periphShift_of_cons hpend
    simp only [shiftedByte, hany] at hrun
    refine congrArg Host.Outcome.next (hrun.trans ?_)
    simp [Machine.sendBytes, acceptByte]
  exact haccept.append hshift

/-- The rounds of `k` bytes. -/
def rounds (k : Nat) : List Move := (List.replicate k [Move.accept, .shift]).flatten

theorem Sending.rounds {bs : List Byte} (h : Sending b n s) (hn : s.txidx + bs.length ≤ n)
    (hv : ∀ i, i < bs.length → offeredByte s b (s.txidx + i) = bs[i]?) :
    Runs (rounds bs.length) s (Machine.sendBytes bs s) := by
  induction bs generalizing s with
  | nil =>
    rw [sendBytes_nil h.pending]
    exact .nil s
  | cons v bs ih =>
    rw [List.length_cons] at hn
    rw [sendBytes_cons]
    refine (h.round (by omega) (hv 0 (by simp))).append (ih (h.sendBytes [v]) ?_ fun i hi => ?_)
    · show s.txidx + 1 + bs.length ≤ n
      omega
    · have hnext := hv (i + 1) (by simpa using hi)
      rwa [Nat.add_comm i 1, ← Nat.add_assoc, Nat.add_comm 1 i, List.getElem?_cons_succ] at hnext

/-- A write of `n` bytes that were all accepted and sent, with its return. -/
def writeReturned (n : Nat) (bs : List Byte) (s : State) : State := returnWrite ⟨n, false⟩ (sendBytes bs s)

/-- The moves of a write of `n` bytes. -/
def writeMoves (n : Nat) : List Move := Machine.rounds n ++ [Move.complete]

theorem Sending.writeMoves {bs : List Byte} (h : Sending b n s) (hi : s.txidx = 0) (hn : bs.length = n)
    (hv : ∀ i, i < n → offeredByte s b i = bs[i]?) : Runs (writeMoves n) s (writeReturned n bs s) := by
  subst hn
  have hrounds : Runs (Machine.rounds bs.length) s (Machine.sendBytes bs s) :=
    h.rounds (by omega) fun j hj => by rw [hi, Nat.zero_add, hv j hj]
  refine hrounds.append (.single fun later => ?_)
  have hwrite : currentWrite { Machine.sendBytes bs s with sched := later } = some (b, bs.length) := h.write
  have hdone : { Machine.sendBytes bs s with sched := later }.txidx = bs.length := by simp [Machine.sendBytes, hi]
  simp only [runMove, periphComplete, hwrite, if_pos hdone]
  rfl

end

/-! ### The stages of the cycle -/

/-- Between two stages: no count waits, nothing is counted, pending or stale, and a write is not over before it begins. -/
structure Ready (s : State) : Prop where
  ret : s.ret = none
  txidx : s.txidx = 0
  txticks : s.txticks = 0
  pending : s.hold.pending = []
  room : 0 < s.cfg.holdCap
  patient : s.cfg.txTimeout ≠ some 0
  fresh : s.staleCycle = false

theorem Ready.sending {s : State} {b : BufId} {n : Nat} (h : Ready s) (hc : currentWrite s = some (b, n)) :
    Sending b n s where
  write := hc
  pending := h.pending
  room := h.room
  inTime := (timeoutElapsed_eq_false_iff s).2 fun bound hb => by
    have hpos : bound ≠ 0 := fun hz => h.patient (hz ▸ hb)
    rw [h.txticks]
    omega
  fresh := h.fresh

section
variable {s : State}

/-- UPDATE is taken. -/
def cycleStarted (rest : List CmdWord) (s : State) : State := { takeWord rest s with seq := .encode, resp := none }

theorem runs_command_update {w : CmdWord} {rest : List CmdWord} (hs : s.seq = .idle) (hf : s.fault = false)
    (hi : s.inited = true) (hp : s.port = w :: rest) (hd : decodeCmd48 w = .ok .update) :
    Runs [.command] s (cycleStarted rest s) := .single fun later => by
  have hgate := exec_update_accepted (s := takeWord rest { s with sched := later }) (busy_eq_false (.inl hs))
    (refusesFaulted_eq_false hs hf) hi
  simp only [runMove, takeCommand, hp, hd]
  exact hgate

/-- The sequencer's move, where `i` is selected. -/
theorem Runs.sequence {i : Instr} {t : State} (hd : decodeUsel4 (usel s) = .ok i) (hi : i ≠ .settle)
    (h : ∀ later, exec i { s with sched := later } = .next { t with sched := later }) : Runs [.sequence] s t :=
  .single fun later => by
    have hsel : decodeUsel4 (usel { s with sched := later }) = .ok i := hd
    simp only [runMove, sequencerStep, hsel, if_neg hi, h]

/-- ENCODE on a clear `HOLD`. -/
def frameFilled (s : State) : State :=
  { s with frame := Memory.writeBytes s.frame 0 (encodeFrame s.cfg.sym s.strip), seq := .txFrame }

theorem runs_encode (hs : s.seq = .encode) (hl : s.strip.length = s.cfg.n) (hclear : holdClear s = true) :
    Runs [.sequence] s (frameFilled s) :=
  .sequence (by rw [decode_usel, hs]) (by decide) fun later =>
    (exec_encode (s := { s with sched := later }) hs hl).trans
      (congrArg Host.Outcome.next (beginFrameWrite_of_holdClear hclear))

/-- A full count of the frame write is taken. -/
theorem runs_txframe {r : WriteReturn} (hs : s.seq = .txFrame) (hr : s.ret = some r) (hw : r.written = frameLen s) :
    Runs [.sequence] s { takeReturn .frameBuf (readFrame s 0 r.written) (frameLen s) r s with seq := .txReset } :=
  .sequence (i := .txframe) (by rw [decode_usel, hs]) (by decide) fun later =>
    (exec_txframe (s := { s with sched := later }) hs).trans
      (blockingWrite_full (s := { s with sched := later }) hr hw)

/-- A full count of the reset write is taken. -/
theorem runs_txreset {r : WriteReturn} (hs : s.seq = .txReset) (hr : s.ret = some r) (hw : r.written = resetLen s) :
    Runs [.sequence] s { takeReturn .resetBuf (readResetBuf s 0 r.written) (resetLen s) r s with
      tickcnt := s.cfg.settleTicks, seq := .settle } :=
  .sequence (i := .txreset) (by rw [decode_usel, hs]) (by decide) fun later =>
    (exec_txreset (s := { s with sched := later }) hs).trans
      (blockingWrite_full (s := { s with sched := later }) hr hw)

/-- The frame write, and its count taken. -/
def frameSent (s : State) : State :=
  { s with
    seq := .txReset
    txcnt := frameLen s
    txidx := 0
    txticks := 0
    ret := none
    hold := (sendBytes (readFrame s 0 (frameLen s)) s).hold
    wire := s.wire ++ (readFrame s 0 (frameLen s)).map .byte
    acceptLog := s.acceptLog ++ [.write .frameBuf (readFrame s 0 (frameLen s)) (frameLen s)] }

theorem frameSent_eq (s : State) : frameSent s =
    { takeReturn .frameBuf (readFrame s 0 (frameLen s)) (frameLen s) ⟨frameLen s, false⟩
      (writeReturned (frameLen s) (readFrame s 0 (frameLen s)) s) with seq := .txReset } := by
  simp only [frameSent, takeReturn, writeReturned, returnWrite, sendBytes]

theorem Ready.runs_frame (h : Ready s) (hs : s.seq = .txFrame) :
    Runs (writeMoves (frameLen s) ++ [Move.sequence]) s (frameSent s) := by
  have hwrite := (h.sending (currentWrite_txFrame h.ret hs)).writeMoves h.txidx (readFrame_length s 0 _) fun i hi => by
    rw [readFrame_getElem?, if_pos hi, Nat.zero_add, offeredByte]
  have htake := runs_txframe (s := writeReturned (frameLen s) (readFrame s 0 (frameLen s)) s) hs rfl rfl
  rw [readFrame_congr (s := s) rfl rfl, show frameLen (writeReturned _ _ s) = frameLen s from rfl] at htake
  rw [frameSent_eq]
  exact hwrite.append htake

/-- The reset write, and its count taken. -/
def resetSent (s : State) : State :=
  { s with
    seq := .settle
    txcnt := resetLen s
    txidx := 0
    txticks := 0
    tickcnt := s.cfg.settleTicks
    ret := none
    hold := (sendBytes s.resetBuf s).hold
    wire := s.wire ++ s.resetBuf.map .byte
    acceptLog := s.acceptLog ++ [.write .resetBuf (readResetBuf s 0 (resetLen s)) (resetLen s)] }

theorem resetSent_eq (s : State) : resetSent s =
    { takeReturn .resetBuf (readResetBuf s 0 (resetLen s)) (resetLen s) ⟨resetLen s, false⟩
      (writeReturned (resetLen s) s.resetBuf s) with tickcnt := s.cfg.settleTicks, seq := .settle } := by
  simp only [resetSent, takeReturn, writeReturned, returnWrite, sendBytes]

theorem Ready.runs_reset (h : Ready s) (hs : s.seq = .txReset) (hl : s.resetBuf.length = resetLen s) :
    Runs (writeMoves (resetLen s) ++ [Move.sequence]) s (resetSent s) := by
  have hwrite := (h.sending (currentWrite_txReset h.ret hs)).writeMoves h.txidx hl fun i _ => rfl
  rw [resetSent_eq]
  exact hwrite.append (runs_txreset (s := writeReturned (resetLen s) s.resetBuf s) hs rfl rfl)

/-- The delay and CLEAR, with nothing to discard. -/
def cycleCleared (s : State) : State :=
  { s with
    seq := .idle
    tickcnt := 0
    hold := ⟨[], false⟩
    staleCycle := false
    acceptLog := s.acceptLog ++ [.clear]
    resp := some .ok }

theorem runs_ticks (hs : s.seq = .settle) :
    Runs (List.replicate s.tickcnt Move.tick) s { s with tickcnt := 0 } := fun later => by
  rw [List.length_replicate, run_ticks (by exact hs) (by exact le_rfl) rfl, Nat.sub_self]

theorem periphClear_of_nil (hp : s.hold.pending = []) :
    periphClear s = { s with hold := ⟨[], false⟩, staleCycle := false } := by
  simp only [periphClear, if_pos hp]

theorem runs_clear (hs : s.seq = .settle) (hp : s.hold.pending = []) :
    Runs (List.replicate s.tickcnt Move.tick ++ [Move.sequence]) s (cycleCleared s) := by
  refine (runs_ticks hs).append (.sequence (i := .clear) ?_ (by decide) fun later => ?_)
  · rw [decode_usel]; simp [hs]
  · rw [exec_clear (by exact hs) rfl, periphClear_of_nil (by exact hp)]
    rfl

/-! ### The whole cycle -/

/-- The cycle of `s` has come to the state `u`: it has sent `bytes` and logged `log`, `FRAME` is filled once ENCODE is
done, and the rest of the block is as at its start. -/
structure CycleAt (s : State) (rest : List CmdWord) (q : Seq) (bytes : List Byte) (log : List LogEntry)
    (u : State) : Prop where
  seq : u.seq = q
  wire : u.wire = s.wire ++ bytes.map .byte
  acceptLog : u.acceptLog = s.acceptLog ++ log
  frame : q ≠ .encode → readFrame u 0 (frameLen s) = cycleFrame s
  wireFaults : u.wireFaults = s.wireFaults
  cfg : u.cfg = s.cfg
  strip : u.strip = s.strip
  resetBuf : u.resetBuf = s.resetBuf
  fault : u.fault = s.fault
  port : u.port = rest
  ready : Ready u

section
variable {rest : List CmdWord} {bytes : List Byte} {log : List LogEntry} {u : State}

theorem Inv.cycleAt_started (h : Inv s) (rest : List CmdWord) (hs : s.seq = .idle) (hi : s.inited = true)
    (hb : s.cfg.txTimeout ≠ some 0) : CycleAt s rest .encode [] [] (cycleStarted rest s) where
  seq := rfl
  wire := (List.append_nil _).symm
  acceptLog := (List.append_nil _).symm
  frame hne := absurd rfl hne
  wireFaults := rfl
  cfg := rfl
  strip := rfl
  resetBuf := rfl
  fault := rfl
  port := rfl
  ready :=
    { ret := h.ret_eq_none (by simp [hs])
      txidx := (h.counts_eq_zero (.inr (by simp [hs]))).1
      txticks := (h.counts_eq_zero (.inr (by simp [hs]))).2
      pending := ((holdClear_eq_true_iff s).1 (h.cleanStart hi (.inl hs))).1
      room := by
        have hwf := h.cfgWf
        simp only [Params.wf, Bool.and_eq_true, decide_eq_true_eq] at hwf
        show 0 < s.cfg.holdCap
        omega
      patient := hb
      fresh := h.neverStale.1 }

theorem CycleAt.frameFilled (h : CycleAt s rest .encode bytes log u) (hl : s.strip.length = s.cfg.n) :
    CycleAt s rest .txFrame bytes log (frameFilled u) :=
  { h with
    seq := rfl
    frame := fun _ => by
      have hread : readFrame (Machine.frameFilled u) 0 (frameLen u) = cycleFrame u :=
        readFrame_encoded (by rw [h.strip, h.cfg, hl])
      simpa only [frameLen, cycleFrame, h.cfg, h.strip] using hread
    ready := { h.ready with } }

theorem CycleAt.frameSent (h : CycleAt s rest .txFrame [] [] u) :
    CycleAt s rest .txReset (cycleFrame s) [frameEntry s] (frameSent u) := by
  have hlen : frameLen u = frameLen s := by simp [frameLen, h.cfg]
  have hread : readFrame u 0 (frameLen s) = cycleFrame s := h.frame (by decide)
  exact
  { h with
    seq := rfl
    wire := by simp [Machine.frameSent, h.wire, hlen, hread]
    acceptLog := by simp [Machine.frameSent, h.acceptLog, hlen, hread, frameEntry]
    frame := fun _ => (readFrame_congr (s := u) rfl rfl 0 _).trans hread
    ready := ⟨rfl, rfl, rfl, rfl, h.ready.room, h.ready.patient, h.ready.fresh⟩ }

theorem CycleAt.resetSent (h : CycleAt s rest .txReset bytes log u)
    (hz : s.resetBuf = List.replicate (resetLen s) 0) :
    CycleAt s rest .settle (bytes ++ List.replicate (resetLen s) 0) (log ++ [resetEntry s]) (resetSent u) := by
  have hlen : resetLen u = resetLen s := by simp [resetLen, h.cfg]
  have hbuf : u.resetBuf = List.replicate (resetLen s) 0 := h.resetBuf.trans hz
  have hread : readResetBuf u 0 (resetLen s) = List.replicate (resetLen s) 0 := by simp [readResetBuf, hbuf]
  exact
  { h with
    seq := rfl
    wire := by simp [Machine.resetSent, h.wire, hbuf]
    acceptLog := by simp [Machine.resetSent, h.acceptLog, hlen, hread, resetEntry]
    frame := fun _ => (readFrame_congr (s := u) rfl rfl 0 _).trans (h.frame (by decide))
    ready := ⟨rfl, rfl, rfl, rfl, h.ready.room, h.ready.patient, h.ready.fresh⟩ }

theorem CycleAt.cleared (h : CycleAt s rest .settle bytes log u) :
    CycleAt s rest .idle bytes (log ++ [.clear]) (cycleCleared u) :=
  { h with
    seq := rfl
    acceptLog := by simp [cycleCleared, h.acceptLog]
    frame := fun _ => (readFrame_congr (s := u) rfl rfl 0 _).trans (h.frame (by decide))
    ready := { h.ready with pending := rfl, fresh := rfl } }

end

/-- The moves of a whole cycle. -/
def cycleMoves (s : State) : List Move :=
  [Move.command] ++ ([Move.sequence] ++ ((writeMoves (frameLen s) ++ [Move.sequence]) ++
    ((writeMoves (resetLen s) ++ [Move.sequence]) ++
      (List.replicate s.cfg.settleTicks Move.tick ++ [Move.sequence]))))

theorem mem_rounds {m : Move} {k : Nat} (hm : m ∈ rounds k) : m = .accept ∨ m = .shift := by
  obtain ⟨l, hl, hm⟩ := List.mem_flatten.1 hm
  obtain rfl := List.eq_of_mem_replicate hl
  simpa using hm

/-- No move of the cycle is a reset or returns a write short. -/
theorem cycleMoves_full {m : Move} (hm : m ∈ cycleMoves s) : m ≠ .reset ∧ fullWriteMove s.cfg m := by
  have hrounds (k : Nat) (hk : m ∈ rounds k) := mem_rounds hk
  have hticks (k : Nat) (hk : m ∈ List.replicate k Move.tick) := List.eq_of_mem_replicate hk
  have hmoves : m = .command ∨ m = .sequence ∨ m = .accept ∨ m = .shift ∨ m = .complete ∨ m = .tick := by
    simp only [cycleMoves, writeMoves, List.mem_append, List.mem_singleton] at hm
    grind
  rcases hmoves with rfl | rfl | rfl | rfl | rfl | rfl <;> simp [fullWriteMove]

/-- A schedule under which a cycle runs to its end, and what it has sent and logged there. -/
theorem Inv.exists_cycle (h : Inv s) {w : CmdWord} {rest : List CmdWord} (hs : s.seq = .idle) (hf : s.fault = false)
    (hi : s.inited = true) (hb : s.cfg.txTimeout ≠ some 0) (hp : s.port = w :: rest)
    (hd : decodeCmd48 w = .ok .update) : ∃ u, Runs (cycleMoves s) s (cycleCleared u) ∧ u.txcnt = resetLen s ∧
      CycleAt s rest .idle (cycleFrame s ++ List.replicate (resetLen s) 0) [frameEntry s, resetEntry s, .clear]
        (cycleCleared u) := by
  have hstarted : CycleAt s rest .encode [] [] (cycleStarted rest s) := h.cycleAt_started rest hs hi hb
  have hfilled := hstarted.frameFilled h.stripLength
  have hsent := hfilled.frameSent
  have hdone := hsent.resetSent h.resetBufZero
  have hcommand := runs_command_update hs hf hi hp hd
  have hencode := runs_encode hstarted.seq h.stripLength (h.cleanStart hi (.inl hs))
  have hframe := hfilled.ready.runs_frame hfilled.seq
  have hreset := hsent.ready.runs_reset hsent.seq
    (by rw [hsent.resetBuf, h.resetBufZero, List.length_replicate, resetLen, hsent.cfg])
  have hclear := runs_clear hdone.seq hdone.ready.pending
  exact ⟨_, hcommand.append (hencode.append (hframe.append (hreset.append hclear))), rfl, hdone.cleared⟩

/-- Settles O58: the schedule of `Inv.exists_cycle`, none of whose moves is a reset or returns a write short. -/
theorem aCycleCanComplete : Obligations.ACycleCanComplete := by
  intro s w rest h hs hf hi hb hp hd
  obtain ⟨u, hruns, hcnt, ht⟩ := h.exists_cycle hs hf hi hb hp hd
  exact ⟨cycleMoves s, cycleCleared u, fun m => cycleMoves_full, hruns, ht.seq, ht.port, rfl, ht.strip, hcnt,
    ht.fault.trans hf, rfl, ht.wireFaults, ht.frame (by decide), ht.acceptLog, ht.wire⟩

end

end Sys2Proof.Machine
end
